-- ==== Sys2Proof/Word.lean ====
section
/-! DEFINITION. The words of the codec core: bytes of the two streams, 32-bit registers, 64-bit counts and 9-bit arena
indices (spec/00_scope.md R5, spec/10_state.md R13, R24). All values are unsigned (spec/00_scope.md R6). -/

namespace Sys2Proof

/-- One byte: a symbol, a marker, a stream byte (R5: `SYMBOL_BITS` = 8). -/
abbrev Byte := BitVec 8

/-- One host register or command word (R5: `REG_BITS` = 32). -/
abbrev Word := BitVec 32

/-- A symbol or byte count (R5: `COUNT_BITS` = 64). -/
abbrev Count := BitVec 64

/-- The 9-bit index of an arena entry (R33; 511 names no entry, R25). -/
abbrev NodeIdx := BitVec 9

end Sys2Proof
end

