-- ==== Sys2Proof/Syntax.lean ====
section
/-! DEFINITION. The codec core's instructions are the six commands a host writes to `CMD` (spec/00_scope.md R2,
spec/30_encoding.md R61, spec/opcode_table.json). A command word carries no operands (R63): every operand is a register,
a table or a stream. -/

namespace Sys2Proof

/-- The six commands, one constructor per row of spec/opcode_table.json. -/
inductive Instr where
  /-- `NOP`, opcode 0x00 (spec/43_housekeeping.md R92). -/
  | nop
  /-- `TREE_WRITE`, opcode 0x01 (spec/40_tree_codec.md R78). -/
  | treeWrite
  /-- `TREE_READ`, opcode 0x02 (spec/40_tree_codec.md R80). -/
  | treeRead
  /-- `ENCODE`, opcode 0x03 (spec/41_bit_encoder.md R82). -/
  | encode
  /-- `DECODE`, opcode 0x04 (spec/42_bit_decoder.md R85). -/
  | decode
  /-- `CT_CLEAR`, opcode 0x05 (spec/43_housekeeping.md R93). -/
  | ctClear
  deriving DecidableEq, Repr

end Sys2Proof
end

