-- ==== Sys2Proof/WellFormed.lean ====
section
/-! DEFINITION. What a well-formed command is. A command has no operands, so every constructor of `Instr` is well formed
(spec/30_encoding.md R63). A raw command word is well formed when `RSV` is 0 and `OPCODE` is one of the six
(R61, R62). -/

namespace Sys2Proof

/-- R63: "The command word carries no operands", so there is no operand to check. -/
def Instr.wellFormed : Instr → Bool
  | .nop => true
  | .treeWrite => true
  | .treeRead => true
  | .encode => true
  | .decode => true
  | .ctClear => true

/-- R61: `w[31:8]` must be 0. -/
def reservedClear (w : Word) : Bool := w.extractLsb' 8 24 == 0

/-- R62: opcodes 0x00 to 0x05 are defined, the rest are illegal. -/
def opcodeDefined (w : Word) : Bool := (w.extractLsb' 0 8).toNat ≤ 5

/-- A command word that stands for a command (R61, R62). -/
def wordWellFormed (w : Word) : Bool := reservedClear w && opcodeDefined w

end Sys2Proof
end

