-- ==== Sys2Proof/Decode.lean ====
section
/-! DEFINITION. The decoder of the command word, total and rejecting by name, and the encoder
(spec/30_encoding.md R61, R62, spec/43_housekeeping.md R90; the byte lanes are spec/20_memory.md R47). -/

namespace Sys2Proof

/-- R15: `OPCODE` is `w[7:0]`. -/
def opcodeField (w : Word) : Byte := w.extractLsb' 0 8

/-- R15: `RSV` is `w[31:8]`. -/
def reservedField (w : Word) : BitVec 24 := w.extractLsb' 8 24

/-- Why a command word stands for no command, in the names of R90. -/
inductive WordReject where
  /-- R61: `RSV` is not 0 (RESERVED_BITS). -/
  | reservedBits
  /-- R62: the opcode is in 0x06..0xFF (BAD_OPCODE). -/
  | badOpcode
  deriving DecidableEq, Repr

/-- R61's table of opcodes. -/
def opcodeInstr (op : Byte) : Option Instr :=
  match op.toNat with
  | 0 => some .nop
  | 1 => some .treeWrite
  | 2 => some .treeRead
  | 3 => some .encode
  | 4 => some .decode
  | 5 => some .ctClear
  | _ => none

/-- The command a word stands for. R90 checks `RSV` before the opcode. -/
def decode (w : Word) : Except WordReject Instr :=
  if reservedField w ≠ 0 then .error .reservedBits
  else
    match opcodeInstr (opcodeField w) with
    | some i => .ok i
    | none => .error .badOpcode

/-- Why a byte sequence stands for no command. -/
inductive BytesReject where
  /-- R61: "A command word is always exactly 32 bits". -/
  | notOneWord
  | word (r : WordReject)
  deriving DecidableEq, Repr

/-- R47: byte offset `a + k` holds bits `8k+7 : 8k`. -/
def wordOfBytes (b0 b1 b2 b3 : Byte) : Word := b3 ++ b2 ++ b1 ++ b0

/-- R47: the bytes of a word, the lowest address first. -/
def bytesOfWord (w : Word) : List Byte :=
  [w.extractLsb' 0 8, w.extractLsb' 8 8, w.extractLsb' 16 8, w.extractLsb' 24 8]

/-- The decoder over the four bytes of a command word. -/
def decodeBytes : List Byte → Except BytesReject Instr
  | [b0, b1, b2, b3] =>
    match decode (wordOfBytes b0 b1 b2 b3) with
    | .ok i => .ok i
    | .error r => .error (.word r)
  | _ => .error .notOneWord

/-- The word whose low `nbits` bits are those of `w` and whose other bits are 0. -/
def tableWord (nbits w : Nat) : Word := BitVec.ofNat 32 (w % 2 ^ nbits)

/-- The instruction that the decoder reads from an opcode-table row's bits. -/
def decodeTableWord (nbits w : Nat) : Option Instr :=
  if 32 < nbits then none
  else
    match decodeBytes (bytesOfWord (tableWord nbits w)) with
    | .ok i => some i
    | .error _ => none

/-- R61: the opcode of each command. -/
def Instr.opcode : Instr → Byte
  | .nop => 0x00
  | .treeWrite => 0x01
  | .treeRead => 0x02
  | .encode => 0x03
  | .decode => 0x04
  | .ctClear => 0x05

/-- The encoder: `RSV` = 0 above the opcode (R61). -/
def encode (i : Instr) : Word := (0 : BitVec 24) ++ i.opcode

end Sys2Proof
end

