-- ==== Sys2Proof/Config.lean ====
section
/-! DEFINITION. The constants that HCC-1 fixes (spec/00_scope.md R5, spec/10_state.md R13, R14), the values this model
picks for the parameters the spec leaves OPEN, and the free values of what the spec leaves unspecified after reset
(spec/70_reset_and_hazards.md R109 item 4, spec/93_implementation_defined.md S1, S2). -/

namespace Sys2Proof.Config

/-- R5 `MAX_NODES`: arena entries. -/
abbrev maxNodes : Nat := 511

/-- R5 `MAX_DEPTH`: traversal-stack entries. -/
abbrev maxDepth : Nat := 255

/-- R5 `NUM_SYMBOLS`: code-table entries. -/
abbrev numSymbols : Nat := 256

/-- R5 `LEAF_MARKER`: 0x4C, `'L'`. -/
abbrev leafMarker : Byte := 0x4C

/-- R14: the constant that `ID` reads. -/
abbrev idValue : Word := 0x48434331

/-- R18: the reset value of `CFG.SEPARATOR`. -/
abbrev separatorReset : Byte := 0x20

/-- R18: the reset value of `CFG.INTERNAL_MARKER`. -/
abbrev internalMarkerReset : Byte := 0x49

/-- `REG_BASE` of the machine that `State.reset` describes. R39 leaves it OPEN.
DESIGN CHOICE (notes/assumptions/1.md). -/
abbrev regBaseAtReset : Nat := 0

/-- `IN_DEPTH - 1` of the machine that `State.reset` describes. R5 leaves `IN_DEPTH` OPEN (at least 1).
DESIGN CHOICE (notes/assumptions/1.md). -/
abbrev inDepthPredAtReset : Nat := 63

/-- `OUT_DEPTH - 1` of the machine that `State.reset` describes. R5 leaves `OUT_DEPTH` OPEN (at least 1).
DESIGN CHOICE (notes/assumptions/1.md). -/
abbrev outDepthPredAtReset : Nat := 63

/-! ### Free values (notes/assumptions/2.md)

R109 item 4: after a reset each field of the arena and of the code table "may hold any value, as if drawn freely per
field". A free value is an opaque constant applied to the number of the reset that draws it and to the field's place.
-/

/-- `NODE[index].LEAF` after reset number `draw` (S1). -/
opaque freeLeaf (draw index : Nat) : Bool

/-- `NODE[index].EDGE` after reset number `draw` (S1). -/
opaque freeEdge (draw index : Nat) : Byte

/-- `NODE[index].SYMBOL` after reset number `draw` (S1). -/
opaque freeSymbol (draw index : Nat) : Byte

/-- `NODE[index].LEFT` after reset number `draw` (S1). -/
opaque freeLeft (draw index : Nat) : NodeIdx

/-- `NODE[index].RIGHT` after reset number `draw` (S1). -/
opaque freeRight (draw index : Nat) : NodeIdx

/-- `CT_LEN[symbol]` after reset number `draw` (S2). -/
opaque freeCodeLen (draw symbol : Nat) : Byte

/-- `CT_WORDS[symbol][word]` after reset number `draw` (S2). -/
opaque freeCodeWord (draw symbol word : Nat) : Word

end Sys2Proof.Config
end

