-- ==== Sys2Proof/Machine/Container.lean ====
section
/-! DEFINITION. The container format (spec/30_encoding.md R64 to R70) as functions on data: the tree grammar, the decimal
count and the packed bitstream. ENCODE uses `dec`; the rest says what the commands produce and consume. -/

namespace Sys2Proof.Machine

/-! ### The decimal count (R67, R68) -/

/-- R67: the digit `d` is the byte `0x30 + d`. -/
def digitByte (d : Nat) : Byte := BitVec.ofNat 8 (0x30 + d)

/-- The digits of `n` put before `tail`, least significant first, at most `fuel` of them. -/
def decDigits : Nat → Nat → List Byte → List Byte
  | 0, _, tail => tail
  | fuel + 1, n, tail =>
    let text := digitByte (n % 10) :: tail
    if n / 10 = 0 then text else decDigits fuel (n / 10) text

/-- R67: the shortest decimal text of `n`, 1 to 20 bytes since `n` is at most 2^64 - 1. -/
def dec (n : Count) : List Byte := decDigits 20 n.toNat []

/-- R68: an ASCII digit, 0x30..0x39. -/
def isDigit (b : Byte) : Bool := 0x30 ≤ b.toNat && b.toNat ≤ 0x39

/-- The value of an ASCII digit. -/
def digitValue (b : Byte) : Nat := b.toNat - 0x30

/-- R68: the value of a digit sequence, most significant first, on unbounded naturals. -/
def digitsValue (ds : List Byte) : Nat := ds.foldl (fun v b => v * 10 + digitValue b) 0

/-! ### The serialized tree (R65) -/

/-- R65: the trees the grammar serializes. -/
inductive Tree where
  | leaf (edge symbol : Byte)
  | internal (edge : Byte) (left right : Tree)
  deriving DecidableEq, Repr

/-- R65: `tree_bytes(T)` under the internal marker `im`. -/
def treeBytes (im : Byte) : Tree → List Byte
  | .leaf e s => [Config.leafMarker, e, s]
  | .internal e l r => im :: e :: (treeBytes im l ++ treeBytes im r)

/-- The nodes of a tree (R66: `k + m`). -/
def Tree.size : Tree → Nat
  | .leaf _ _ => 1
  | .internal _ l r => 1 + l.size + r.size

/-- R66: the leaves of a tree. -/
def Tree.leaves : Tree → Nat
  | .leaf _ _ => 1
  | .internal _ l r => l.leaves + r.leaves

/-- R66: the internal nodes of a tree. -/
def Tree.internals : Tree → Nat
  | .leaf _ _ => 0
  | .internal _ l r => 1 + l.internals + r.internals

/-- The largest `SP` that parsing or writing the tree reaches: a left subtree stands above its pending right sibling, a
right subtree replaces it (R75, R78). -/
def Tree.pending : Tree → Nat
  | .leaf _ _ => 0
  | .internal _ l r => max (1 + l.pending) r.pending

/-- R87: the walk from the root, "1" to the left child and "0" to the right, that ends in a leaf with the last bit. -/
def Tree.walk : Tree → List Bool → Option Byte
  | .leaf _ s, [] => some s
  | .leaf _ _, _ :: _ => none
  | .internal _ _ _, [] => none
  | .internal _ l r, b :: bs => if b then l.walk bs else r.walk bs

/-- R88, R89: the code bits `c` stand for the symbol `s` in `t`: the root-to-leaf path of a leaf that holds `s`, or any one
bit when `t` is one leaf. -/
def Tree.codes : Tree → List Bool → Byte → Prop
  | .leaf _ x, c, s => c.length = 1 ∧ x = s
  | .internal e l r, c, s => (Tree.internal e l r).walk c = some s

/-! ### The packed bitstream (R69) -/

/-- R69: byte `k` of the packed bit string, `B_{8k}` in bit 7, 0 for the bits past the end. -/
def packByte (bits : List Bool) (k : Nat) : Byte :=
  (List.range 8).foldl (fun acc i => acc <<< 1 ||| (BitVec.ofBool (bits.getD (8 * k + i) false)).setWidth 8) 0

/-- R69: the bytes of a bit string, `ceil(T / 8)` of them, the last zero-padded in its low-order bits. -/
def packBits (bits : List Bool) : List Byte :=
  (List.range ((bits.length + 7) / 8)).map (packByte bits)

/-- R47: the bits of a byte, most significant first. -/
def byteBits (b : Byte) : List Bool := (List.range 8).map fun i => b.getLsbD (7 - i)

/-- R47: the bits of a byte sequence in the order the decoder reads them. -/
def bytesBits (bs : List Byte) : List Bool := bs.flatMap byteBits

end Sys2Proof.Machine
end

