-- ==== Sys2Proof/Machine/State.lean ====
section
/-! DEFINITION. The state of the codec core and of the host that drives it, the reasons a step can stop, and reset
(spec/10_state.md, spec/20_memory.md R36, R49, R50, spec/70_reset_and_hazards.md R109). -/

namespace Sys2Proof.Machine

/-- Why the machine stops. -/
inductive Fault where
  /-- The engine reads or writes `NODE[511]`, an entry that R33 says does not exist. Raised by TREE_WRITE, TREE_READ and
  DECODE, only in a state that no run reaches (`Safety.Inv` rules it out). Safe: the model stops where the spec says
  nothing. -/
  | noSuchNode
  deriving DecidableEq, Repr

/-- Why an instruction has no meaning. -/
inductive Refusal where
  /-- An instruction of the opcode table that is not modelled. No arm of `exec` answers it. Safe: the model stops. -/
  | notModelled (mnemonic : String)
  deriving DecidableEq, Repr

/-- R16: the stored fields of `STATUS`. `BUSY` mirrors `RUN` (R37) and is computed from the engine. -/
structure Status where
  /-- Bit 1, `DONE`. -/
  done : Bool
  /-- Bit 2, `ERR`. -/
  err : Bool
  /-- Bit 3, `REJ`. -/
  rej : Bool
  /-- Bit 4, `IN_ENDED`. -/
  inEnded : Bool
  /-- Bits 11:8, `ERR_CODE`. -/
  errCode : BitVec 4
  /-- Bits 15:12, `ERR_DETAIL`. -/
  errDetail : BitVec 4
  /-- Bits 23:16, `OP`. -/
  op : Byte
  deriving DecidableEq, Repr

/-- R17: `IRQ_EN`. -/
structure IrqEn where
  doneIe : Bool
  errIe : Bool
  deriving DecidableEq, Repr

/-- R18: `CFG`. -/
structure Cfg where
  separator : Byte
  internalMarker : Byte
  deriving DecidableEq, Repr

/-- R28: `CT_SEL`. -/
structure CtSel where
  sym : Byte
  word : BitVec 3
  deriving DecidableEq, Repr

/-- R33: one arena entry. -/
structure Node where
  leaf : Bool
  edge : Byte
  symbol : Byte
  left : NodeIdx
  right : NodeIdx
  deriving DecidableEq, Repr

/-- R31: one code-table entry, `CT_LEN[s]` and the 8 words of `CT_BITS[s]`. -/
structure CodeEntry where
  len : Byte
  words : Vector Word 8
  deriving DecidableEq, Repr

/-- R36: one entry of `IN_Q`, a byte and its end marker. -/
structure InEntry where
  byte : Byte
  last : Bool
  deriving DecidableEq, Repr

/-- R35: the side of a traversal-stack entry, `LEFTSIDE` = 0 or `RIGHTSIDE` = 1. -/
inductive Side where
  | left
  | right
  deriving DecidableEq, Repr

/-- R35: one traversal-stack entry. -/
structure StackEntry where
  idx : NodeIdx
  side : Side
  deriving DecidableEq, Repr

/-- R35: the traversal stack. The head is `STK[SP-1]` and the length is `SP`. -/
abbrev Stack := List StackEntry

/-- Where `ParseTree` (R75) is: before the marker, the edge byte or the symbol byte of a node. -/
inductive ParsePos where
  | marker (stk : Stack)
  | edge (stk : Stack) (m : Byte)
  | symbol (stk : Stack) (e : Byte)
  deriving DecidableEq, Repr

/-- `CUR` and `CUR_N` (R37). With no unread bit (`CUR_N` = 0) `CUR` is not read, so it is not held. -/
inductive Cursor where
  | empty
  | bits (cur : Byte) (curN : Nat)
  deriving DecidableEq, Repr

/-- Where TREE_WRITE (R78) is. `visits` is `VISITS`, `n` the node being written. -/
inductive TreeWritePos where
  | start
  | visit (i : NodeIdx) (visits : Nat) (stk : Stack)
  | marker (n : Node) (visits : Nat) (stk : Stack)
  | edge (n : Node) (visits : Nat) (stk : Stack)
  | symbol (n : Node) (visits : Nat) (stk : Stack)
  | finish
  deriving DecidableEq, Repr

/-- Where TREE_READ (R80) is. -/
inductive TreeReadPos where
  | start
  | parse (p : ParsePos)
  | finish
  deriving DecidableEq, Repr

/-- Where ENCODE (R82) is. `acc` and `accN` are `ACC` and `ACC_N`, `len` is the local `L`, `j` the next code bit. -/
inductive EncodePos where
  | start
  | digits (rest : List Byte)
  | symbol (acc : Byte) (accN : Nat)
  | bit (s len j acc : Byte) (accN : Nat)
  | flush (s len j acc : Byte)
  | finish
  deriving DecidableEq, Repr

/-- Where DECODE (R85, R86, R87) is. `hv` and `hd` are `HV` and `HD`, `ptr` is `PTR`. -/
inductive DecodePos where
  | start
  | parse (p : ParsePos)
  | header (hv : Count) (hd : Nat)
  | body (ptr : NodeIdx) (cur : Cursor)
  | emit (sym : Byte) (ptr : NodeIdx) (cur : Cursor)
  deriving DecidableEq, Repr

/-- Where CT_CLEAR (R93) is. -/
inductive CtClearPos where
  | start
  | finish
  deriving DecidableEq, Repr

/-- R37: `RUN`, `OPR`, the position and the live local variables of the running command. While idle the engine-internal
state is undefined and no rule reads it, so it is not held (R37: "A model may hold them as locals of the running command's
continuation"). -/
inductive Engine where
  | idle
  | nop
  | treeWrite (p : TreeWritePos)
  | treeRead (p : TreeReadPos)
  | encode (p : EncodePos)
  | decode (p : DecodePos)
  | ctClear (p : CtClearPos)
  deriving DecidableEq, Repr

/-- The parameters the spec leaves OPEN (R5, R39). No transition changes them. The depths are held less one, since each is
at least 1. -/
structure Params where
  regBase : Nat
  inDepthPred : Nat
  outDepthPred : Nat
  deriving DecidableEq, Repr

/-- R5: `IN_DEPTH`, at least 1. -/
def Params.inDepth (p : Params) : Nat := p.inDepthPred + 1

/-- R5: `OUT_DEPTH`, at least 1. -/
def Params.outDepth (p : Params) : Nat := p.outDepthPred + 1

/-- A host action: the statements of R72, an access of any width and address (R45), and `rst` (R109). -/
inductive HostAction where
  /-- A bus write of `width` bits to the bus address `addr`. -/
  | write (addr width : Nat) (v : Word)
  /-- A bus read of `width` bits from the bus address `addr`. -/
  | read (addr width : Nat)
  /-- R49: enqueue `(b, last)` into `IN_Q`. -/
  | send (b : Byte) (last : Bool)
  /-- R50: dequeue the head of `OUT_Q`. -/
  | recv
  /-- R72: read `STATUS` until `BUSY` reads 0. -/
  | waitIdle
  /-- R109: the platform asserts `rst`. -/
  | rst
  /-- No host transition: only engine steps. -/
  | pause
  deriving DecidableEq, Repr

/-- One turn of the interleaving of R54: a host action and how many engine steps follow it before the next host action
(notes/assumptions/3.md). -/
structure Turn where
  action : HostAction
  lead : Nat
  deriving DecidableEq, Repr

/-- Everything the spec gives the machine, and the host's side of it as plain data. -/
structure State where
  /-- R16 `STATUS`. -/
  status : Status
  /-- R17 `IRQ_EN`. -/
  irqEn : IrqEn
  /-- R18 `CFG`. -/
  cfg : Cfg
  /-- R19 `ERR_INFO`. -/
  errInfo : Word
  /-- R20 `IN_COUNT`. -/
  inCount : Count
  /-- R21 `OUT_COUNT`. -/
  outCount : Count
  /-- R22 `SYM_COUNT`. -/
  symCount : Count
  /-- R23 `SYMS_LEFT`. -/
  symsLeft : Count
  /-- R24 `NODE_COUNT`. -/
  nodeCount : NodeIdx
  /-- R25 `NODE_SEL`. -/
  nodeSel : NodeIdx
  /-- R28 `CT_SEL`. -/
  ctSel : CtSel
  /-- R33: `NODE[0..510]`. -/
  arena : Vector Node Config.maxNodes
  /-- R31: the code table. -/
  table : Vector CodeEntry Config.numSymbols
  /-- R36 `IN_Q`, head first. -/
  inQ : List InEntry
  /-- R36 `OUT_Q`, head first. -/
  outQ : List Byte
  /-- R37: the engine. -/
  engine : Engine
  /-- R5, R39: the OPEN parameters. -/
  params : Params
  /-- MODEL'S OWN: how many resets have drawn free values (notes/assumptions/2.md). -/
  draws : Nat
  /-- MODEL'S OWN: the host's turns still to come (notes/assumptions/3.md). -/
  script : List Turn
  /-- MODEL'S OWN: the engine steps that follow the host action being taken (notes/assumptions/3.md). -/
  lead : Nat
  /-- MODEL'S OWN: the values the host's reads returned, oldest first (notes/assumptions/4.md). -/
  reads : List Word
  /-- MODEL'S OWN: the bytes the host took from `OUT_Q`, oldest first (notes/assumptions/4.md). -/
  received : List Byte
  deriving DecidableEq, Repr

/-- R109 item 4: an unspecified arena entry. -/
def freeNode (draw i : Nat) : Node :=
  { leaf := Config.freeLeaf draw i, edge := Config.freeEdge draw i, symbol := Config.freeSymbol draw i,
    left := Config.freeLeft draw i, right := Config.freeRight draw i }

/-- R109 item 4: an unspecified code-table entry. -/
def freeEntry (draw s : Nat) : CodeEntry :=
  { len := Config.freeCodeLen draw s, words := Vector.ofFn fun w => Config.freeCodeWord draw s w.val }

/-- R109: the state a reset leaves, drawing its unspecified fields under the number `draw`, with an empty host script. -/
def State.atReset (p : Params) (draw : Nat) : State :=
  { status :=
      { done := false, err := false, rej := false, inEnded := false, errCode := 0, errDetail := 0, op := 0 }
    irqEn := { doneIe := false, errIe := false }
    cfg := { separator := Config.separatorReset, internalMarker := Config.internalMarkerReset }
    errInfo := 0
    inCount := 0
    outCount := 0
    symCount := 0
    symsLeft := 0
    nodeCount := 0
    nodeSel := 0
    ctSel := { sym := 0, word := 0 }
    arena := Vector.ofFn fun i => freeNode draw i.val
    table := Vector.ofFn fun s => freeEntry draw s.val
    inQ := []
    outQ := []
    engine := .idle
    params := p
    draws := draw
    script := []
    lead := 0
    reads := []
    received := [] }

/-- The machine right after reset. -/
def State.reset : State :=
  State.atReset
    { regBase := Config.regBaseAtReset, inDepthPred := Config.inDepthPredAtReset,
      outDepthPred := Config.outDepthPredAtReset } 0

/-- A step's answer. -/
abbrev Result := Host.Outcome State Fault Refusal

end Sys2Proof.Machine
end

