-- ==== Sys2Proof/Machine/Flags.lean ====
section
/-! DEFINITION. The `STATUS` bits are the codec core's only flags (spec/10_state.md R16, R38). This file computes the
`STATUS` word, the numbers of every error cause (spec/60_exceptions.md R94), the W1C write and the interrupt line
(R98). -/

namespace Sys2Proof.Machine

/-- R94: every error the core raises, by its sub-cause. FILE_UNAVAILABLE (code 1) is never raised (R95). -/
inductive Cause where
  | badMarker
  | treeTruncated
  | arenaOverflow
  | stackOverflow
  | headerTruncated
  | noDigits
  | countOverflow
  | badSeparator
  | emptyArena
  | badChild
  | bitstreamEnd
  | symbolsEnd
  | missingCode
  | badOpcode
  | reservedBits
  | badConfig
  deriving DecidableEq, Repr

/-- R94: `ERR_CODE`. 2 is CORRUPT_FORMAT, 3 TRUNCATED_INPUT, 4 MISSING_CODE, 5 ILLEGAL_COMMAND. -/
def Cause.code : Cause → BitVec 4
  | .badMarker => 2
  | .treeTruncated => 2
  | .arenaOverflow => 2
  | .stackOverflow => 2
  | .headerTruncated => 2
  | .noDigits => 2
  | .countOverflow => 2
  | .badSeparator => 2
  | .emptyArena => 2
  | .badChild => 2
  | .bitstreamEnd => 3
  | .symbolsEnd => 3
  | .missingCode => 4
  | .badOpcode => 5
  | .reservedBits => 5
  | .badConfig => 5

/-- R94: `ERR_DETAIL`. -/
def Cause.detail : Cause → BitVec 4
  | .badMarker => 1
  | .treeTruncated => 2
  | .arenaOverflow => 3
  | .stackOverflow => 4
  | .headerTruncated => 5
  | .noDigits => 6
  | .countOverflow => 7
  | .badSeparator => 8
  | .emptyArena => 9
  | .badChild => 10
  | .bitstreamEnd => 1
  | .symbolsEnd => 2
  | .missingCode => 0
  | .badOpcode => 1
  | .reservedBits => 2
  | .badConfig => 3

/-- R37: `RUN`. -/
def Engine.running : Engine → Bool
  | .idle => false
  | .nop => true
  | .treeWrite _ => true
  | .treeRead _ => true
  | .encode _ => true
  | .decode _ => true
  | .ctClear _ => true

/-- R37: `OPR`, the running command. -/
def Engine.opr : Engine → Option Instr
  | .idle => none
  | .nop => some .nop
  | .treeWrite _ => some .treeWrite
  | .treeRead _ => some .treeRead
  | .encode _ => some .encode
  | .decode _ => some .decode
  | .ctClear _ => some .ctClear

/-- R16 bit 0, `BUSY`: "`STATUS.BUSY` mirrors" `RUN` (R37). -/
def State.busy (s : State) : Bool := s.engine.running

/-- R16: the whole `STATUS` word, reserved bits 0. -/
def State.statusWord (s : State) : Word :=
  (0 : BitVec 8) ++ s.status.op ++ s.status.errDetail ++ s.status.errCode ++ (0 : BitVec 3) ++
    BitVec.ofBool s.status.inEnded ++ BitVec.ofBool s.status.rej ++ BitVec.ofBool s.status.err ++
    BitVec.ofBool s.status.done ++ BitVec.ofBool s.busy

/-- R44, R45, R90: a rejected access changes nothing but `REJ`. -/
def State.reject (s : State) : State := { s with status := { s.status with rej := true } }

/-- R16, R43: a write of 1 to bit 1 clears `DONE`. -/
def State.clearDone (s : State) (v : Word) : State :=
  { s with status := { s.status with done := s.status.done && !v.getLsbD 1 } }

/-- R101: the acknowledgement. It clears `ERR`, `ERR_CODE`, `ERR_DETAIL` and `ERR_INFO` in one transition. -/
def State.acknowledge (s : State) : State :=
  { s with status := { s.status with err := false, errCode := 0, errDetail := 0 }, errInfo := 0 }

/-- R16, R43: a write of 1 to bit 3 clears `REJ`. -/
def State.clearRej (s : State) (v : Word) : State :=
  { s with status := { s.status with rej := s.status.rej && !v.getLsbD 3 } }

/-- R16: a host write of `v` to `STATUS`. Its other bits are RO or reserved. -/
def State.writeStatus (s : State) (v : Word) : State :=
  let s1 := (s.clearDone v).clearRej v
  if v.getLsbD 2 then s1.acknowledge else s1

/-- R98: the interrupt line. -/
def State.irq (s : State) : Bool :=
  (s.status.done && s.irqEn.doneIe) || (s.status.err && s.irqEn.errIe)

end Sys2Proof.Machine
end

