-- ==== Sys2Proof/Machine/Operands.lean ====
section
/-! DEFINITION. The operands of the commands (spec/30_encoding.md R63): arena entries, code bits, the configuration and
the halves of the 64-bit counts. -/

namespace Sys2Proof.Machine

/-! ### The arena (R33) -/

/-- `NODE[i]`. Indices 0 to 510 exist (R25). -/
def State.node? (s : State) (i : NodeIdx) : Option Node := s.arena[i.toNat]?

/-- `NODE[i] <- n`. -/
def State.setNode? (s : State) (i : NodeIdx) (n : Node) : Option State :=
  if h : i.toNat < Config.maxNodes then some { s with arena := s.arena.set i.toNat n } else none

/-- `NODE[i]` changed by `f`, for one-field writes such as `NODE[p].LEFT <- i`. -/
def State.mapNode? (s : State) (i : NodeIdx) (f : Node → Node) : Option State :=
  match s.node? i with
  | some n => s.setNode? i (f n)
  | none => none

/-! ### The code table (R31, R32) -/

theorem byte_lt (s : Byte) : s.toNat < 256 := s.isLt

/-- The code-table entry of the symbol `sym`. -/
def State.entry (s : State) (sym : Byte) : CodeEntry := s.table[sym.toNat]'(byte_lt sym)

/-- The code-table entry of `sym` replaced by `e`. -/
def State.setEntry (s : State) (sym : Byte) (e : CodeEntry) : State :=
  { s with table := s.table.set sym.toNat e (byte_lt sym) }

theorem word_index_lt (j : Byte) : j.toNat / 32 < 8 := by
  have := byte_lt j
  omega

/-- R32: `c_j` of a code-table entry, bit `31 - (j & 31)` of word `j >> 5`. -/
def CodeEntry.codeBit (e : CodeEntry) (j : Byte) : Bool :=
  (e.words[j.toNat / 32]'(word_index_lt j)).getLsbD (31 - j.toNat % 32)

/-- R69: `code(s)`, the bit string `CodeBit(s, 0) ... CodeBit(s, CT_LEN[s] - 1)`. -/
def CodeEntry.code (e : CodeEntry) : List Bool :=
  (List.range e.len.toNat).map fun j => e.codeBit (BitVec.ofNat 8 j)

/-- R93: an entry with `CT_LEN` = 0 and its code bits unchanged. -/
def CodeEntry.clear (e : CodeEntry) : CodeEntry := { e with len := 0 }

/-- R69: the code bits of a symbol sequence. -/
def State.codeBits (s : State) (syms : List Byte) : List Bool := syms.flatMap fun x => (s.entry x).code

/-- R69: `bitstream(S)`. -/
def State.bitstream (s : State) (syms : List Byte) : List Byte := packBits (s.codeBits syms)

/-- R64: `container(T, S)` under this state's configuration and code table, `n` being `|S|`. -/
def State.container (s : State) (t : Tree) (syms : List Byte) (n : Count) : List Byte :=
  treeBytes s.cfg.internalMarker t ++ dec n ++ [s.cfg.separator] ++ s.bitstream syms

/-! ### The configuration (R18) -/

/-- R18: `SEPARATOR` is no ASCII digit and `INTERNAL_MARKER` is not 0x4C. -/
def Cfg.legal (c : Cfg) : Bool := !isDigit c.separator && c.internalMarker != Config.leafMarker

/-- R90: the commands whose acceptance checks the configuration, opcodes 0x01 to 0x04. -/
def usesCfg : Instr → Bool
  | .nop => false
  | .treeWrite => true
  | .treeRead => true
  | .encode => true
  | .decode => true
  | .ctClear => false

/-! ### The halves of a 64-bit value (R47) -/

/-- Bits 31:0, the `_LO` register. -/
def countLo (c : Count) : Word := c.extractLsb' 0 32

/-- Bits 63:32, the `_HI` register. -/
def countHi (c : Count) : Word := c.extractLsb' 32 32

/-- `_HI ++ _LO` (R63). -/
def countOf (hi lo : Word) : Count := hi ++ lo

end Sys2Proof.Machine
end

