-- ==== Sys2Proof/Machine/Ops.lean ====
section
/-! DEFINITION. The shared operations of the pseudocode (spec/00_scope.md R8): `InPop`, `OutPush`, `raise Error`,
`complete`, the command request of spec/43_housekeeping.md R90, and the reset transition. An engine step that must wait is
`none`: "While it waits, the engine has no step" (spec/00_scope.md R9). -/

namespace Sys2Proof.Machine

/-! ### Errors and completion -/

/-- R96: taking an error, the core's exception. It records the cause and abandons the running command; `DONE` stays as it
is. -/
def raiseError (c : Cause) (info : Word) (s : State) : State :=
  { s with
    status := { s.status with err := true, errCode := c.code, errDetail := c.detail }
    errInfo := info
    engine := .idle }

/-- R91: the running command ends without error. -/
def complete (s : State) : State :=
  { s with status := { s.status with done := true }, engine := .idle }

/-- The engine moves to a position. -/
def goto (e : Engine) (s : State) : State := { s with engine := e }

/-! ### Streams -/

/-- R51: the part of the container an `InPop` reads. -/
inductive Phase where
  | tree
  | hdr
  | bits
  | sym
  deriving DecidableEq, Repr

/-- R51: the truncation error of each phase. -/
def Phase.truncation : Phase → Cause
  | .tree => .treeTruncated
  | .hdr => .headerTruncated
  | .bits => .bitstreamEnd
  | .sym => .symbolsEnd

/-- The state after `InPop` took the entry `e` and left `q` in `IN_Q` (R51). -/
def taken (e : InEntry) (q : List InEntry) (s : State) : State :=
  { s with inQ := q, inCount := s.inCount + 1, status := { s.status with inEnded := s.status.inEnded || e.last } }

/-- R51: `InPop(phase)` and then `k` on the byte it took. It raises the phase's truncation error when the input has ended,
and waits while `IN_Q` is empty. -/
def inPop (phase : Phase) (s : State) (k : Byte → State → Option Result) : Option Result :=
  if s.status.inEnded then some (.next (raiseError phase.truncation 0 s))
  else
    match s.inQ with
    | [] => none
    | e :: q => k e.byte (taken e q s)

/-- The state after `OutPush(b)` (R52). -/
def pushed (b : Byte) (s : State) : State :=
  { s with outQ := s.outQ ++ [b], outCount := s.outCount + 1 }

/-- R52: `OutPush(b)` and then `k`. It waits while `OUT_Q` is full. -/
def outPush (b : Byte) (s : State) (k : State → Option Result) : Option Result :=
  if s.outQ.length < s.params.outDepth then k (pushed b s) else none

/-! ### Command requests (R90) -/

/-- The first engine position of each command. -/
def startOf : Instr → Engine
  | .nop => .nop
  | .treeWrite => .treeWrite .start
  | .treeRead => .treeRead .start
  | .encode => .encode .start
  | .decode => .decode .start
  | .ctClear => .ctClear .start

/-- R90: what a request that is not dropped does before its checks. -/
def requestHead (w : Word) (s : State) : State :=
  { s with
    status := { s.status with op := opcodeField w, done := false, inEnded := false }
    inCount := 0
    outCount := 0 }

/-- R90: a request made while a command runs or an error stands is dropped with `REJ`; otherwise `k` goes on. -/
def request (w : Word) (s : State) (k : State → State) : State :=
  if s.busy then s.reject
  else if s.status.err then s.reject
  else k (requestHead w s)

/-- R90: the request of a command that its word stands for. -/
def issue (i : Instr) (s : State) : State :=
  request (encode i) s fun s1 =>
    if usesCfg i && !s1.cfg.legal then raiseError .badConfig (encode i) s1
    else goto (startOf i) s1

/-- R90: the error of a word that stands for no command. -/
def rejectCause : WordReject → Cause
  | .reservedBits => .reservedBits
  | .badOpcode => .badOpcode

/-- R90: the request of a word that stands for no command. -/
def issueIllegal (r : WordReject) (w : Word) (s : State) : State :=
  request w s fun s1 => raiseError (rejectCause r) w s1

/-- R90: the transition of a host write of `w` to `CMD`. -/
def commandRequest (w : Word) (s : State) : State :=
  match decode w with
  | .ok i => issue i s
  | .error r => issueIllegal r w s

/-! ### Reset (R109) -/

/-- R109: the transition of `rst`. It redraws what is unspecified; the parameters and the host's own side stay. -/
def resetCore (s : State) : State :=
  { State.atReset s.params (s.draws + 1) with
    script := s.script
    lead := s.lead
    reads := s.reads
    received := s.received }

end Sys2Proof.Machine
end

