-- ==== Sys2Proof/Machine/TreeCodec.lean ====
section
/-! DEFINITION. The tree codec: `ParseTree` (spec/40_tree_codec.md R75), the engine steps of TREE_READ (R80) and of
TREE_WRITE (R78, R79). Each step makes at most one stream transfer (spec/20_memory.md R54). -/

namespace Sys2Proof.Machine

/-! ### ParseTree (R75) -/

/-- R75: "attach i to its parent", the top of the stack, and the stack that results. -/
def attach (i : NodeIdx) (stk : Stack) (s : State) : Option (State × Stack) :=
  match stk with
  | [] => some (s, [])
  | top :: rest =>
    match top.side with
    | .left => (s.mapNode? top.idx fun n => { n with left := i }).map fun s1 => (s1, { top with side := .right } :: rest)
    | .right => (s.mapNode? top.idx fun n => { n with right := i }).map fun s1 => (s1, rest)

/-- R75: the node `n` takes the next arena index and is attached to its parent; `k` goes on with its index. -/
def newNode (n : Node) (stk : Stack) (s : State) (k : NodeIdx → Stack → State → State) : Result :=
  match s.setNode? s.nodeCount n with
  | none => .fault .noSuchNode
  | some s1 =>
    match attach s.nodeCount stk { s1 with nodeCount := s.nodeCount + 1 } with
    | none => .fault .noSuchNode
    | some (s2, stk2) => .next (k s.nodeCount stk2 s2)

/-- R75: a leaf as `ParseTree` writes it. -/
def parsedLeaf (e sym : Byte) : Node := { leaf := true, edge := e, symbol := sym, left := 0, right := 0 }

/-- R75: an internal node as `ParseTree` writes it, its children not yet attached. -/
def parsedInternal (e : Byte) : Node := { leaf := false, edge := e, symbol := 0, left := 0, right := 0 }

/-- R75: before a node's marker. Arena capacity comes first, then truncation, then the marker's value. -/
def parseMarker (wrap : ParsePos → Engine) (stk : Stack) (s : State) : Option Result :=
  if s.nodeCount = 511 then some (.next (raiseError .arenaOverflow 511 s))
  else
    inPop .tree s fun m s1 =>
      if m ≠ Config.leafMarker ∧ m ≠ s1.cfg.internalMarker then
        some (.next (raiseError .badMarker (m.setWidth 32) s1))
      else some (.next (goto (wrap (.edge stk m)) s1))

/-- R75: after an internal node is attached. Stack capacity is checked here. -/
def pushParent (wrap : ParsePos → Engine) (i : NodeIdx) (stk : Stack) (s : State) : State :=
  if stk.length = Config.maxDepth then raiseError .stackOverflow (i.setWidth 32) s
  else goto (wrap (.marker ({ idx := i, side := .left } :: stk))) s

/-- R75: before a node's edge byte. -/
def parseEdge (wrap : ParsePos → Engine) (stk : Stack) (m : Byte) (s : State) : Option Result :=
  inPop .tree s fun e s1 =>
    if m = Config.leafMarker then some (.next (goto (wrap (.symbol stk e)) s1))
    else some (newNode (parsedInternal e) stk s1 (pushParent wrap))

/-- R75: after a leaf is attached. An empty stack means that "the root's subtree is complete". -/
def afterLeaf (wrap : ParsePos → Engine) (after : Engine) (stk : Stack) (s : State) : State :=
  match stk with
  | [] => goto after s
  | _ :: _ => goto (wrap (.marker stk)) s

/-- R75: before a leaf's symbol byte. -/
def parseSymbol (wrap : ParsePos → Engine) (after : Engine) (stk : Stack) (e : Byte) (s : State) : Option Result :=
  inPop .tree s fun sym s1 =>
    some (newNode (parsedLeaf e sym) stk s1 fun _ stk2 s2 => afterLeaf wrap after stk2 s2)

/-- R75: one engine step of `ParseTree`, for the command whose positions `wrap` makes and which goes on at `after`. -/
def parseStep (wrap : ParsePos → Engine) (after : Engine) (p : ParsePos) (s : State) : Option Result :=
  match p with
  | .marker stk => parseMarker wrap stk s
  | .edge stk m => parseEdge wrap stk m s
  | .symbol stk e => parseSymbol wrap after stk e s

/-- R75: `NODE_COUNT <- 0` and `SP <- 0`, before the root's marker. -/
def parseStart (wrap : ParsePos → Engine) (s : State) : State := goto (wrap (.marker [])) { s with nodeCount := 0 }

/-! ### TREE_READ (R80) -/

/-- R80: one engine step of TREE_READ. -/
def treeReadStep (p : TreeReadPos) (s : State) : Option Result :=
  match p with
  | .start => some (.next (parseStart (fun q => .treeRead (.parse q)) s))
  | .parse q => parseStep (fun q => .treeRead (.parse q)) (.treeRead .finish) q s
  | .finish => some (.next (complete s))

/-! ### TREE_WRITE (R78) -/

/-- R79: a child index above its parent's and below `NODE_COUNT`. -/
def childOk (i c : NodeIdx) (s : State) : Bool := i.toNat < c.toNat && c.toNat < s.nodeCount.toNat

/-- R78: the visit of node `i`. The checks run in the order visits, `LEFT`, `RIGHT`, stack (R99). -/
def treeWriteVisit (i : NodeIdx) (visits : Nat) (stk : Stack) (s : State) : Result :=
  if visits = Config.maxNodes then .next (raiseError .arenaOverflow 511 s)
  else
    match s.node? i with
    | none => .fault .noSuchNode
    | some n =>
      if n.leaf then .next (goto (.treeWrite (.marker n (visits + 1) stk)) s)
      else if !childOk i n.left s then .next (raiseError .badChild (i.setWidth 32) s)
      else if !childOk i n.right s then .next (raiseError .badChild (i.setWidth 32) s)
      else if stk.length = Config.maxDepth then .next (raiseError .stackOverflow (i.setWidth 32) s)
      else .next (goto (.treeWrite (.marker n (visits + 1) stk)) s)

/-- R78: the marker byte of a node. -/
def markerByte (n : Node) (c : Cfg) : Byte := if n.leaf then Config.leafMarker else c.internalMarker

/-- R78: after the edge byte. A leaf goes on to its symbol; an internal node leaves its right subtree pending and goes on to
its left one. -/
def afterEdge (n : Node) (visits : Nat) (stk : Stack) : TreeWritePos :=
  if n.leaf then .symbol n visits stk
  else .visit n.left visits ({ idx := n.right, side := .right } :: stk)

/-- R78: after a leaf's symbol. The walk goes on at the next pending right subtree, or ends when none is left. -/
def afterSymbol (visits : Nat) (stk : Stack) : TreeWritePos :=
  match stk with
  | [] => .finish
  | top :: rest => .visit top.idx visits rest

/-- R78: one engine step of TREE_WRITE. -/
def treeWriteStep (p : TreeWritePos) (s : State) : Option Result :=
  match p with
  | .start =>
    if s.nodeCount = 0 then some (.next (raiseError .emptyArena 0 s))
    else some (.next (goto (.treeWrite (.visit 0 0 [])) s))
  | .visit i visits stk => some (treeWriteVisit i visits stk s)
  | .marker n visits stk =>
    outPush (markerByte n s.cfg) s fun s1 => some (.next (goto (.treeWrite (.edge n visits stk)) s1))
  | .edge n visits stk =>
    outPush n.edge s fun s1 => some (.next (goto (.treeWrite (afterEdge n visits stk)) s1))
  | .symbol n visits stk =>
    outPush n.symbol s fun s1 => some (.next (goto (.treeWrite (afterSymbol visits stk)) s1))
  | .finish => some (.next (complete s))

end Sys2Proof.Machine
end

