-- ==== Sys2Proof/Machine/BitDecoder.lean ====
section
/-! DEFINITION. The bit decoder: the engine steps of DECODE (spec/42_bit_decoder.md R85), with `ParseHeader` (R86) and
`DecodeBody` (R87, R88). -/

namespace Sys2Proof.Machine

/-- R86: `HV * 10 + digit`, computed without wrap. -/
def headerValue (hv : Count) (b : Byte) : Nat := hv.toNat * 10 + digitValue b

/-- R86: one byte of the header. The first non-digit must be the separator; it ends the header. -/
def headerByte (hv : Count) (hd : Nat) (b : Byte) (s : State) : State :=
  if isDigit b then
    if 2 ^ 64 - 1 < headerValue hv b then raiseError .countOverflow (b.setWidth 32) s
    else goto (.decode (.header (BitVec.ofNat 64 (headerValue hv b)) (hd + 1))) s
  else if hd = 0 then raiseError .noDigits (b.setWidth 32) s
  else if b ≠ s.cfg.separator then raiseError .badSeparator (b.setWidth 32) s
  else goto (.decode (.body 0 .empty)) { s with symCount := hv, symsLeft := hv }

/-- R87: the cursor after the bit `CUR[CUR_N - 1]` is read. -/
def cursorAfter (cur : Byte) (curN : Nat) : Cursor := if curN - 1 = 0 then .empty else .bits cur (curN - 1)

/-- R87: the child a bit selects, "descend left if the bit is 1, right if the bit is 0". -/
def childOf (n : Node) (bit : Bool) : NodeIdx := if bit then n.left else n.right

/-- R87, R88: one bit of the walk. A root that is a leaf takes the bit, whatever its value, and emits its symbol. -/
def walkBit (ptr : NodeIdx) (bit : Bool) (cur : Cursor) (s : State) : Result :=
  match s.node? 0 with
  | none => .fault .noSuchNode
  | some root =>
    if root.leaf then .next (goto (.decode (.emit root.symbol ptr cur)) s)
    else
      match s.node? ptr with
      | none => .fault .noSuchNode
      | some n =>
        match s.node? (childOf n bit) with
        | none => .fault .noSuchNode
        | some child =>
          if child.leaf then .next (goto (.decode (.emit child.symbol 0 cur)) s)
          else .next (goto (.decode (.body (childOf n bit) cur)) s)

/-- R87: the head of the bit loop. A byte is taken only when a bit is needed. -/
def decodeBody (ptr : NodeIdx) (cur : Cursor) (s : State) : Option Result :=
  if s.symsLeft = 0 then some (.next (complete s))
  else
    match cur with
    | .empty => inPop .bits s fun b s1 => some (.next (goto (.decode (.body ptr (.bits b 8))) s1))
    | .bits c n => some (walkBit ptr (c.getLsbD (n - 1)) (cursorAfter c n) s)

/-- R85: one engine step of DECODE. -/
def decodeStep (p : DecodePos) (s : State) : Option Result :=
  match p with
  | .start => some (.next (parseStart (fun q => .decode (.parse q)) s))
  | .parse q => parseStep (fun q => .decode (.parse q)) (.decode (.header 0 0)) q s
  | .header hv hd => inPop .hdr s fun b s1 => some (.next (headerByte hv hd b s1))
  | .body ptr cur => decodeBody ptr cur s
  | .emit sym ptr cur =>
    outPush sym s fun s1 => some (.next (goto (.decode (.body ptr cur)) { s1 with symsLeft := s1.symsLeft - 1 }))

end Sys2Proof.Machine
end

