-- ==== Sys2Proof/Machine/BitEncoder.lean ====
section
/-! DEFINITION. The bit encoder: the engine steps of ENCODE (spec/41_bit_encoder.md R82). -/

namespace Sys2Proof.Machine

/-- R82: `((ACC << 1) | bit)[7:0]`. -/
def shiftIn (acc : Byte) (bit : Bool) : Byte := acc <<< 1 ||| (BitVec.ofBool bit).setWidth 8

/-- R82: `(ACC << (8 - ACC_N))[7:0]`. -/
def padByte (acc : Byte) (accN : Nat) : Byte := acc <<< (8 - accN)

/-- R82: after code bit `j` of the symbol `sym`: the next bit, or the next symbol once all `len` are shifted in. -/
def nextBit (sym len j acc : Byte) (accN : Nat) (s : State) : State :=
  if j.toNat + 1 < len.toNat then goto (.encode (.bit sym len (j + 1) acc accN)) s
  else goto (.encode (.symbol acc accN)) { s with symsLeft := s.symsLeft - 1 }

/-- R82: the head of the symbol loop. With no symbol left it pads the final byte (step 4) and ends. -/
def encodeSymbol (acc : Byte) (accN : Nat) (s : State) : Option Result :=
  if s.symsLeft = 0 then
    if accN = 0 then some (.next (complete s))
    else outPush (padByte acc accN) s fun s1 => some (.next (goto (.encode .finish) s1))
  else
    inPop .sym s fun sym s1 =>
      if (s1.entry sym).len = 0 then some (.next (raiseError .missingCode (sym.setWidth 32) s1))
      else some (.next (goto (.encode (.bit sym (s1.entry sym).len 0 acc accN)) s1))

/-- R82: one code bit is shifted in; a full accumulator is flushed next. -/
def encodeBit (sym len j acc : Byte) (accN : Nat) (s : State) : State :=
  if accN + 1 = 8 then goto (.encode (.flush sym len j (shiftIn acc ((s.entry sym).codeBit j)))) s
  else nextBit sym len j (shiftIn acc ((s.entry sym).codeBit j)) (accN + 1) s

/-- R82: one engine step of ENCODE. -/
def encodeStep (p : EncodePos) (s : State) : Option Result :=
  match p with
  | .start => some (.next (goto (.encode (.digits (dec s.symCount))) { s with symsLeft := s.symCount }))
  | .digits (d :: ds) => outPush d s fun s1 => some (.next (goto (.encode (.digits ds)) s1))
  | .digits [] => outPush s.cfg.separator s fun s1 => some (.next (goto (.encode (.symbol 0 0)) s1))
  | .symbol acc accN => encodeSymbol acc accN s
  | .bit sym len j acc accN => some (.next (encodeBit sym len j acc accN s))
  | .flush sym len j acc => outPush acc s fun s1 => some (.next (nextBit sym len j 0 0 s1))
  | .finish => some (.next (complete s))

end Sys2Proof.Machine
end

