-- ==== Sys2Proof/Machine/Housekeeping.lean ====
section
/-! DEFINITION. The engine steps of NOP (spec/43_housekeeping.md R92) and of CT_CLEAR (R93). -/

namespace Sys2Proof.Machine

/-- R92: NOP is `complete()`. -/
def nopStep (s : State) : Option Result := some (.next (complete s))

/-- R93: every `CT_LEN` is 0, the code bits stay. -/
def clearTable (s : State) : State := { s with table := s.table.map CodeEntry.clear }

/-- R93: the 256 writes are one engine step, and completion is one more (R91). -/
def ctClearStep (p : CtClearPos) (s : State) : Option Result :=
  match p with
  | .start => some (.next (goto (.ctClear .finish) (clearTable s)))
  | .finish => some (.next (complete s))

end Sys2Proof.Machine
end

