-- ==== Sys2Proof/Machine/Engine.lean ====
section
/-! DEFINITION. The engine (spec/10_state.md R10): its next step, and a run of steps with no host transition between
(spec/20_memory.md R54, spec/70_reset_and_hazards.md R120). -/

namespace Sys2Proof.Machine

/-- The engine's next step. `none` while it is idle or waits: then it "takes no step" (R9, R108). -/
def engineStep (s : State) : Option Result :=
  match s.engine with
  | .idle => none
  | .nop => nopStep s
  | .treeWrite p => treeWriteStep p s
  | .treeRead p => treeReadStep p s
  | .encode p => encodeStep p s
  | .decode p => decodeStep p s
  | .ctClear p => ctClearStep p s

/-- Up to `n` engine steps, fewer when the engine becomes idle or must wait. -/
def runEngine : Nat → State → Result
  | 0, s => .next s
  | n + 1, s =>
    match engineStep s with
    | none => .next s
    | some (.next s1) => runEngine n s1
    | some (.fault f) => .fault f
    | some (.refused r) => .refused r

end Sys2Proof.Machine
end

