-- ==== Sys2Proof/Machine/Commands.lean ====
section
/-! DEFINITION. The meaning of each command: the host's request of it (spec/43_housekeeping.md R90) and then `lead` engine
steps of its algorithm, fewer when it ends or must wait for the host. `lead` is the schedule's choice, any number from 0
on (spec/70_reset_and_hazards.md R120; notes/assumptions/3.md). -/

namespace Sys2Proof.Machine

/-- NOP: R90, then R92. -/
def execNop (s : State) : Result := runEngine s.lead (issue .nop s)

/-- TREE_WRITE: R90, then R78. -/
def execTreeWrite (s : State) : Result := runEngine s.lead (issue .treeWrite s)

/-- TREE_READ: R90, then R80. -/
def execTreeRead (s : State) : Result := runEngine s.lead (issue .treeRead s)

/-- ENCODE: R90, then R82. -/
def execEncode (s : State) : Result := runEngine s.lead (issue .encode s)

/-- DECODE: R90, then R85. -/
def execDecode (s : State) : Result := runEngine s.lead (issue .decode s)

/-- CT_CLEAR: R90, then R93. -/
def execCtClear (s : State) : Result := runEngine s.lead (issue .ctClear s)

end Sys2Proof.Machine
end

