-- ==== Sys2Proof/Machine/Dispatch.lean ====
section
/-! DEFINITION. The meaning of every command, one arm per constructor of `Instr`. -/

namespace Sys2Proof.Machine

def exec (i : Instr) (s : State) : Host.Outcome State Fault Refusal :=
  match i with
  | .nop => Sys2Proof.Machine.execNop s
  | .treeWrite => Sys2Proof.Machine.execTreeWrite s
  | .treeRead => Sys2Proof.Machine.execTreeRead s
  | .encode => Sys2Proof.Machine.execEncode s
  | .decode => Sys2Proof.Machine.execDecode s
  | .ctClear => Sys2Proof.Machine.execCtClear s

end Sys2Proof.Machine
end

