-- ==== Sys2Proof/Machine/Registers.lean ====
section
/-! DEFINITION. The host register file: the map of spec/10_state.md R13, reads (spec/20_memory.md R42), writes (R43), the
idle-write rule (R44), bad accesses (R45) and the fixed values (R46). -/

namespace Sys2Proof.Machine

/-- R13: the registers of the window. -/
inductive Reg where
  | id
  | cmd
  | status
  | irqEn
  | cfg
  | errInfo
  | inCountLo
  | inCountHi
  | outCountLo
  | outCountHi
  | symCountLo
  | symCountHi
  | symsLeftLo
  | symsLeftHi
  | nodeCount
  | nodeSel
  | nodeA
  | nodeB
  | ctSel
  | ctLen
  | ctWord
  deriving DecidableEq, Repr

/-- R13: the byte offset of each register. -/
def Reg.offset : Reg → Nat
  | .id => 0x00
  | .cmd => 0x04
  | .status => 0x08
  | .irqEn => 0x0C
  | .cfg => 0x10
  | .errInfo => 0x14
  | .inCountLo => 0x18
  | .inCountHi => 0x1C
  | .outCountLo => 0x20
  | .outCountHi => 0x24
  | .symCountLo => 0x28
  | .symCountHi => 0x2C
  | .symsLeftLo => 0x30
  | .symsLeftHi => 0x34
  | .nodeCount => 0x38
  | .nodeSel => 0x3C
  | .nodeA => 0x40
  | .nodeB => 0x44
  | .ctSel => 0x48
  | .ctLen => 0x4C
  | .ctWord => 0x50

/-- The register in the word slot `k` of the window; the slots of 0x54 to 0xFC are reserved (R13). -/
def slotReg : Nat → Option Reg
  | 0 => some .id
  | 1 => some .cmd
  | 2 => some .status
  | 3 => some .irqEn
  | 4 => some .cfg
  | 5 => some .errInfo
  | 6 => some .inCountLo
  | 7 => some .inCountHi
  | 8 => some .outCountLo
  | 9 => some .outCountHi
  | 10 => some .symCountLo
  | 11 => some .symCountHi
  | 12 => some .symsLeftLo
  | 13 => some .symsLeftHi
  | 14 => some .nodeCount
  | 15 => some .nodeSel
  | 16 => some .nodeA
  | 17 => some .nodeB
  | 18 => some .ctSel
  | 19 => some .ctLen
  | 20 => some .ctWord
  | _ => none

/-- The register an access reaches: 32 bits wide, word-aligned, not reserved (R42, R43, R45). -/
def accessReg (off width : Nat) : Option Reg :=
  if width = 32 ∧ off % 4 = 0 then slotReg (off / 4) else none

/-- R44: the IW registers. -/
def Reg.idleWrite : Reg → Bool
  | .cfg => true
  | .symCountLo => true
  | .symCountHi => true
  | .nodeCount => true
  | .nodeA => true
  | .nodeB => true
  | .ctLen => true
  | .ctWord => true
  | _ => false

/-- R45: the registers that are windows on `NODE[NODE_SEL]`. -/
def Reg.nodeWindow : Reg → Bool
  | .nodeA => true
  | .nodeB => true
  | _ => false

/-! ### The field layouts -/

/-- R26: the `NODE_A` word of an entry. -/
def Node.wordA (n : Node) : Word :=
  (0 : BitVec 8) ++ n.symbol ++ n.edge ++ (0 : BitVec 7) ++ BitVec.ofBool n.leaf

/-- R27: the `NODE_B` word of an entry. -/
def Node.wordB (n : Node) : Word := (0 : BitVec 7) ++ n.right ++ (0 : BitVec 7) ++ n.left

/-- R26: a host write of `NODE_A` sets `LEAF`, `EDGE` and `SYMBOL`. -/
def Node.withA (n : Node) (v : Word) : Node :=
  { n with leaf := v.getLsbD 0, edge := v.extractLsb' 8 8, symbol := v.extractLsb' 16 8 }

/-- R27: a host write of `NODE_B` sets `LEFT` and `RIGHT`. -/
def Node.withB (n : Node) (v : Word) : Node :=
  { n with left := v.extractLsb' 0 9, right := v.extractLsb' 16 9 }

/-- R17: the `IRQ_EN` word. -/
def IrqEn.word (e : IrqEn) : Word := (0 : BitVec 30) ++ BitVec.ofBool e.errIe ++ BitVec.ofBool e.doneIe

/-- R18: the `CFG` word. -/
def Cfg.word (c : Cfg) : Word := (0 : BitVec 16) ++ c.internalMarker ++ c.separator

/-- R28: the `CT_SEL` word. -/
def CtSel.asWord (c : CtSel) : Word := (0 : BitVec 21) ++ c.word ++ c.sym

theorem word_sel_lt (w : BitVec 3) : w.toNat < 8 := w.isLt

/-- R29, R30: the code-table entry that `CT_SEL.SYM` addresses. -/
def State.selEntry (s : State) : CodeEntry := s.entry s.ctSel.sym

/-! ### Reads (R42) -/

/-- R42: the current value of a register, reserved bits 0. -/
def regRead (r : Reg) (s : State) : Word :=
  match r with
  | .id => Config.idValue
  | .cmd => 0
  | .status => s.statusWord
  | .irqEn => s.irqEn.word
  | .cfg => s.cfg.word
  | .errInfo => s.errInfo
  | .inCountLo => countLo s.inCount
  | .inCountHi => countHi s.inCount
  | .outCountLo => countLo s.outCount
  | .outCountHi => countHi s.outCount
  | .symCountLo => countLo s.symCount
  | .symCountHi => countHi s.symCount
  | .symsLeftLo => countLo s.symsLeft
  | .symsLeftHi => countHi s.symsLeft
  | .nodeCount => s.nodeCount.setWidth 32
  | .nodeSel => s.nodeSel.setWidth 32
  | .nodeA => match s.node? s.nodeSel with
    | some n => n.wordA
    | none => 0
  | .nodeB => match s.node? s.nodeSel with
    | some n => n.wordB
    | none => 0
  | .ctSel => s.ctSel.asWord
  | .ctLen => s.selEntry.len.setWidth 32
  | .ctWord => s.selEntry.words[s.ctSel.word.toNat]'(word_sel_lt _)

/-- R42, R45: a host read of `width` bits at the byte offset `off`; a bad read returns 0. -/
def busRead (off width : Nat) (s : State) : Word :=
  match accessReg off width with
  | some r => regRead r s
  | none => 0

/-! ### Writes (R43, R44, R45) -/

/-- R25, R45: a write to a window on `NODE[NODE_SEL]`, rejected when `NODE_SEL` names no entry. -/
def writeNodeWindow (f : Node → Node) (s : State) : State :=
  match s.mapNode? s.nodeSel f with
  | some s1 => s1
  | none => s.reject

/-- R29: a write to `CT_LEN`. -/
def writeCtLen (v : Word) (s : State) : State :=
  s.setEntry s.ctSel.sym { s.selEntry with len := v.extractLsb' 0 8 }

/-- R30: a write to `CT_WORD`. -/
def writeCtWord (v : Word) (s : State) : State :=
  s.setEntry s.ctSel.sym
    { s.selEntry with words := s.selEntry.words.set s.ctSel.word.toNat v (word_sel_lt _) }

/-- R43: a host write that is not rejected, field by field. An RO register is unchanged (R13), and so is `ID` (R46). -/
def regApply (r : Reg) (v : Word) (s : State) : State :=
  match r with
  | .id => s
  | .cmd => commandRequest v s
  | .status => s.writeStatus v
  | .irqEn => { s with irqEn := { doneIe := v.getLsbD 0, errIe := v.getLsbD 1 } }
  | .cfg => { s with cfg := { separator := v.extractLsb' 0 8, internalMarker := v.extractLsb' 8 8 } }
  | .errInfo => s
  | .inCountLo => s
  | .inCountHi => s
  | .outCountLo => s
  | .outCountHi => s
  | .symCountLo => { s with symCount := countOf (countHi s.symCount) v }
  | .symCountHi => { s with symCount := countOf v (countLo s.symCount) }
  | .symsLeftLo => s
  | .symsLeftHi => s
  | .nodeCount => { s with nodeCount := v.extractLsb' 0 9 }
  | .nodeSel => { s with nodeSel := v.extractLsb' 0 9 }
  | .nodeA => writeNodeWindow (fun n => n.withA v) s
  | .nodeB => writeNodeWindow (fun n => n.withB v) s
  | .ctSel => { s with ctSel := { sym := v.extractLsb' 0 8, word := v.extractLsb' 8 3 } }
  | .ctLen => writeCtLen v s
  | .ctWord => writeCtWord v s

/-- R43, R44: a host write of `v` to a register. An IW register is rejected while a command runs. -/
def regWrite (r : Reg) (v : Word) (s : State) : State :=
  if r.idleWrite && s.busy then s.reject else regApply r v s

/-- R43, R45: a host write of `width` bits at the byte offset `off`; a bad write sets `REJ`. -/
def busWrite (off width : Nat) (v : Word) (s : State) : State :=
  match accessReg off width with
  | some r => regWrite r v s
  | none => s.reject

/-- R39: the byte offset of a bus address in the register window of 0x100 bytes at `REG_BASE`. -/
def Params.offset? (p : Params) (addr : Nat) : Option Nat :=
  if p.regBase ≤ addr ∧ addr < p.regBase + 0x100 then some (addr - p.regBase) else none

end Sys2Proof.Machine
end

