-- ==== Sys2Proof/Machine/HostTurn.lean ====
section
/-! DEFINITION. One turn of the interleaving of spec/20_memory.md R54: the host's next action, or the engine's progress
while the host has none or waits; and the host-program statements of spec/30_encoding.md R72. -/

namespace Sys2Proof.Machine

/-- R72: the access `MemWrite(offset(r), 4, v)` as the bus sees it. -/
def writeReg (p : Params) (r : Reg) (v : Word) : HostAction := .write (p.regBase + r.offset) 32 v

/-- R72: the access `MemRead(offset(r), 4)` as the bus sees it. -/
def readReg (p : Params) (r : Reg) : HostAction := .read (p.regBase + r.offset) 32

/-- The host's next turn is taken off the script and its engine steps are set. -/
def beginTurn (t : Turn) (rest : List Turn) (s : State) : State := { s with script := rest, lead := t.lead }

/-- A bus write. A write to `CMD` of a word that stands for a command is that command's meaning, `run`; every other write is
one transition, followed by `lead` engine steps. An address outside the window is no access to the core (R40). -/
def writeTurn (run : Instr → State → Result) (addr width : Nat) (v : Word) (s : State) : Result :=
  match s.params.offset? addr with
  | none => runEngine s.lead s
  | some off =>
    match accessReg off width, decode v with
    | some .cmd, .ok i => run i s
    | _, _ => runEngine s.lead (busWrite off width v s)

/-- A bus read: the host gets the value, nothing in the core changes (R42). -/
def readTurn (addr width : Nat) (s : State) : Result :=
  match s.params.offset? addr with
  | none => runEngine s.lead s
  | some off => runEngine s.lead { s with reads := s.reads ++ [busRead off width s] }

/-- R49: the entry joins the tail of `IN_Q`. -/
def enqueue (e : InEntry) (s : State) : State := { s with inQ := s.inQ ++ [e] }

/-- R50: the head byte of `OUT_Q` leaves it for the host. -/
def dequeue (b : Byte) (q : List Byte) (s : State) : State := { s with outQ := q, received := s.received ++ [b] }

/-- R72: the value that a poll of `STATUS` returns. -/
def poll (s : State) : State := { s with reads := s.reads ++ [s.statusWord] }

/-- The turn `t` in the state `s`, whose script still holds it. A `send` waits while `IN_Q` is full and a `recv` while
`OUT_Q` is empty; the engine runs meanwhile (R72), one step a turn. -/
def takeTurn (run : Instr → State → Result) (t : Turn) (rest : List Turn) (s : State) : Result :=
  match t.action with
  | .write addr width v => writeTurn run addr width v (beginTurn t rest s)
  | .read addr width => readTurn addr width (beginTurn t rest s)
  | .send b last =>
    if s.inQ.length < s.params.inDepth then
      runEngine t.lead (enqueue { byte := b, last := last } (beginTurn t rest s))
    else runEngine 1 s
  | .recv =>
    match s.outQ with
    | [] => runEngine 1 s
    | b :: q => runEngine t.lead (dequeue b q (beginTurn t rest s))
  | .waitIdle =>
    if s.busy then runEngine 1 (poll s)
    else runEngine t.lead (poll (beginTurn t rest s))
  | .rst => runEngine t.lead (resetCore (beginTurn t rest s))
  | .pause => runEngine t.lead (beginTurn t rest s)

/-- One step of the machine: the host's next turn, or one engine step when the host has none. -/
def machineStep (run : Instr → State → Result) (s : State) : Result :=
  match s.script with
  | [] => runEngine 1 s
  | t :: rest => takeTurn run t rest s

/-! ### Putting a command where the next step takes it -/

/-- The engine steps that follow a command placed by `State.withFetchWord` (notes/assumptions/5.md). -/
def fetchLead : Nat := 4096

/-- The turn that writes the word of an opcode-table row to `CMD`. -/
def fetchTurn (p : Params) (nbits w : Nat) : Turn :=
  { action := writeReg p .cmd (tableWord nbits w), lead := fetchLead }

/-! ### The statements of R72

`lead` engine steps follow each of the host's actions. -/

/-- R72: `cmd MNEMONIC`. -/
def stmtCmd (p : Params) (i : Instr) : List HostAction := [writeReg p .cmd (encode i)]

/-- R72: `count n`. -/
def stmtCount (p : Params) (n : Count) : List HostAction :=
  [writeReg p .symCountLo (countLo n), writeReg p .symCountHi (countHi n)]

/-- R72: `leaf i, e, s`. -/
def stmtLeaf (p : Params) (i : NodeIdx) (e sym : Byte) : List HostAction :=
  [writeReg p .nodeSel (i.setWidth 32),
    writeReg p .nodeA (sym.setWidth 32 <<< 16 ||| e.setWidth 32 <<< 8 ||| 1),
    writeReg p .nodeB 0]

/-- R72: `inode i, e, l, r`. -/
def stmtInode (p : Params) (i : NodeIdx) (e : Byte) (l r : NodeIdx) : List HostAction :=
  [writeReg p .nodeSel (i.setWidth 32),
    writeReg p .nodeA (e.setWidth 32 <<< 8),
    writeReg p .nodeB (r.setWidth 32 <<< 16 ||| l.setWidth 32)]

/-- R72: `W_w`, with `c_{32w+k}` in bit `31-k` and 0 beyond the code. -/
def codeWord (bits : List Bool) (w : Nat) : Word :=
  (List.range 32).foldl (fun acc k => acc <<< 1 ||| (BitVec.ofBool (bits.getD (32 * w + k) false)).setWidth 32) 0

/-- R72: `code s, "c_0 ... c_{L-1}"`. -/
def stmtCode (p : Params) (sym : Byte) (bits : List Bool) : List HostAction :=
  [writeReg p .ctSel (sym.setWidth 32), writeReg p .ctLen (BitVec.ofNat 32 bits.length)] ++
    (List.range ((bits.length + 31) / 32)).flatMap fun w =>
      [writeReg p .ctSel (BitVec.ofNat 32 w <<< 8 ||| sym.setWidth 32), writeReg p .ctWord (codeWord bits w)]

/-- R72: `sendbytes b_0 ... b_{n-1} [last]`. -/
def stmtSendBytes : List Byte → Bool → List HostAction
  | [], _ => []
  | [b], last => [.send b last]
  | b :: b' :: bs, last => .send b false :: stmtSendBytes (b' :: bs) last

/-- R72: `recv` of `n` bytes. -/
def stmtRecv (n : Nat) : List HostAction := List.replicate n .recv

/-- R72: `ack`, the W1C of `DONE`, `ERR` and `REJ`. -/
def stmtAck (p : Params) : List HostAction := [writeReg p .status 0x0000000E]

/-- A program of R72 as turns, `lead` engine steps after each action. -/
def program (lead : Nat) (as : List HostAction) : List Turn := as.map fun a => { action := a, lead := lead }

end Sys2Proof.Machine
end

