-- ==== Sys2Proof/Machine/Step.lean ====
section
/-! DEFINITION. The machine's step, and the placing of a command word where the next step takes it. -/

namespace Sys2Proof.Machine

/-- One step of the machine. -/
def step (s : State) : Host.Outcome State Fault Refusal := machineStep exec s

/-- `s` with a host write of the word to `CMD` as the host's next action. -/
def State.withFetchWord (s : State) (nbits w : Nat) : State :=
  { s with script := fetchTurn s.params nbits w :: s.script }

end Sys2Proof.Machine
end

