-- ==== Sys2Proof/Safety.lean ====
section
/-! DEFINITION. The terms claims are stated in: when a command request is taken, the states in which a command ends, what
the arena holds, and the invariant of the machine. -/

namespace Sys2Proof.Machine

/-! ### Requests and the ends of commands -/

/-- R90: a command request is not dropped, since no command runs and no error stands. -/
def State.ready (s : State) : Prop := s.busy = false ∧ s.status.err = false

/-- R90, R91: the state after a command of opcode `op` completed: `DONE` set, `IN_ENDED` as given, `nin` bytes taken and
`nout` bytes given since acceptance. -/
def State.finished (s : State) (op : Byte) (ended : Bool) (nin nout : Nat) : State :=
  { s with
    status := { s.status with op := op, done := true, inEnded := ended }
    inCount := BitVec.ofNat 64 nin
    outCount := BitVec.ofNat 64 nout
    engine := .idle }

/-- R90, R96: the state after a request of opcode `op` ended in the error `code`, `detail`, `info`, with no byte moved. -/
def State.refusedWith (s : State) (op : Byte) (code detail : BitVec 4) (info : Word) : State :=
  { s with
    status :=
      { s.status with op := op, done := false, inEnded := false, err := true, errCode := code, errDetail := detail }
    errInfo := info
    inCount := 0
    outCount := 0
    engine := .idle }

/-- R96: the state after the running command ended in an error. -/
def State.failed (s : State) (code detail : BitVec 4) (info : Word) : State :=
  { s with
    status := { s.status with err := true, errCode := code, errDetail := detail }
    errInfo := info
    engine := .idle }

/-- R51: the state after `InPop` took the byte of the entry `e`. -/
def State.took (s : State) (e : InEntry) (q : List InEntry) : State :=
  { s with inQ := q, inCount := s.inCount + 1, status := { s.status with inEnded := s.status.inEnded || e.last } }

/-- R52: the state after `OutPush(b)`. -/
def State.gave (s : State) (b : Byte) : State := { s with outQ := s.outQ ++ [b], outCount := s.outCount + 1 }

/-- The engine at `e`. -/
def State.at (s : State) (e : Engine) : State := { s with engine := e }

/-- R49: an input as the host sends it, `last` on its final byte only. -/
def feed : List Byte → Bool → List InEntry
  | [], _ => []
  | [b], last => [{ byte := b, last := last }]
  | b :: b' :: bs, last => { byte := b, last := false } :: feed (b' :: bs) last

/-! ### What the host's next turn moves -/

/-- R49: the entry that the host's next turn puts into `IN_Q`: one if the turn is a send and there is room. -/
def State.hostSends (s : State) : List InEntry :=
  match s.script with
  | { action := .send b last, .. } :: _ =>
    if s.inQ.length < s.params.inDepth then [{ byte := b, last := last }] else []
  | _ => []

/-- R50: the byte that the host's next turn takes from `OUT_Q`: its head if the turn is a receive and there is one. -/
def State.hostTakes (s : State) : List Byte :=
  match s.script with
  | { action := .recv, .. } :: _ => s.outQ.take 1
  | _ => []

/-- R90: the host's next turn is a command request that is not dropped. -/
def State.takesRequest (s : State) : Prop :=
  s.ready ∧ ∃ w n rest, s.script = { action := .write (s.params.regBase + 0x04) 32 w, lead := n } :: rest

/-! ### Where a running command can wait (R9) -/

/-- R75: the phase of the `InPop` that `ParseTree` makes next. At a node's start a full arena comes first. -/
def parseNeeds (s : State) : ParsePos → Option Phase
  | .marker _ => if s.nodeCount = 511 then none else some .tree
  | .edge _ _ => some .tree
  | .symbol _ _ => some .tree

/-- The phase of the `InPop` that the engine's next step makes, if it makes one (R75, R82, R86, R87). -/
def State.needsInput (s : State) : Option Phase :=
  match s.engine with
  | .treeRead (.parse p) => parseNeeds s p
  | .decode (.parse p) => parseNeeds s p
  | .decode (.header _ _) => some .hdr
  | .decode (.body _ .empty) => if s.symsLeft = 0 then none else some .bits
  | .encode (.symbol _ _) => if s.symsLeft = 0 then none else some .sym
  | _ => none

/-- The byte of the `OutPush` that the engine's next step makes, if it makes one (R78, R82, R87). -/
def State.nextOutput (s : State) : Option Byte :=
  match s.engine with
  | .treeWrite (.marker n _ _) => some (if n.leaf then 0x4C else s.cfg.internalMarker)
  | .treeWrite (.edge n _ _) => some n.edge
  | .treeWrite (.symbol n _ _) => some n.symbol
  | .encode (.digits (d :: _)) => some d
  | .encode (.digits []) => some s.cfg.separator
  | .encode (.symbol acc accN) => if s.symsLeft = 0 ∧ accN ≠ 0 then some (acc <<< (8 - accN)) else none
  | .encode (.flush _ _ _ acc) => some acc
  | .decode (.emit sym _ _) => some sym
  | _ => none

/-! ### Trees in the arena -/

/-- R33, R79: the tree that the arena holds at index `i`, child indices above their parent's and below `NODE_COUNT`. -/
def State.holds (s : State) : Tree → NodeIdx → Prop
  | .leaf e x, i => ∃ n, s.node? i = some n ∧ n.leaf = true ∧ n.edge = e ∧ n.symbol = x
  | .internal e l r, i =>
    ∃ n, s.node? i = some n ∧ n.leaf = false ∧ n.edge = e ∧
      (i.toNat < n.left.toNat ∧ n.left.toNat < s.nodeCount.toNat) ∧
      (i.toNat < n.right.toNat ∧ n.right.toNat < s.nodeCount.toNat) ∧
      s.holds l n.left ∧ s.holds r n.right

/-- R76: the arena holds the tree in pre-order from index `i`, every field as R75 writes it. -/
def layout (a : Vector Node Config.maxNodes) : Tree → Nat → Prop
  | .leaf e x, i => a[i]? = some { leaf := true, edge := e, symbol := x, left := 0, right := 0 }
  | .internal e l r, i =>
    a[i]? = some
      { leaf := false, edge := e, symbol := 0, left := BitVec.ofNat 9 (i + 1), right := BitVec.ofNat 9 (i + 1 + l.size) } ∧
      layout a l (i + 1) ∧ layout a r (i + 1 + l.size)

/-- R5, R77: the trees that the arena and the traversal stack take. -/
def Tree.fits (t : Tree) : Prop := t.size ≤ Config.maxNodes ∧ t.pending ≤ Config.maxDepth

/-! ### The invariant -/

/-- R35: the stack is within its 255 entries and names valid arena entries. -/
def stackOk (s : State) (stk : Stack) : Prop :=
  stk.length ≤ Config.maxDepth ∧ ∀ e ∈ stk, e.idx.toNat < s.nodeCount.toNat

/-- R87: the children of every valid entry are valid entries. -/
def childrenOk (s : State) : Prop :=
  ∀ i n, s.node? i = some n → i.toNat < s.nodeCount.toNat →
    n.left.toNat < s.nodeCount.toNat ∧ n.right.toNat < s.nodeCount.toNat

/-- What holds where `ParseTree` is. -/
def parseOk (s : State) : ParsePos → Prop
  | .marker stk => stackOk s stk ∧ childrenOk s
  | .edge stk _ => stackOk s stk ∧ childrenOk s ∧ s.nodeCount ≠ 511
  | .symbol stk _ => stackOk s stk ∧ childrenOk s ∧ s.nodeCount ≠ 511

/-- What holds of the node TREE_WRITE is writing. -/
def writingOk (s : State) (n : Node) (visits : Nat) (stk : Stack) : Prop :=
  visits ≤ Config.maxNodes ∧ stackOk s stk ∧
    (n.leaf = false →
      stk.length < Config.maxDepth ∧ n.left.toNat < s.nodeCount.toNat ∧ n.right.toNat < s.nodeCount.toNat)

/-- R37: `CUR_N` is 1 to 8 while a byte is held. -/
def Cursor.ok : Cursor → Prop
  | .empty => True
  | .bits _ n => 1 ≤ n ∧ n ≤ 8

/-- R37: the bounds of the engine-internal state at the engine's position. -/
def engineOk (s : State) : Engine → Prop
  | .idle => True
  | .nop => True
  | .ctClear _ => True
  | .treeWrite .start => True
  | .treeWrite (.visit i visits stk) => i.toNat < s.nodeCount.toNat ∧ visits ≤ Config.maxNodes ∧ stackOk s stk
  | .treeWrite (.marker n visits stk) => writingOk s n visits stk
  | .treeWrite (.edge n visits stk) => writingOk s n visits stk
  | .treeWrite (.symbol n visits stk) => writingOk s n visits stk ∧ n.leaf = true
  | .treeWrite .finish => True
  | .treeRead .start => True
  | .treeRead (.parse p) => parseOk s p
  | .treeRead .finish => True
  | .encode .start => True
  | .encode (.digits _) => True
  | .encode (.symbol _ accN) => accN < 8
  | .encode (.bit sym len j _ accN) =>
    accN < 8 ∧ j.toNat < len.toNat ∧ len = (s.entry sym).len ∧ s.symsLeft ≠ 0
  | .encode (.flush sym len j _) => j.toNat < len.toNat ∧ len = (s.entry sym).len ∧ s.symsLeft ≠ 0
  | .encode .finish => s.symsLeft = 0
  | .decode .start => True
  | .decode (.parse p) => parseOk s p
  | .decode (.header _ _) => childrenOk s ∧ s.nodeCount ≠ 0
  | .decode (.body ptr cur) => childrenOk s ∧ ptr.toNat < s.nodeCount.toNat ∧ cur.ok
  | .decode (.emit _ ptr cur) => childrenOk s ∧ ptr.toNat < s.nodeCount.toNat ∧ cur.ok ∧ s.symsLeft ≠ 0

/-- The invariant of the machine. -/
structure Inv (s : State) : Prop where
  /-- R36: `IN_Q` holds at most `IN_DEPTH` entries. -/
  inFits : s.inQ.length ≤ s.params.inDepth
  /-- R36: `OUT_Q` holds at most `OUT_DEPTH` bytes. -/
  outFits : s.outQ.length ≤ s.params.outDepth
  /-- R16: "`DONE` and `ERR` are never both 1". -/
  notBoth : ¬(s.status.done = true ∧ s.status.err = true)
  /-- R16: while a command runs, `DONE` and `ERR` are 0. -/
  busyClean : s.busy = true → s.status.done = false ∧ s.status.err = false
  /-- R16, R19: without `ERR`, the error fields are 0. -/
  noErrZero : s.status.err = false → s.status.errCode = 0 ∧ s.status.errDetail = 0 ∧ s.errInfo = 0
  /-- R94: with `ERR`, the code and the detail are those of a listed cause. -/
  errListed : s.status.err = true → ∃ c : Cause, s.status.errCode = c.code ∧ s.status.errDetail = c.detail
  /-- R44, R90: the configuration of a running command that uses it stays legal. -/
  cfgLegal : ∀ i, s.engine.opr = some i → usesCfg i = true → s.cfg.legal = true
  /-- R37: the bounds of the engine-internal state. -/
  engine : engineOk s s.engine

end Sys2Proof.Machine
end

