-- ==== Sys2Proof/Certificates/Slice0/Obligations.lean ====
section
/-! DEFINITION. The statements about the model, each from the rules of spec/ that its docstring names. -/

open Sys2Proof Sys2Proof.Machine

/-! ### The command word -/

/-- R61: the six words of the opcode table, written out from its table, decode to their commands. -/
def Obligations.TableWordsDecode : Prop :=
  decode 0x00000000 = .ok .nop ∧ decode 0x00000001 = .ok .treeWrite ∧ decode 0x00000002 = .ok .treeRead ∧
    decode 0x00000003 = .ok .encode ∧ decode 0x00000004 = .ok .decode ∧ decode 0x00000005 = .ok .ctClear

/-- R61: "A command is selected by `word == match` with mask 0xFFFFFFFF": decoding and encoding agree in both directions, and
so does the decoder over the word's bytes. -/
def Obligations.DecodeAndEncodeAgree : Prop :=
  (∀ i : Instr, i.wellFormed = true → decode (encode i) = .ok i) ∧
    (∀ (w : Word) (i : Instr), decode w = .ok i ↔ w = encode i) ∧
    ∀ (w : Word) (i : Instr), decodeTableWord 32 w.toNat = some i ↔ w = encode i

/-- R61, R62, R90: a word with a non-zero `RSV` is rejected as RESERVED_BITS whatever its opcode, one with `RSV` = 0 and an
opcode in 0x06..0xFF as BAD_OPCODE, and every other word stands for a command. -/
def Obligations.IllegalWordsRejectedByName : Prop :=
  ∀ w : Word,
    (w.extractLsb' 8 24 ≠ 0 → decode w = .error .reservedBits) ∧
      (w.extractLsb' 8 24 = 0 → 0x06 ≤ (w.extractLsb' 0 8).toNat → decode w = .error .badOpcode) ∧
      (w.extractLsb' 8 24 = 0 → (w.extractLsb' 0 8).toNat ≤ 0x05 → ∃ i, decode w = .ok i ∧ i.opcode = w.extractLsb' 0 8)

/-! ### A step runs the command -/

/-- A step whose turn is a host write to `CMD` of a word that decodes to a command is that command's meaning, with the turn
taken off the script and its engine steps set (R12, R43, R90). Every other host write is its one transition and then the
turn's engine steps (R54). The turns and their engine steps are the model's choice, notes/assumptions/3.md. -/
def Obligations.StepRunsTheDecodedCommand : Prop :=
  ∀ (s : State) (off width : Nat) (w : Word) (n : Nat) (rest : List Turn), off < 0x100 →
    s.script = { action := .write (s.params.regBase + off) width w, lead := n } :: rest →
      (∀ i : Instr, off = 0x04 → width = 32 → decode w = .ok i → step s = exec i { s with script := rest, lead := n }) ∧
      ((off ≠ 0x04 ∨ width ≠ 32 ∨ ∀ i : Instr, decode w ≠ .ok i) →
        step s = runEngine n (busWrite off width w { s with script := rest, lead := n }))

/-- A command placed by `withFetchWord` is the one that the very next step runs (the model's choice,
notes/assumptions/5.md). -/
def Obligations.PlacedCommandRunsNext : Prop :=
  ∀ (s : State) (i : Instr), step (s.withFetchWord 32 (encode i).toNat) = exec i { s with lead := fetchLead }

/-- R62, R90, R94: the request of a word with a non-zero `RSV`, or of an opcode above 0x05, records ILLEGAL_COMMAND with
RESERVED_BITS or BAD_OPCODE and the written word, and runs nothing; every other word requests a command. -/
def Obligations.IllegalRequestRecordsItsCause : Prop :=
  ∀ (s : State) (w : Word), s.ready →
    (w.extractLsb' 8 24 ≠ 0 → busWrite 0x04 32 w s = s.refusedWith (w.extractLsb' 0 8) 5 2 w) ∧
    (w.extractLsb' 8 24 = 0 → 0x05 < (w.extractLsb' 0 8).toNat →
      busWrite 0x04 32 w s = s.refusedWith (w.extractLsb' 0 8) 5 1 w) ∧
    (w.extractLsb' 8 24 = 0 → (w.extractLsb' 0 8).toNat ≤ 0x05 →
      ∃ i : Instr, i.opcode = w.extractLsb' 0 8 ∧ busWrite 0x04 32 w s = issue i s)

/-- R90, R99: a request of any word made while a command runs or an error stands changes nothing but `REJ` (`lead` = 0: no
engine step follows in the same turn); with engine steps following, they are those of the machine with `REJ` set. The turn
and its `lead` are the model's choice, notes/assumptions/3.md. -/
def Obligations.RequestDroppedWhileBusyOrErr : Prop :=
  ∀ s : State, s.busy = true ∨ s.status.err = true →
    (∀ i : Instr, exec i s = runEngine s.lead { s with status := { s.status with rej := true } }) ∧
      (∀ (w : Word) (rest : List Turn),
        s.script = { action := .write (s.params.regBase + 0x04) 32 w, lead := 0 } :: rest →
          step s = .next { s with status := { s.status with rej := true }, script := rest, lead := 0 })

/-- R90: TREE_WRITE, TREE_READ, ENCODE and DECODE check the configuration at acceptance; one that is not legal by R18 is
ILLEGAL_COMMAND / BAD_CONFIG. -/
def Obligations.BadConfigRefusesTheCodecCommands : Prop :=
  ∀ s : State, s.ready →
    ((0x30 ≤ s.cfg.separator.toNat ∧ s.cfg.separator.toNat ≤ 0x39) ∨ s.cfg.internalMarker = 0x4C) →
      exec .treeWrite s = .next (s.refusedWith 0x01 5 3 0x00000001) ∧
        exec .treeRead s = .next (s.refusedWith 0x02 5 3 0x00000002) ∧
        exec .encode s = .next (s.refusedWith 0x03 5 3 0x00000003) ∧
        exec .decode s = .next (s.refusedWith 0x04 5 3 0x00000004)

/-- R56 item 4, R90: "`STATUS.BUSY` is 1 in the transition that accepts a command": with no engine step after it, the
command is the running one and nothing else has moved. `lead`, the engine steps of the turn, is the model's choice,
notes/assumptions/3.md. -/
def Obligations.AcceptanceSetsBusy : Prop :=
  ∀ (s : State) (i : Instr), s.ready → (usesCfg i = true → s.cfg.legal = true) → s.lead = 0 →
    ∃ e : Engine, e.running = true ∧ e.opr = some i ∧
      exec i s =
        .next
          { s with
            status := { s.status with op := i.opcode, done := false, inEnded := false }
            inCount := 0
            outCount := 0
            engine := e }

/-! ### The commands complete -/

/-- R92: NOP completes at once, checks no configuration, takes no stream byte, and leaves everything else unchanged.
`lead`, the engine steps of the turn, is the model's choice, notes/assumptions/3.md. -/
def Obligations.NopCompletes : Prop :=
  ∀ s : State, s.ready → 1 ≤ s.lead → exec .nop s = .next (s.finished 0x00 false 0 0)

/-- R93: CT_CLEAR sets every `CT_LEN` to 0, leaves `CT_BITS` and everything else unchanged, and completes. `lead`, the
engine steps of the turn, is the model's choice, notes/assumptions/3.md. -/
def Obligations.CtClearCompletes : Prop :=
  ∀ s : State, s.ready → 2 ≤ s.lead →
    ∃ tab : Vector CodeEntry 256, exec .ctClear s = .next { s.finished 0x05 false 0 0 with table := tab } ∧
      ∀ k : Fin 256, tab[k].len = 0 ∧ tab[k].words = s.table[k].words

/-- R78: TREE_WRITE pushes exactly `tree_bytes(T)` of the tree unfolded from `NODE[0]` and completes; `OUT_COUNT` counts
the bytes, and everything else is unchanged. `lead` covers the engine's 4 steps a leaf, 3 an internal node and 2 more.
`lead`, the engine steps of the turn, is the model's choice, notes/assumptions/3.md. -/
def Obligations.TreeWriteEmitsTheTree : Prop :=
  ∀ (s : State) (t : Tree), s.ready → s.cfg.legal = true → s.nodeCount ≠ 0 → s.holds t 0 → t.fits →
    s.outQ.length + (treeBytes s.cfg.internalMarker t).length ≤ s.params.outDepth →
    4 * t.leaves + 3 * t.internals + 2 ≤ s.lead →
      exec .treeWrite s =
        .next
          { s.finished 0x01 false 0 (treeBytes s.cfg.internalMarker t).length with
            outQ := s.outQ ++ treeBytes s.cfg.internalMarker t }

/-- R76, R80: TREE_READ of a well-formed tree takes exactly its bytes, builds it in pre-order with `LEFT = i + 1` and
`RIGHT > LEFT`, sets `NODE_COUNT = k + m`, keeps the entries beyond, and completes. `lead`, the engine steps of the
turn, is the model's choice, notes/assumptions/3.md. -/
def Obligations.TreeReadBuildsTheTree : Prop :=
  ∀ (s : State) (t : Tree) (last : Bool) (rest : List InEntry), s.ready → s.cfg.legal = true → t.fits →
    s.inQ = feed (treeBytes s.cfg.internalMarker t) last ++ rest →
    3 * t.leaves + 2 * t.internals + 2 ≤ s.lead →
      ∃ a : Vector Node 511,
        exec .treeRead s =
          .next
            { s.finished 0x02 last (3 * t.leaves + 2 * t.internals) 0 with
              inQ := rest
              nodeCount := BitVec.ofNat 9 t.size
              arena := a } ∧
          layout a t 0 ∧ ∀ j, t.size ≤ j → a[j]? = s.arena[j]?

/-- R83: ENCODE of `N` symbols that all have a code pushes exactly `dec(N) ++ [CFG.SEPARATOR] ++ bitstream(S)`, takes
exactly the symbols, counts `SYMS_LEFT` down to 0 and completes; everything else is unchanged. After `tree_bytes(T)` on the
same output stream this makes `container(T, S)`. `lead` covers the engine steps of the command and is the model's choice,
notes/assumptions/3.md. -/
def Obligations.EncodeEmitsHeaderAndBitstream : Prop :=
  ∀ (s : State) (syms : List Byte) (last : Bool) (rest : List InEntry), s.ready → s.cfg.legal = true →
    s.symCount.toNat = syms.length → s.inQ = feed syms last ++ rest → (∀ x ∈ syms, (s.entry x).len ≠ 0) →
    s.outQ.length + (dec s.symCount).length + 1 + (s.bitstream syms).length ≤ s.params.outDepth →
    (dec s.symCount).length + syms.length + (s.codeBits syms).length + (s.codeBits syms).length / 8 + 4 ≤ s.lead →
      exec .encode s =
        .next
          { s.finished 0x03 (last && !syms.isEmpty) syms.length
              ((dec s.symCount).length + 1 + ((s.codeBits syms).length + 7) / 8) with
            inQ := rest
            outQ := s.outQ ++ (dec s.symCount ++ [s.cfg.separator] ++ s.bitstream syms)
            symsLeft := 0 } ∧
        (s.codeBits syms).length = (syms.map fun x => (s.entry x).len.toNat).sum ∧
        ∀ t : Tree, treeBytes s.cfg.internalMarker t ++ (dec s.symCount ++ [s.cfg.separator] ++ s.bitstream syms) =
          s.container t syms s.symCount

/-- R85, R86, R87, R88: DECODE of a container (a tree, one or more digits with leading zeros allowed, the separator, and
a payload whose bits are the symbols' codes and at most 7 padding bits of any value) emits exactly the symbols, builds
the tree, takes exactly the container's bytes and completes; everything else is unchanged. `lead`, the engine steps of
the turn, is the model's choice, notes/assumptions/3.md. -/
def Obligations.DecodeEmitsTheSymbols : Prop :=
  ∀ (s : State) (t : Tree) (digits payload : List Byte) (coded : List (List Bool × Byte)) (pad : List Bool) (last : Bool)
    (rest : List InEntry), s.ready → s.cfg.legal = true → t.fits →
    digits ≠ [] → (∀ d ∈ digits, 0x30 ≤ d.toNat ∧ d.toNat ≤ 0x39) → digitsValue digits = coded.length →
    coded.length < 2 ^ 64 → (∀ p ∈ coded, t.codes p.1 p.2) →
    bytesBits payload = coded.flatMap Prod.fst ++ pad → pad.length < 8 →
    s.inQ = feed (treeBytes s.cfg.internalMarker t ++ digits ++ [s.cfg.separator] ++ payload) last ++ rest →
    s.outQ.length + coded.length ≤ s.params.outDepth →
    3 * t.leaves + 2 * t.internals + digits.length + payload.length + (coded.flatMap Prod.fst).length +
        coded.length + 3 ≤ s.lead →
      ∃ a : Vector Node 511,
        exec .decode s =
          .next
            { s.finished 0x04 last
                ((treeBytes s.cfg.internalMarker t).length + digits.length + 1 + payload.length) coded.length with
              inQ := rest
              outQ := s.outQ ++ coded.map Prod.snd
              nodeCount := BitVec.ofNat 9 t.size
              arena := a
              symCount := BitVec.ofNat 64 coded.length
              symsLeft := 0 } ∧
          layout a t 0 ∧ ∀ j, t.size ≤ j → a[j]? = s.arena[j]?

/-- R81: TREE_READ of the bytes that TREE_WRITE emitted builds the same tree in pre-order, and TREE_WRITE of that arena
emits the same bytes again. `lead`, the engine steps of the turn, is the model's choice, notes/assumptions/3.md. -/
def Obligations.TreeWriteThenReadGivesTheTree : Prop :=
  ∀ (s : State) (t : Tree), s.ready → s.cfg.legal = true → s.nodeCount ≠ 0 → s.holds t 0 → t.fits →
    s.outQ.length + (treeBytes s.cfg.internalMarker t).length ≤ s.params.outDepth →
    4 * t.leaves + 3 * t.internals + 2 ≤ s.lead →
      ∃ (bs : List Byte) (s' : State), exec .treeWrite s = .next s' ∧ s'.outQ = s.outQ ++ bs ∧ s'.status.done = true ∧
        ∀ (r : State) (last : Bool) (rest : List InEntry), r.ready → r.cfg = s.cfg → r.inQ = feed bs last ++ rest →
          bs.length + 2 ≤ r.lead →
            ∃ r' : State, exec .treeRead r = .next r' ∧ r'.status.done = true ∧ r'.inQ = rest ∧ layout r'.arena t 0 ∧
              ∀ u : State, u.ready → u.cfg = s.cfg → u.arena = r'.arena → u.nodeCount = r'.nodeCount →
                u.outQ.length + bs.length ≤ u.params.outDepth → 4 * t.leaves + 3 * t.internals + 2 ≤ u.lead →
                  ∃ u' : State, exec .treeWrite u = .next u' ∧ u'.outQ = u.outQ ++ bs ∧ u'.status.done = true

/-- R89: round trip. ENCODE with a code table that gives each symbol its root-to-leaf path in `T` (one bit when `T` is one
leaf) completes, and its bytes after `tree_bytes(T)` are `container(T, S)`. DECODE of the container, with `last` on its final
byte and with padding bits of any value, outputs exactly `S`, sets `SYM_COUNT = |S|`, takes exactly the container's bytes and
completes. The `lead`s are the model's choice, notes/assumptions/3.md. -/
def Obligations.EncodeThenDecodeGivesTheInput : Prop :=
  ∀ (s : State) (t : Tree) (syms : List Byte) (last : Bool) (rest : List InEntry), s.ready → s.cfg.legal = true → t.fits →
    s.symCount.toNat = syms.length → s.inQ = feed syms last ++ rest → (∀ x ∈ syms, t.codes (s.entry x).code x) →
    s.outQ.length + (dec s.symCount).length + 1 + (s.bitstream syms).length ≤ s.params.outDepth →
    (dec s.symCount).length + syms.length + (s.codeBits syms).length + (s.codeBits syms).length / 8 + 4 ≤ s.lead →
      ∃ (bs : List Byte) (s' : State), exec .encode s = .next s' ∧ s'.status.done = true ∧ s'.outQ = s.outQ ++ bs ∧
        treeBytes s.cfg.internalMarker t ++ bs = s.container t syms s.symCount ∧
        (∃ pad : List Bool, pad.length < 8 ∧ bytesBits (s.bitstream syms) = s.codeBits syms ++ pad) ∧
        ∀ (r : State) (payload input : List Byte) (pad : List Bool) (more : List InEntry), r.ready → r.cfg = s.cfg →
          bytesBits payload = s.codeBits syms ++ pad → pad.length < 8 →
          input = treeBytes s.cfg.internalMarker t ++ dec s.symCount ++ [s.cfg.separator] ++ payload →
          r.inQ = feed input true ++ more → r.outQ.length + syms.length ≤ r.params.outDepth →
          input.length + (s.codeBits syms).length + syms.length + 2 ≤ r.lead →
            ∃ r' : State, exec .decode r = .next r' ∧ r'.status.done = true ∧ r'.outQ = r.outQ ++ syms ∧
              r'.symCount = s.symCount ∧ r'.inQ = more ∧ r'.inCount = BitVec.ofNat 64 input.length ∧
              input.length = (s.container t syms s.symCount).length

/-! ### Frames (R63) -/

/-- The frame that all six commands share: what the host alone writes, the code words, and the host's own side are
unchanged; `OUT_Q` only grows at its tail and `IN_Q` only loses from its head (R44, R51, R52, R63). -/
def Obligations.CommandsKeepTheHostsRegisters : Prop :=
  ∀ (i : Instr) (s t : State), s.ready → exec i s = .next t →
    t.cfg = s.cfg ∧ t.irqEn = s.irqEn ∧ t.nodeSel = s.nodeSel ∧ t.ctSel = s.ctSel ∧ t.status.rej = s.status.rej ∧
      t.params = s.params ∧ t.draws = s.draws ∧ t.script = s.script ∧ t.lead = s.lead ∧ t.reads = s.reads ∧
      t.received = s.received ∧ (∀ x : Byte, (t.entry x).words = (s.entry x).words) ∧
      (∃ bs, t.outQ = s.outQ ++ bs) ∧ ∃ es, s.inQ = es ++ t.inQ

/-- R63, R78: "TREE_WRITE changes neither the arena, nor `NODE_COUNT`, nor the input stream", nor the counts of symbols,
nor the code table. -/
def Obligations.TreeWriteFrame : Prop :=
  ∀ s t : State, s.ready → exec .treeWrite s = .next t →
    t.arena = s.arena ∧ t.nodeCount = s.nodeCount ∧ t.symCount = s.symCount ∧ t.symsLeft = s.symsLeft ∧
      t.table = s.table ∧ t.inQ = s.inQ ∧ t.inCount = 0 ∧ t.status.inEnded = false

/-- R22, R23, R63, R80: TREE_READ leaves the output stream, the counts of symbols and the code table unchanged; "Entries at
indices `>= NODE_COUNT` keep their earlier contents". -/
def Obligations.TreeReadFrame : Prop :=
  ∀ s t : State, s.ready → exec .treeRead s = .next t →
    t.outQ = s.outQ ∧ t.outCount = 0 ∧ t.symCount = s.symCount ∧ t.symsLeft = s.symsLeft ∧ t.table = s.table ∧
      ∀ j, t.nodeCount.toNat ≤ j → t.arena[j]? = s.arena[j]?

/-- R63, R82: "ENCODE writes no arena entry and no code-table entry", nor `NODE_COUNT`, nor `SYM_COUNT`. -/
def Obligations.EncodeFrame : Prop :=
  ∀ s t : State, s.ready → exec .encode s = .next t →
    t.arena = s.arena ∧ t.nodeCount = s.nodeCount ∧ t.symCount = s.symCount ∧ t.table = s.table

/-- R31, R63, R85: DECODE leaves the code table unchanged, and the arena entries at indices `>= NODE_COUNT`. -/
def Obligations.DecodeFrame : Prop :=
  ∀ s t : State, s.ready → exec .decode s = .next t →
    t.table = s.table ∧ ∀ j, t.nodeCount.toNat ≤ j → t.arena[j]? = s.arena[j]?

/-- R92, R93: NOP and CT_CLEAR take and give no stream byte and change no arena entry and no count of symbols; NOP changes
no code-table entry. -/
def Obligations.HousekeepingFrame : Prop :=
  ∀ (i : Instr) (s t : State), i = .nop ∨ i = .ctClear → s.ready → exec i s = .next t →
    t.arena = s.arena ∧ t.nodeCount = s.nodeCount ∧ t.symCount = s.symCount ∧ t.symsLeft = s.symsLeft ∧
      t.inQ = s.inQ ∧ t.outQ = s.outQ ∧ t.inCount = 0 ∧ t.outCount = 0 ∧ t.status.err = false ∧ t.errInfo = s.errInfo ∧
      (i = .nop → t.table = s.table)

/-- R44: "every configuration value a command reads is constant from its acceptance to its end": no engine step changes
`CFG`, `SYM_COUNT` (but DECODE, whose result it is) or the code table (but CT_CLEAR), TREE_WRITE's arena or `NODE_COUNT`;
and a host write while a command runs changes none of them either. -/
def Obligations.OperandsConstantWhileRunning : Prop :=
  (∀ s t : State, engineStep s = some (.next t) →
    t.cfg = s.cfg ∧
      (s.engine.opr ≠ some .decode → t.symCount = s.symCount) ∧
      (s.engine.opr ≠ some .ctClear → t.table = s.table) ∧
      (s.engine.opr = some .treeWrite → t.arena = s.arena ∧ t.nodeCount = s.nodeCount)) ∧
    ∀ (s : State) (off width : Nat) (v : Word), s.busy = true →
      (busWrite off width v s).cfg = s.cfg ∧ (busWrite off width v s).symCount = s.symCount ∧
        (busWrite off width v s).nodeCount = s.nodeCount ∧ (busWrite off width v s).arena = s.arena ∧
        (busWrite off width v s).table = s.table ∧ (busWrite off width v s).engine = s.engine

/-! ### Streams and waits -/

/-- R9, R108: the engine takes no step exactly when it is idle, or `IN_Q` is empty and the input has not ended where a byte
is needed, or `OUT_Q` is full where a byte is to be pushed. -/
def Obligations.EngineWaitsOnlyAtTheStreams : Prop :=
  ∀ s : State,
    engineStep s = none ↔
      s.busy = false ∨ (s.needsInput.isSome = true ∧ s.status.inEnded = false ∧ s.inQ = []) ∨
        (s.nextOutput.isSome = true ∧ s.params.outDepth ≤ s.outQ.length)

/-- R51: an `InPop` after the input ended raises the truncation error of its phase, takes nothing and ends the command. -/
def Obligations.InputEndedRaisesTruncation : Prop :=
  ∀ s : State, s.status.inEnded = true →
    (s.needsInput = some .tree → engineStep s = some (.next (s.failed 2 2 0))) ∧
      (s.needsInput = some .hdr → engineStep s = some (.next (s.failed 2 5 0))) ∧
      (s.needsInput = some .bits → engineStep s = some (.next (s.failed 3 1 0))) ∧
      (s.needsInput = some .sym → engineStep s = some (.next (s.failed 3 2 0)))

/-- R51, R52, R54: an engine step that ends in a next state moves the byte it needs or pushes, and no other: a byte taken is
the head of `IN_Q`, counted, with its end marker; a byte given goes to the tail of `OUT_Q`, counted. -/
def Obligations.EngineStepMovesAtMostOneByte : Prop :=
  ∀ s t : State, engineStep s = some (.next t) →
    (∀ b, s.nextOutput = some b →
      t.outQ = s.outQ ++ [b] ∧ t.outCount = s.outCount + 1 ∧ s.outQ.length < s.params.outDepth) ∧
    (s.nextOutput = none → t.outQ = s.outQ ∧ t.outCount = s.outCount) ∧
    (s.needsInput.isSome = true → s.status.inEnded = false →
      ∃ e, s.inQ = e :: t.inQ ∧ t.inCount = s.inCount + 1 ∧ t.status.inEnded = e.last) ∧
    (s.needsInput = none ∨ s.status.inEnded = true →
      t.inQ = s.inQ ∧ t.inCount = s.inCount ∧ t.status.inEnded = s.status.inEnded) ∧
    (s.needsInput = none ∨ s.nextOutput = none)

/-- R49, R72: a `send` joins the tail of `IN_Q` when there is room; when `IN_Q` is full it waits and the engine runs.
The turns of `script` are the model's choice, notes/assumptions/3.md. -/
def Obligations.SendEnqueuesOrWaits : Prop :=
  ∀ (s : State) (b : Byte) (last : Bool) (n : Nat) (rest : List Turn),
    s.script = { action := .send b last, lead := n } :: rest →
      (s.inQ.length < s.params.inDepth →
        step s = runEngine n { s with inQ := s.inQ ++ [{ byte := b, last := last }], script := rest, lead := n }) ∧
      (s.params.inDepth ≤ s.inQ.length → step s = runEngine 1 s)

/-- R50, R72: a `recv` takes the head of `OUT_Q` when there is one; when `OUT_Q` is empty it waits and the engine runs.
The turns of `script` are the model's choice, notes/assumptions/3.md. -/
def Obligations.RecvDequeuesOrWaits : Prop :=
  ∀ (s : State) (n : Nat) (rest : List Turn), s.script = { action := .recv, lead := n } :: rest →
    (∀ b q, s.outQ = b :: q →
      step s = runEngine n { s with outQ := q, received := s.received ++ [b], script := rest, lead := n }) ∧
    (s.outQ = [] → step s = runEngine 1 s)

/-- R53: the result of a run does not depend on when the host sends or takes a byte, nor on the FIFO depths: a send or a
receive before a run can be moved after it, and a run goes the same way with deeper FIFOs and any register base. The
numbers of engine steps are the model's choice, notes/assumptions/3.md. -/
def Obligations.TransfersAndDepthsDoNotChangeTheRun : Prop :=
  ∀ (n : Nat) (s t : State), runEngine n s = .next t →
    (∀ e : InEntry, ∃ k ≤ n, ∀ m, runEngine (k + m) { s with inQ := s.inQ ++ [e] } =
      runEngine m { t with inQ := t.inQ ++ [e] }) ∧
    (∀ b q, s.outQ = b :: q → ∃ q' k, t.outQ = b :: q' ∧ k ≤ n ∧ ∀ m,
      runEngine (k + m) { s with outQ := q, received := s.received ++ [b] } =
        runEngine m { t with outQ := q', received := t.received ++ [b] }) ∧
    ∀ p : Params, s.params.outDepth ≤ p.outDepth → ∃ k ≤ n, ∀ m,
      runEngine (k + m) { s with params := p } = runEngine m { t with params := p }

/-- R49 to R52, R97, R101: unless the turn is a reset, a step neither loses, reorders, duplicates nor withdraws a byte. The
host receives what its turn takes from the head of `OUT_Q`, and the bytes `bs` that the engine pushes join the tail. The
entry that the host sends joins the tail of `IN_Q`, and the entries `es` that the engine takes leave from the head. Each of
both is counted: `OUT_COUNT` grows by the length of `bs` and `IN_COUNT` by that of `es`, from 0 if the turn is a request
that is taken (R90). The turns of `script` are the model's choice, notes/assumptions/3.md. -/
def Obligations.NoByteIsLost : Prop :=
  ∀ s t : State, step s = .next t → (∀ n rest, s.script ≠ { action := .rst, lead := n } :: rest) →
    ∃ (bs : List Byte) (es : List InEntry),
      t.received = s.received ++ s.hostTakes ∧ s.hostTakes ++ t.outQ = s.outQ ++ bs ∧
        s.inQ ++ s.hostSends = es ++ t.inQ ∧
        (s.takesRequest → t.outCount = BitVec.ofNat 64 bs.length ∧ t.inCount = BitVec.ofNat 64 es.length) ∧
        (¬s.takesRequest →
          t.outCount = s.outCount + BitVec.ofNat 64 bs.length ∧ t.inCount = s.inCount + BitVec.ofNat 64 es.length)

/-! ### Errors of the algorithms -/

/-- R78: TREE_WRITE of an empty arena is CORRUPT_FORMAT / EMPTY_ARENA, and no byte is pushed. `lead`, the engine steps
of the turn, is the model's choice, notes/assumptions/3.md. -/
def Obligations.TreeWriteOfEmptyArenaFails : Prop :=
  ∀ s : State, s.ready → s.cfg.legal = true → s.nodeCount = 0 → 1 ≤ s.lead →
    exec .treeWrite s = .next (s.refusedWith 0x01 2 9 0)

/-- R78, R79, R99: the checks of TREE_WRITE's visit of node `i`, in their order: visits, `LEFT`, `RIGHT`, stack. A leaf is
checked for visits only. -/
def Obligations.TreeWriteVisitChecks : Prop :=
  ∀ (s : State) (i : NodeIdx) (visits : Nat) (stk : Stack), s.engine = .treeWrite (.visit i visits stk) →
    (visits = 511 → engineStep s = some (.next (s.failed 2 3 511))) ∧
    ∀ n, s.node? i = some n → visits ≠ 511 →
      (n.leaf = true → engineStep s = some (.next (s.at (.treeWrite (.marker n (visits + 1) stk))))) ∧
      (n.leaf = false →
        ¬((i.toNat < n.left.toNat ∧ n.left.toNat < s.nodeCount.toNat) ∧
            (i.toNat < n.right.toNat ∧ n.right.toNat < s.nodeCount.toNat)) →
          engineStep s = some (.next (s.failed 2 10 (i.setWidth 32)))) ∧
      (n.leaf = false → (i.toNat < n.left.toNat ∧ n.left.toNat < s.nodeCount.toNat) →
        (i.toNat < n.right.toNat ∧ n.right.toNat < s.nodeCount.toNat) →
          (stk.length = 255 → engineStep s = some (.next (s.failed 2 4 (i.setWidth 32)))) ∧
          (stk.length ≠ 255 →
            engineStep s = some (.next (s.at (.treeWrite (.marker n (visits + 1) stk))))))

/-- R75: `ParseTree` at the start of a node: a full arena is ARENA_OVERFLOW before its marker is taken, and a marker that is
neither 0x4C nor `CFG.INTERNAL_MARKER` is BAD_MARKER with the marker in `ERR_INFO`. For TREE_READ and for DECODE. -/
def Obligations.ParseTreeMarkerChecks : Prop :=
  ∀ (s : State) (stk : Stack),
    s.engine = .treeRead (.parse (.marker stk)) ∨ s.engine = .decode (.parse (.marker stk)) →
      (s.nodeCount = 511 → engineStep s = some (.next (s.failed 2 3 511))) ∧
      ∀ e q, s.nodeCount ≠ 511 → s.status.inEnded = false → s.inQ = e :: q →
        (e.byte ≠ 0x4C → e.byte ≠ s.cfg.internalMarker →
          engineStep s = some (.next ((s.took e q).failed 2 1 (e.byte.setWidth 32)))) ∧
        (e.byte = 0x4C ∨ e.byte = s.cfg.internalMarker →
          ∃ t, engineStep s = some (.next t) ∧
            (s.engine = .treeRead (.parse (.marker stk)) →
              t = (s.took e q).at (.treeRead (.parse (.edge stk e.byte)))) ∧
            (s.engine = .decode (.parse (.marker stk)) →
              t = (s.took e q).at (.decode (.parse (.edge stk e.byte)))))

/-- R75: an internal node whose attachment leaves 255 pending ancestors is written, attached to its parent and counted, and
then raises STACK_OVERFLOW with its index. For TREE_READ and for DECODE. -/
def Obligations.ParseTreeStackOverflow : Prop :=
  ∀ (s : State) (top : StackEntry) (below : Stack) (m : Byte) (e : InEntry) (q : List InEntry),
    s.engine = .treeRead (.parse (.edge (top :: below) m)) ∨ s.engine = .decode (.parse (.edge (top :: below) m)) →
      m ≠ 0x4C → s.status.inEnded = false → s.inQ = e :: q → s.nodeCount ≠ 511 → stackOk s (top :: below) →
      below.length = 254 → top.side = .left →
        ∃ p t, s.node? top.idx = some p ∧ engineStep s = some (.next t) ∧ t.engine = .idle ∧ t.status.err = true ∧
          t.status.errCode = 2 ∧ t.status.errDetail = 4 ∧ t.errInfo = s.nodeCount.setWidth 32 ∧
          t.nodeCount = s.nodeCount + 1 ∧ t.node? top.idx = some { p with left := s.nodeCount } ∧
          t.node? s.nodeCount = some { leaf := false, edge := e.byte, symbol := 0, left := 0, right := 0 }

/-- R86: one byte of the header: a digit that keeps the value within 2^64 - 1 is counted, one that does not is
COUNT_OVERFLOW, a first byte that is no digit is NO_DIGITS, another terminator than the separator is BAD_SEPARATOR, and the
separator sets `SYM_COUNT` and `SYMS_LEFT`. -/
def Obligations.HeaderByteRules : Prop :=
  ∀ (s : State) (hv : Count) (hd : Nat) (e : InEntry) (q : List InEntry), s.engine = .decode (.header hv hd) →
    s.status.inEnded = false → s.inQ = e :: q →
      (0x30 ≤ e.byte.toNat → e.byte.toNat ≤ 0x39 → 2 ^ 64 - 1 < hv.toNat * 10 + (e.byte.toNat - 0x30) →
        engineStep s = some (.next ((s.took e q).failed 2 7 (e.byte.setWidth 32)))) ∧
      (0x30 ≤ e.byte.toNat → e.byte.toNat ≤ 0x39 → hv.toNat * 10 + (e.byte.toNat - 0x30) ≤ 2 ^ 64 - 1 →
        ∃ v : Count, v.toNat = hv.toNat * 10 + (e.byte.toNat - 0x30) ∧
          engineStep s = some (.next ((s.took e q).at (.decode (.header v (hd + 1)))))) ∧
      (e.byte.toNat < 0x30 ∨ 0x39 < e.byte.toNat →
        (hd = 0 → engineStep s = some (.next ((s.took e q).failed 2 6 (e.byte.setWidth 32)))) ∧
        (hd ≠ 0 → e.byte ≠ s.cfg.separator →
          engineStep s = some (.next ((s.took e q).failed 2 8 (e.byte.setWidth 32)))) ∧
        (hd ≠ 0 → e.byte = s.cfg.separator →
          engineStep s =
            some (.next ({ s.took e q with symCount := hv, symsLeft := hv }.at (.decode (.body 0 .empty))))))

/-- R82: a symbol without a code is MISSING_CODE with the symbol in `ERR_INFO`, after the symbol is taken and before any of
its bits; `SYMS_LEFT` still counts it. -/
def Obligations.SymbolWithoutCodeIsMissingCode : Prop :=
  ∀ (s : State) (acc : Byte) (accN : Nat) (e : InEntry) (q : List InEntry), s.engine = .encode (.symbol acc accN) →
    s.symsLeft ≠ 0 → s.status.inEnded = false → s.inQ = e :: q → (s.entry e.byte).len = 0 →
      engineStep s = some (.next ((s.took e q).failed 4 0 (e.byte.setWidth 32)))

/-- R87: a bit of the walk: 1 selects `LEFT` and 0 selects `RIGHT`; a leaf reached is emitted and the walk starts again at the
root. -/
def Obligations.WalkDescendsLeftOnOne : Prop :=
  ∀ (s : State) (ptr : NodeIdx) (cur : Byte) (k : Nat) (root n child : Node),
    s.engine = .decode (.body ptr (.bits cur (k + 1))) → s.symsLeft ≠ 0 → s.node? 0 = some root → root.leaf = false →
    s.node? ptr = some n → s.node? (if cur.getLsbD k then n.left else n.right) = some child →
      engineStep s =
        some (.next (s.at (.decode
          (if child.leaf then .emit child.symbol 0 (if k = 0 then .empty else .bits cur k)
            else .body (if cur.getLsbD k then n.left else n.right) (if k = 0 then .empty else .bits cur k)))))

/-- R88: with a one-leaf tree a symbol takes exactly one bit, whatever its value, and emits `NODE[0].SYMBOL`. -/
def Obligations.OneLeafTreeTakesOneBitASymbol : Prop :=
  ∀ (s : State) (ptr : NodeIdx) (cur : Byte) (k : Nat) (root : Node),
    s.engine = .decode (.body ptr (.bits cur (k + 1))) → s.symsLeft ≠ 0 → s.node? 0 = some root → root.leaf = true →
      engineStep s =
        some (.next (s.at (.decode (.emit root.symbol ptr (if k = 0 then .empty else .bits cur k)))))

/-- R96, R99 item 5: unless the turn is a reset, a step that ends the running command sets exactly one of `DONE` and
`ERR`. The turns of `script` are the model's choice, notes/assumptions/3.md. -/
def Obligations.RunningCommandEndsInDoneOrErr : Prop :=
  ∀ s t : State, Inv s → s.busy = true → (∀ n rest, s.script ≠ { action := .rst, lead := n } :: rest) →
    step s = .next t → t.busy = false → t.status.done = !t.status.err

/-- R90, R101: an error stands until a host writes 1 to bit 2 of `STATUS` or the core is reset; until then its cause and
information stay, whatever else the host does. The turns of `script` are the model's choice, notes/assumptions/3.md. -/
def Obligations.ErrorStandsUntilAcknowledged : Prop :=
  ∀ s t : State, Inv s → s.status.err = true → step s = .next t →
    (t.status.err = true ∧ t.status.errCode = s.status.errCode ∧ t.status.errDetail = s.status.errDetail ∧
        t.errInfo = s.errInfo ∧ t.busy = false) ∨
      (∃ n rest, s.script = { action := .rst, lead := n } :: rest) ∨
      ∃ v n rest, s.script = { action := .write (s.params.regBase + 0x08) 32 v, lead := n } :: rest ∧
        v.getLsbD 2 = true

/-! ### The host registers -/

/-- R16, R42: a host read of `STATUS` returns its fields, in the layout of R16, bit by bit. -/
def Obligations.StatusWordLayout : Prop :=
  ∀ s : State, busRead 0x08 32 s = s.statusWord ∧ ∀ w : Word, w = busRead 0x08 32 s →
    w.getLsbD 0 = s.busy ∧ w.getLsbD 1 = s.status.done ∧ w.getLsbD 2 = s.status.err ∧ w.getLsbD 3 = s.status.rej ∧
      w.getLsbD 4 = s.status.inEnded ∧ w.extractLsb' 5 3 = 0 ∧ w.extractLsb' 8 4 = s.status.errCode ∧
      w.extractLsb' 12 4 = s.status.errDetail ∧ w.extractLsb' 16 8 = s.status.op ∧ w.extractLsb' 24 8 = 0

/-- R16, R101: a write to `STATUS` is never rejected; it clears `DONE` and `REJ` where `v` has a 1, and with bit 2 it clears
`ERR`, `ERR_CODE`, `ERR_DETAIL` and `ERR_INFO` in the same access; it changes nothing else. -/
def Obligations.StatusWriteIsWriteOneToClear : Prop :=
  ∀ (s : State) (v : Word),
    (busWrite 0x08 32 v s).status.done = (s.status.done && !v.getLsbD 1) ∧
      (busWrite 0x08 32 v s).status.rej = (s.status.rej && !v.getLsbD 3) ∧
      (v.getLsbD 2 = true →
        busWrite 0x08 32 v s =
          { s with
            status :=
              { s.status with
                done := s.status.done && !v.getLsbD 1, rej := s.status.rej && !v.getLsbD 3
                err := false, errCode := 0, errDetail := 0 }
            errInfo := 0 }) ∧
      (v.getLsbD 2 = false →
        busWrite 0x08 32 v s =
          { s with
            status :=
              { s.status with done := s.status.done && !v.getLsbD 1, rej := s.status.rej && !v.getLsbD 3 } })

/-- R13, R17, R18, R22, R24 to R30, R43: with no command running, a write of `v` to an RW register gives its fields their
bits of `v` and changes nothing else, neither `REJ` nor the other half of `SYM_COUNT`; the register then reads back the
bits of its fields and 0 in its reserved bits. `NODE_A` and `NODE_B` are those of entry `NODE_SEL`, `CT_LEN` and `CT_WORD`
those of symbol `SYM` and word `WORD`; every other entry, length and word is unchanged. -/
def Obligations.WrittenRegisterReadsBack : Prop :=
  ∀ (s : State) (v : Word), s.busy = false →
    (busWrite 0x0C 32 v s = { s with irqEn := { doneIe := v.getLsbD 0, errIe := v.getLsbD 1 } } ∧
        busRead 0x0C 32 (busWrite 0x0C 32 v s) = v &&& 0x00000003) ∧
      (busWrite 0x10 32 v s =
          { s with cfg := { separator := v.extractLsb' 0 8, internalMarker := v.extractLsb' 8 8 } } ∧
        busRead 0x10 32 (busWrite 0x10 32 v s) = v &&& 0x0000FFFF) ∧
      (busWrite 0x28 32 v s = { s with symCount := s.symCount.extractLsb' 32 32 ++ v } ∧
        busRead 0x28 32 (busWrite 0x28 32 v s) = v) ∧
      (busWrite 0x2C 32 v s = { s with symCount := v ++ s.symCount.extractLsb' 0 32 } ∧
        busRead 0x2C 32 (busWrite 0x2C 32 v s) = v) ∧
      (busWrite 0x38 32 v s = { s with nodeCount := v.extractLsb' 0 9 } ∧
        busRead 0x38 32 (busWrite 0x38 32 v s) = v &&& 0x000001FF) ∧
      (busWrite 0x3C 32 v s = { s with nodeSel := v.extractLsb' 0 9 } ∧
        busRead 0x3C 32 (busWrite 0x3C 32 v s) = v &&& 0x000001FF) ∧
      (busWrite 0x48 32 v s = { s with ctSel := { sym := v.extractLsb' 0 8, word := v.extractLsb' 8 3 } } ∧
        busRead 0x48 32 (busWrite 0x48 32 v s) = v &&& 0x000007FF) ∧
      (∃ tab : Vector CodeEntry 256, busWrite 0x4C 32 v s = { s with table := tab } ∧
        busRead 0x4C 32 (busWrite 0x4C 32 v s) = v &&& 0x000000FF ∧
        ∀ x : Fin 256, tab[x].words = s.table[x].words ∧
          tab[x].len = if x.val = s.ctSel.sym.toNat then v.extractLsb' 0 8 else s.table[x].len) ∧
      (∃ tab : Vector CodeEntry 256, busWrite 0x50 32 v s = { s with table := tab } ∧
        busRead 0x50 32 (busWrite 0x50 32 v s) = v ∧
        ∀ x : Fin 256, tab[x].len = s.table[x].len ∧ ∀ k : Fin 8,
          tab[x].words[k] =
            if x.val = s.ctSel.sym.toNat ∧ k.val = s.ctSel.word.toNat then v else s.table[x].words[k]) ∧
      (s.nodeSel ≠ 511 →
        (∃ a : Vector Node 511, busWrite 0x40 32 v s = { s with arena := a } ∧
          busRead 0x40 32 (busWrite 0x40 32 v s) = v &&& 0x00FFFF01 ∧
          ∀ i : Fin 511, a[i] = if i.val = s.nodeSel.toNat then
            { s.arena[i] with leaf := v.getLsbD 0, edge := v.extractLsb' 8 8, symbol := v.extractLsb' 16 8 }
            else s.arena[i]) ∧
        ∃ a : Vector Node 511, busWrite 0x44 32 v s = { s with arena := a } ∧
          busRead 0x44 32 (busWrite 0x44 32 v s) = v &&& 0x01FF01FF ∧
          ∀ i : Fin 511, a[i] = if i.val = s.nodeSel.toNat then
            { s.arena[i] with left := v.extractLsb' 0 9, right := v.extractLsb' 16 9 }
            else s.arena[i])

/-- R44, R111: while a command runs, a write to an IW register or to `CMD` is rejected: it changes nothing but `REJ`. Writes
to `STATUS`, `IRQ_EN`, `NODE_SEL` and `CT_SEL` are applied. -/
def Obligations.IdleWriteRegistersRejectWhileBusy : Prop :=
  ∀ (s : State) (v : Word), s.busy = true →
    (∀ off, off = 0x10 ∨ off = 0x28 ∨ off = 0x2C ∨ off = 0x38 ∨ off = 0x40 ∨ off = 0x44 ∨ off = 0x4C ∨ off = 0x50 →
      busWrite off 32 v s = { s with status := { s.status with rej := true } }) ∧
    busWrite 0x04 32 v s = { s with status := { s.status with rej := true } } ∧
    busWrite 0x08 32 v s = s.writeStatus v ∧
    busWrite 0x0C 32 v s = { s with irqEn := { doneIe := v.getLsbD 0, errIe := v.getLsbD 1 } } ∧
    busWrite 0x3C 32 v s = { s with nodeSel := v.extractLsb' 0 9 } ∧
    busWrite 0x48 32 v s = { s with ctSel := { sym := v.extractLsb' 0 8, word := v.extractLsb' 8 3 } }

/-- R13, R14, R15, R46: a write to an RO register or to `ID` is ignored without rejection; `ID` reads 0x48434331 and `CMD`
reads 0 in every state. -/
def Obligations.ReadOnlyRegistersIgnoreWrites : Prop :=
  ∀ (s : State) (v : Word),
    (∀ off, off = 0x00 ∨ off = 0x14 ∨ off = 0x18 ∨ off = 0x1C ∨ off = 0x20 ∨ off = 0x24 ∨ off = 0x30 ∨ off = 0x34 →
      busWrite off 32 v s = s) ∧
    busRead 0x00 32 s = 0x48434331 ∧ busRead 0x04 32 s = 0

/-- R45: a bad access: narrow or misaligned, a write to a reserved offset, or an access to `NODE_A` or `NODE_B` while
`NODE_SEL = 511`. A bad read returns 0; a bad write changes nothing but `REJ`; none stops a running command. -/
def Obligations.BadAccessReadsZeroAndRejects : Prop :=
  ∀ (s : State) (off width : Nat) (v : Word), off < 0x100 →
    (width ≠ 32 ∨ off % 4 ≠ 0 ∨ 0x54 ≤ off ∨ ((off = 0x40 ∨ off = 0x44) ∧ s.nodeSel = 511)) →
      busRead off width s = 0 ∧ busWrite off width v s = { s with status := { s.status with rej := true } }

/-- R42, R55: a host read, good or bad, changes nothing: the host gets the value and the turn is taken. The value read is the
register's current value, assembled from its fields (R17 to R29, R47), whether or not a command runs; `ID` and `CMD` are
those of ReadOnlyRegistersIgnoreWrites, `STATUS` that of StatusWordLayout, `CT_WORD` that of CtWordHoldsTheCodeBits. The
turns of `script` are the model's choice, notes/assumptions/3.md. -/
def Obligations.ReadsHaveNoSideEffect : Prop :=
  (∀ (s : State) (off width : Nat) (rest : List Turn), off < 0x100 →
    s.script = { action := .read (s.params.regBase + off) width, lead := 0 } :: rest →
      step s = .next { s with script := rest, lead := 0, reads := s.reads ++ [busRead off width s] }) ∧
  ∀ s : State,
    busRead 0x0C 32 s = (if s.irqEn.doneIe then 1 else 0) + (if s.irqEn.errIe then 2 else 0) ∧
      busRead 0x10 32 s = s.cfg.separator.setWidth 32 ||| s.cfg.internalMarker.setWidth 32 <<< 8 ∧
      busRead 0x14 32 s = s.errInfo ∧
      busRead 0x18 32 s = s.inCount.extractLsb' 0 32 ∧ busRead 0x1C 32 s = s.inCount.extractLsb' 32 32 ∧
      busRead 0x20 32 s = s.outCount.extractLsb' 0 32 ∧ busRead 0x24 32 s = s.outCount.extractLsb' 32 32 ∧
      busRead 0x28 32 s = s.symCount.extractLsb' 0 32 ∧ busRead 0x2C 32 s = s.symCount.extractLsb' 32 32 ∧
      busRead 0x30 32 s = s.symsLeft.extractLsb' 0 32 ∧ busRead 0x34 32 s = s.symsLeft.extractLsb' 32 32 ∧
      busRead 0x38 32 s = s.nodeCount.setWidth 32 ∧ busRead 0x3C 32 s = s.nodeSel.setWidth 32 ∧
      busRead 0x48 32 s = s.ctSel.sym.setWidth 32 ||| s.ctSel.word.setWidth 32 <<< 8 ∧
      busRead 0x4C 32 s = (s.entry s.ctSel.sym).len.setWidth 32 ∧
      ∀ n : Node, s.node? s.nodeSel = some n →
        busRead 0x40 32 s =
            (if n.leaf then 1 else 0) ||| n.edge.setWidth 32 <<< 8 ||| n.symbol.setWidth 32 <<< 16 ∧
          busRead 0x44 32 s = n.left.setWidth 32 ||| n.right.setWidth 32 <<< 16

/-- R30, R32: bit `31 - k` of `CT_WORD` reads as the code bit `c_{32*WORD + k}` of the selected symbol. With no command
running, a write of `v` to `CT_WORD` makes bit `31 - k` of `v` that code bit, and leaves every other code bit and every code
length unchanged. -/
def Obligations.CtWordHoldsTheCodeBits : Prop :=
  (∀ (s : State) (j : Byte), j.toNat / 32 = s.ctSel.word.toNat →
    (busRead 0x50 32 s).getLsbD (31 - j.toNat % 32) = (s.entry s.ctSel.sym).codeBit j) ∧
  ∀ (s : State) (v : Word), s.busy = false →
    (∀ j : Byte, j.toNat / 32 = s.ctSel.word.toNat →
      ((busWrite 0x50 32 v s).entry s.ctSel.sym).codeBit j = v.getLsbD (31 - j.toNat % 32)) ∧
    (∀ x j : Byte, x ≠ s.ctSel.sym ∨ j.toNat / 32 ≠ s.ctSel.word.toNat →
      ((busWrite 0x50 32 v s).entry x).codeBit j = (s.entry x).codeBit j) ∧
    ∀ x : Byte, ((busWrite 0x50 32 v s).entry x).len = (s.entry x).len

/-- R72, R73: the host's three writes construct a leaf, or an internal node, at the arena index `i`, and leave every other
entry unchanged; `isLeaf()` reads as `NODE_A[0]`. -/
def Obligations.HostWritesConstructNodes : Prop :=
  ∀ (s : State) (i : NodeIdx) (e x : Byte) (l r : NodeIdx), s.busy = false → i ≠ 511 →
    (∀ t, t = busWrite 0x44 32 0 (busWrite 0x40 32 (x.setWidth 32 <<< 16 ||| e.setWidth 32 <<< 8 ||| 1)
        (busWrite 0x3C 32 (i.setWidth 32) s)) →
      t.node? i = some { leaf := true, edge := e, symbol := x, left := 0, right := 0 } ∧
        (busRead 0x40 32 t).getLsbD 0 = true ∧ ∀ j, j ≠ i → t.node? j = s.node? j) ∧
    ∀ t, t = busWrite 0x44 32 (r.setWidth 32 <<< 16 ||| l.setWidth 32) (busWrite 0x40 32 (e.setWidth 32 <<< 8)
        (busWrite 0x3C 32 (i.setWidth 32) s)) →
      t.node? i = some { leaf := false, edge := e, symbol := 0, left := l, right := r } ∧
        (busRead 0x40 32 t).getLsbD 0 = false ∧ ∀ j, j ≠ i → t.node? j = s.node? j

/-- R98: `irq` is `DONE` and `DONE_IE`, or `ERR` and `ERR_IE`. A W1C write to `DONE` or to `ERR` takes that term to 0, and so
does clearing its enable bit; the acceptance of a command clears `DONE`; `REJ` plays no part. -/
def Obligations.IrqFollowsDoneAndErr : Prop :=
  ∀ s : State,
    (s.irq = true ↔
      (s.status.done = true ∧ s.irqEn.doneIe = true) ∨ (s.status.err = true ∧ s.irqEn.errIe = true)) ∧
    (∀ v : Word, v.getLsbD 1 = true → (busWrite 0x08 32 v s).status.done = false ∧
      (busWrite 0x08 32 v s).status.err = (s.status.err && !v.getLsbD 2)) ∧
    (∀ v : Word, v.getLsbD 2 = true → (busWrite 0x08 32 v s).status.err = false ∧
      (busWrite 0x08 32 v s).status.done = (s.status.done && !v.getLsbD 1)) ∧
    (∀ v : Word, v.getLsbD 0 = false → (busWrite 0x0C 32 v s).irq = (s.status.err && v.getLsbD 1)) ∧
    (∀ v : Word, v.getLsbD 1 = false → (busWrite 0x0C 32 v s).irq = (s.status.done && v.getLsbD 0)) ∧
    (∀ i : Instr, s.ready → (issue i s).status.done = false) ∧ s.reject.irq = s.irq

/-- R112, R54: the two words of `OUT_COUNT`, read with no engine step between, make its value. Read as two words while a
command runs they can tear: in some state that meets the invariant, the `_LO` word before an engine step and the `_HI`
word after it make a value that the count had neither before nor after. -/
def Obligations.CountReadsCanTear : Prop :=
  ∃ s t : State, Inv s ∧ s.busy = true ∧ engineStep s = some (.next t) ∧
    countOf (busRead 0x24 32 s) (busRead 0x20 32 s) = s.outCount ∧
    countOf (busRead 0x24 32 t) (busRead 0x20 32 t) = t.outCount ∧
    countOf (busRead 0x24 32 t) (busRead 0x20 32 s) ≠ s.outCount ∧
    countOf (busRead 0x24 32 t) (busRead 0x20 32 s) ≠ t.outCount

/-! ### Reset -/

/-- R109: reset from any state gives every register its reset value, empties the FIFOs, idles the engine and lowers
`irq`. It says nothing of the arena and the code table, which are unspecified. The turns of `script` are the model's
choice, notes/assumptions/3.md. -/
def Obligations.ResetGivesTheResetValues : Prop :=
  ∀ (s : State) (n : Nat) (rest : List Turn), s.script = { action := .rst, lead := n } :: rest →
    ∃ t, step s = .next t ∧ t.inQ = [] ∧ t.outQ = [] ∧ t.engine = .idle ∧ t.irq = false ∧ t.params = s.params ∧
      busRead 0x00 32 t = 0x48434331 ∧ busRead 0x10 32 t = 0x00004920 ∧
      ∀ off, off = 0x04 ∨ off = 0x08 ∨ off = 0x0C ∨ off = 0x14 ∨ off = 0x18 ∨ off = 0x1C ∨ off = 0x20 ∨ off = 0x24 ∨
          off = 0x28 ∨ off = 0x2C ∨ off = 0x30 ∨ off = 0x34 ∨ off = 0x38 ∨ off = 0x3C ∨ off = 0x48 →
        busRead off 32 t = 0

/-! ### The invariant -/

/-- The invariant holds in the state after reset. -/
def Obligations.ResetMeetsTheInvariant : Prop := Inv State.reset

/-- Every step keeps the invariant: the FIFOs within their depths (R36), `DONE` and `ERR` never both 1 and the error fields 0
without `ERR` (R16, R19), only listed causes (R94), a legal configuration under a running codec command (R18, R90), and the
bounds of the engine-internal state (R37). -/
def Obligations.EveryStepKeepsTheInvariant : Prop := ∀ s t : State, Inv s → step s = .next t → Inv t

/-- From a state that meets the invariant no step stops: the one fault of the model, an access to `NODE[511]`, never
happens. -/
def Obligations.NoStepStopsTheMachine : Prop := ∀ s : State, Inv s → ∃ t, step s = .next t

/-! ### The container format -/

/-- R67: `dec(n)` is the shortest decimal text of `n`: 1 to 20 digits, of value `n`, with no leading zero but for 0. -/
def Obligations.DecIsTheShortestDecimalText : Prop :=
  ∀ n : Count,
    1 ≤ (dec n).length ∧ (dec n).length ≤ 20 ∧ (∀ d ∈ dec n, 0x30 ≤ d.toNat ∧ d.toNat ≤ 0x39) ∧
      digitsValue (dec n) = n.toNat ∧ (n = 0 → dec n = [0x30]) ∧ (n ≠ 0 → (dec n).head? ≠ some 0x30)

/-- R66: a tree with `k` leaves and `m` internal nodes serializes to `3k + 2m` bytes, `m = k - 1`, so to `5k - 2` bytes, at
most 1278 with at most 256 leaves. -/
def Obligations.TreeBytesLength : Prop :=
  ∀ (im : Byte) (t : Tree),
    (treeBytes im t).length = 3 * t.leaves + 2 * t.internals ∧ t.leaves = t.internals + 1 ∧
      (treeBytes im t).length + 2 = 5 * t.leaves ∧ (t.leaves ≤ 256 → (treeBytes im t).length ≤ 1278)

/-- R77: every tree with at most 256 leaves fits the arena and the traversal stack. -/
def Obligations.TreesOfTheSourceFit : Prop := ∀ t : Tree, t.leaves ≤ 256 → t.fits

/-- R69: `bitstream(S)` holds the code bits of the symbols, `T` = the sum of their lengths of them, in `ceil(T / 8)` bytes,
the first bit in bit 7 of the first byte, then zeros; `code(s)` is `CodeBit(s, 0)` to `CodeBit(s, CT_LEN[s] - 1)`. -/
def Obligations.PackedBytesHoldTheBits : Prop :=
  ∀ (s : State) (syms : List Byte) (n : Nat), n = (syms.map fun x => (s.entry x).len.toNat).sum →
    (s.codeBits syms).length = n ∧ (s.bitstream syms).length = (n + 7) / 8 ∧
      bytesBits (s.bitstream syms) = s.codeBits syms ++ List.replicate (8 * ((n + 7) / 8) - n) false ∧
      ∀ (x : Byte) (j : Byte), j.toNat < (s.entry x).len.toNat → (s.entry x).code[j.toNat]? = some ((s.entry x).codeBit j)
end

