-- ==== Sys2Proof/Laws/State.lean ====
section
/-! SUPPORT. One lemma per field for each shared update of the state, so that no later proof unfolds a record update. -/

namespace Sys2Proof.Machine

/-! ### reject -/

section
variable (s : State)

@[simp] theorem reject_status_done : s.reject.status.done = s.status.done := rfl
@[simp] theorem reject_status_err : s.reject.status.err = s.status.err := rfl
@[simp] theorem reject_status_rej : s.reject.status.rej = true := rfl
@[simp] theorem reject_status_inEnded : s.reject.status.inEnded = s.status.inEnded := rfl
@[simp] theorem reject_status_errCode : s.reject.status.errCode = s.status.errCode := rfl
@[simp] theorem reject_status_errDetail : s.reject.status.errDetail = s.status.errDetail := rfl
@[simp] theorem reject_status_op : s.reject.status.op = s.status.op := rfl
@[simp] theorem reject_irqEn : s.reject.irqEn = s.irqEn := rfl
@[simp] theorem reject_cfg : s.reject.cfg = s.cfg := rfl
@[simp] theorem reject_errInfo : s.reject.errInfo = s.errInfo := rfl
@[simp] theorem reject_inCount : s.reject.inCount = s.inCount := rfl
@[simp] theorem reject_outCount : s.reject.outCount = s.outCount := rfl
@[simp] theorem reject_symCount : s.reject.symCount = s.symCount := rfl
@[simp] theorem reject_symsLeft : s.reject.symsLeft = s.symsLeft := rfl
@[simp] theorem reject_nodeCount : s.reject.nodeCount = s.nodeCount := rfl
@[simp] theorem reject_nodeSel : s.reject.nodeSel = s.nodeSel := rfl
@[simp] theorem reject_ctSel : s.reject.ctSel = s.ctSel := rfl
@[simp] theorem reject_arena : s.reject.arena = s.arena := rfl
@[simp] theorem reject_table : s.reject.table = s.table := rfl
@[simp] theorem reject_inQ : s.reject.inQ = s.inQ := rfl
@[simp] theorem reject_outQ : s.reject.outQ = s.outQ := rfl
@[simp] theorem reject_engine : s.reject.engine = s.engine := rfl
@[simp] theorem reject_params : s.reject.params = s.params := rfl
@[simp] theorem reject_draws : s.reject.draws = s.draws := rfl
@[simp] theorem reject_script : s.reject.script = s.script := rfl
@[simp] theorem reject_lead : s.reject.lead = s.lead := rfl
@[simp] theorem reject_reads : s.reject.reads = s.reads := rfl
@[simp] theorem reject_received : s.reject.received = s.received := rfl

end

/-! ### acknowledge -/

section
variable (s : State)

@[simp] theorem acknowledge_status_done : s.acknowledge.status.done = s.status.done := rfl
@[simp] theorem acknowledge_status_err : s.acknowledge.status.err = false := rfl
@[simp] theorem acknowledge_status_rej : s.acknowledge.status.rej = s.status.rej := rfl
@[simp] theorem acknowledge_status_inEnded : s.acknowledge.status.inEnded = s.status.inEnded := rfl
@[simp] theorem acknowledge_status_errCode : s.acknowledge.status.errCode = 0 := rfl
@[simp] theorem acknowledge_status_errDetail : s.acknowledge.status.errDetail = 0 := rfl
@[simp] theorem acknowledge_status_op : s.acknowledge.status.op = s.status.op := rfl
@[simp] theorem acknowledge_irqEn : s.acknowledge.irqEn = s.irqEn := rfl
@[simp] theorem acknowledge_cfg : s.acknowledge.cfg = s.cfg := rfl
@[simp] theorem acknowledge_errInfo : s.acknowledge.errInfo = 0 := rfl
@[simp] theorem acknowledge_inCount : s.acknowledge.inCount = s.inCount := rfl
@[simp] theorem acknowledge_outCount : s.acknowledge.outCount = s.outCount := rfl
@[simp] theorem acknowledge_symCount : s.acknowledge.symCount = s.symCount := rfl
@[simp] theorem acknowledge_symsLeft : s.acknowledge.symsLeft = s.symsLeft := rfl
@[simp] theorem acknowledge_nodeCount : s.acknowledge.nodeCount = s.nodeCount := rfl
@[simp] theorem acknowledge_nodeSel : s.acknowledge.nodeSel = s.nodeSel := rfl
@[simp] theorem acknowledge_ctSel : s.acknowledge.ctSel = s.ctSel := rfl
@[simp] theorem acknowledge_arena : s.acknowledge.arena = s.arena := rfl
@[simp] theorem acknowledge_table : s.acknowledge.table = s.table := rfl
@[simp] theorem acknowledge_inQ : s.acknowledge.inQ = s.inQ := rfl
@[simp] theorem acknowledge_outQ : s.acknowledge.outQ = s.outQ := rfl
@[simp] theorem acknowledge_engine : s.acknowledge.engine = s.engine := rfl
@[simp] theorem acknowledge_params : s.acknowledge.params = s.params := rfl
@[simp] theorem acknowledge_draws : s.acknowledge.draws = s.draws := rfl
@[simp] theorem acknowledge_script : s.acknowledge.script = s.script := rfl
@[simp] theorem acknowledge_lead : s.acknowledge.lead = s.lead := rfl
@[simp] theorem acknowledge_reads : s.acknowledge.reads = s.reads := rfl
@[simp] theorem acknowledge_received : s.acknowledge.received = s.received := rfl

end

/-! ### raiseError -/

section
variable (s : State) (c : Cause) (info : Word)

@[simp] theorem raiseError_status_done : (raiseError c info s).status.done = s.status.done := rfl
@[simp] theorem raiseError_status_err : (raiseError c info s).status.err = true := rfl
@[simp] theorem raiseError_status_rej : (raiseError c info s).status.rej = s.status.rej := rfl
@[simp] theorem raiseError_status_inEnded : (raiseError c info s).status.inEnded = s.status.inEnded := rfl
@[simp] theorem raiseError_status_errCode : (raiseError c info s).status.errCode = c.code := rfl
@[simp] theorem raiseError_status_errDetail : (raiseError c info s).status.errDetail = c.detail := rfl
@[simp] theorem raiseError_status_op : (raiseError c info s).status.op = s.status.op := rfl
@[simp] theorem raiseError_irqEn : (raiseError c info s).irqEn = s.irqEn := rfl
@[simp] theorem raiseError_cfg : (raiseError c info s).cfg = s.cfg := rfl
@[simp] theorem raiseError_errInfo : (raiseError c info s).errInfo = info := rfl
@[simp] theorem raiseError_inCount : (raiseError c info s).inCount = s.inCount := rfl
@[simp] theorem raiseError_outCount : (raiseError c info s).outCount = s.outCount := rfl
@[simp] theorem raiseError_symCount : (raiseError c info s).symCount = s.symCount := rfl
@[simp] theorem raiseError_symsLeft : (raiseError c info s).symsLeft = s.symsLeft := rfl
@[simp] theorem raiseError_nodeCount : (raiseError c info s).nodeCount = s.nodeCount := rfl
@[simp] theorem raiseError_nodeSel : (raiseError c info s).nodeSel = s.nodeSel := rfl
@[simp] theorem raiseError_ctSel : (raiseError c info s).ctSel = s.ctSel := rfl
@[simp] theorem raiseError_arena : (raiseError c info s).arena = s.arena := rfl
@[simp] theorem raiseError_table : (raiseError c info s).table = s.table := rfl
@[simp] theorem raiseError_inQ : (raiseError c info s).inQ = s.inQ := rfl
@[simp] theorem raiseError_outQ : (raiseError c info s).outQ = s.outQ := rfl
@[simp] theorem raiseError_engine : (raiseError c info s).engine = .idle := rfl
@[simp] theorem raiseError_params : (raiseError c info s).params = s.params := rfl
@[simp] theorem raiseError_draws : (raiseError c info s).draws = s.draws := rfl
@[simp] theorem raiseError_script : (raiseError c info s).script = s.script := rfl
@[simp] theorem raiseError_lead : (raiseError c info s).lead = s.lead := rfl
@[simp] theorem raiseError_reads : (raiseError c info s).reads = s.reads := rfl
@[simp] theorem raiseError_received : (raiseError c info s).received = s.received := rfl

end

/-! ### complete -/

section
variable (s : State)

@[simp] theorem complete_status_done : (complete s).status.done = true := rfl
@[simp] theorem complete_status_err : (complete s).status.err = s.status.err := rfl
@[simp] theorem complete_status_rej : (complete s).status.rej = s.status.rej := rfl
@[simp] theorem complete_status_inEnded : (complete s).status.inEnded = s.status.inEnded := rfl
@[simp] theorem complete_status_errCode : (complete s).status.errCode = s.status.errCode := rfl
@[simp] theorem complete_status_errDetail : (complete s).status.errDetail = s.status.errDetail := rfl
@[simp] theorem complete_status_op : (complete s).status.op = s.status.op := rfl
@[simp] theorem complete_irqEn : (complete s).irqEn = s.irqEn := rfl
@[simp] theorem complete_cfg : (complete s).cfg = s.cfg := rfl
@[simp] theorem complete_errInfo : (complete s).errInfo = s.errInfo := rfl
@[simp] theorem complete_inCount : (complete s).inCount = s.inCount := rfl
@[simp] theorem complete_outCount : (complete s).outCount = s.outCount := rfl
@[simp] theorem complete_symCount : (complete s).symCount = s.symCount := rfl
@[simp] theorem complete_symsLeft : (complete s).symsLeft = s.symsLeft := rfl
@[simp] theorem complete_nodeCount : (complete s).nodeCount = s.nodeCount := rfl
@[simp] theorem complete_nodeSel : (complete s).nodeSel = s.nodeSel := rfl
@[simp] theorem complete_ctSel : (complete s).ctSel = s.ctSel := rfl
@[simp] theorem complete_arena : (complete s).arena = s.arena := rfl
@[simp] theorem complete_table : (complete s).table = s.table := rfl
@[simp] theorem complete_inQ : (complete s).inQ = s.inQ := rfl
@[simp] theorem complete_outQ : (complete s).outQ = s.outQ := rfl
@[simp] theorem complete_engine : (complete s).engine = .idle := rfl
@[simp] theorem complete_params : (complete s).params = s.params := rfl
@[simp] theorem complete_draws : (complete s).draws = s.draws := rfl
@[simp] theorem complete_script : (complete s).script = s.script := rfl
@[simp] theorem complete_lead : (complete s).lead = s.lead := rfl
@[simp] theorem complete_reads : (complete s).reads = s.reads := rfl
@[simp] theorem complete_received : (complete s).received = s.received := rfl

end

/-! ### goto -/

section
variable (s : State) (e : Engine)

@[simp] theorem goto_status : (goto e s).status = s.status := rfl
@[simp] theorem goto_irqEn : (goto e s).irqEn = s.irqEn := rfl
@[simp] theorem goto_cfg : (goto e s).cfg = s.cfg := rfl
@[simp] theorem goto_errInfo : (goto e s).errInfo = s.errInfo := rfl
@[simp] theorem goto_inCount : (goto e s).inCount = s.inCount := rfl
@[simp] theorem goto_outCount : (goto e s).outCount = s.outCount := rfl
@[simp] theorem goto_symCount : (goto e s).symCount = s.symCount := rfl
@[simp] theorem goto_symsLeft : (goto e s).symsLeft = s.symsLeft := rfl
@[simp] theorem goto_nodeCount : (goto e s).nodeCount = s.nodeCount := rfl
@[simp] theorem goto_nodeSel : (goto e s).nodeSel = s.nodeSel := rfl
@[simp] theorem goto_ctSel : (goto e s).ctSel = s.ctSel := rfl
@[simp] theorem goto_arena : (goto e s).arena = s.arena := rfl
@[simp] theorem goto_table : (goto e s).table = s.table := rfl
@[simp] theorem goto_inQ : (goto e s).inQ = s.inQ := rfl
@[simp] theorem goto_outQ : (goto e s).outQ = s.outQ := rfl
@[simp] theorem goto_engine : (goto e s).engine = e := rfl
@[simp] theorem goto_params : (goto e s).params = s.params := rfl
@[simp] theorem goto_draws : (goto e s).draws = s.draws := rfl
@[simp] theorem goto_script : (goto e s).script = s.script := rfl
@[simp] theorem goto_lead : (goto e s).lead = s.lead := rfl
@[simp] theorem goto_reads : (goto e s).reads = s.reads := rfl
@[simp] theorem goto_received : (goto e s).received = s.received := rfl

end

/-! ### taken -/

section
variable (s : State) (x : InEntry) (q : List InEntry)

@[simp] theorem taken_status_done : (taken x q s).status.done = s.status.done := rfl
@[simp] theorem taken_status_err : (taken x q s).status.err = s.status.err := rfl
@[simp] theorem taken_status_rej : (taken x q s).status.rej = s.status.rej := rfl
@[simp] theorem taken_status_inEnded : (taken x q s).status.inEnded = (s.status.inEnded || x.last) := rfl
@[simp] theorem taken_status_errCode : (taken x q s).status.errCode = s.status.errCode := rfl
@[simp] theorem taken_status_errDetail : (taken x q s).status.errDetail = s.status.errDetail := rfl
@[simp] theorem taken_status_op : (taken x q s).status.op = s.status.op := rfl
@[simp] theorem taken_irqEn : (taken x q s).irqEn = s.irqEn := rfl
@[simp] theorem taken_cfg : (taken x q s).cfg = s.cfg := rfl
@[simp] theorem taken_errInfo : (taken x q s).errInfo = s.errInfo := rfl
@[simp] theorem taken_inCount : (taken x q s).inCount = s.inCount + 1 := rfl
@[simp] theorem taken_outCount : (taken x q s).outCount = s.outCount := rfl
@[simp] theorem taken_symCount : (taken x q s).symCount = s.symCount := rfl
@[simp] theorem taken_symsLeft : (taken x q s).symsLeft = s.symsLeft := rfl
@[simp] theorem taken_nodeCount : (taken x q s).nodeCount = s.nodeCount := rfl
@[simp] theorem taken_nodeSel : (taken x q s).nodeSel = s.nodeSel := rfl
@[simp] theorem taken_ctSel : (taken x q s).ctSel = s.ctSel := rfl
@[simp] theorem taken_arena : (taken x q s).arena = s.arena := rfl
@[simp] theorem taken_table : (taken x q s).table = s.table := rfl
@[simp] theorem taken_inQ : (taken x q s).inQ = q := rfl
@[simp] theorem taken_outQ : (taken x q s).outQ = s.outQ := rfl
@[simp] theorem taken_engine : (taken x q s).engine = s.engine := rfl
@[simp] theorem taken_params : (taken x q s).params = s.params := rfl
@[simp] theorem taken_draws : (taken x q s).draws = s.draws := rfl
@[simp] theorem taken_script : (taken x q s).script = s.script := rfl
@[simp] theorem taken_lead : (taken x q s).lead = s.lead := rfl
@[simp] theorem taken_reads : (taken x q s).reads = s.reads := rfl
@[simp] theorem taken_received : (taken x q s).received = s.received := rfl

end

/-! ### pushed -/

section
variable (s : State) (b : Byte)

@[simp] theorem pushed_status : (pushed b s).status = s.status := rfl
@[simp] theorem pushed_irqEn : (pushed b s).irqEn = s.irqEn := rfl
@[simp] theorem pushed_cfg : (pushed b s).cfg = s.cfg := rfl
@[simp] theorem pushed_errInfo : (pushed b s).errInfo = s.errInfo := rfl
@[simp] theorem pushed_inCount : (pushed b s).inCount = s.inCount := rfl
@[simp] theorem pushed_outCount : (pushed b s).outCount = s.outCount + 1 := rfl
@[simp] theorem pushed_symCount : (pushed b s).symCount = s.symCount := rfl
@[simp] theorem pushed_symsLeft : (pushed b s).symsLeft = s.symsLeft := rfl
@[simp] theorem pushed_nodeCount : (pushed b s).nodeCount = s.nodeCount := rfl
@[simp] theorem pushed_nodeSel : (pushed b s).nodeSel = s.nodeSel := rfl
@[simp] theorem pushed_ctSel : (pushed b s).ctSel = s.ctSel := rfl
@[simp] theorem pushed_arena : (pushed b s).arena = s.arena := rfl
@[simp] theorem pushed_table : (pushed b s).table = s.table := rfl
@[simp] theorem pushed_inQ : (pushed b s).inQ = s.inQ := rfl
@[simp] theorem pushed_outQ : (pushed b s).outQ = s.outQ ++ [b] := rfl
@[simp] theorem pushed_engine : (pushed b s).engine = s.engine := rfl
@[simp] theorem pushed_params : (pushed b s).params = s.params := rfl
@[simp] theorem pushed_draws : (pushed b s).draws = s.draws := rfl
@[simp] theorem pushed_script : (pushed b s).script = s.script := rfl
@[simp] theorem pushed_lead : (pushed b s).lead = s.lead := rfl
@[simp] theorem pushed_reads : (pushed b s).reads = s.reads := rfl
@[simp] theorem pushed_received : (pushed b s).received = s.received := rfl

end

/-! ### requestHead -/

section
variable (s : State) (w : Word)

@[simp] theorem requestHead_status_done : (requestHead w s).status.done = false := rfl
@[simp] theorem requestHead_status_err : (requestHead w s).status.err = s.status.err := rfl
@[simp] theorem requestHead_status_rej : (requestHead w s).status.rej = s.status.rej := rfl
@[simp] theorem requestHead_status_inEnded : (requestHead w s).status.inEnded = false := rfl
@[simp] theorem requestHead_status_errCode : (requestHead w s).status.errCode = s.status.errCode := rfl
@[simp] theorem requestHead_status_errDetail : (requestHead w s).status.errDetail = s.status.errDetail := rfl
@[simp] theorem requestHead_status_op : (requestHead w s).status.op = opcodeField w := rfl
@[simp] theorem requestHead_irqEn : (requestHead w s).irqEn = s.irqEn := rfl
@[simp] theorem requestHead_cfg : (requestHead w s).cfg = s.cfg := rfl
@[simp] theorem requestHead_errInfo : (requestHead w s).errInfo = s.errInfo := rfl
@[simp] theorem requestHead_inCount : (requestHead w s).inCount = 0 := rfl
@[simp] theorem requestHead_outCount : (requestHead w s).outCount = 0 := rfl
@[simp] theorem requestHead_symCount : (requestHead w s).symCount = s.symCount := rfl
@[simp] theorem requestHead_symsLeft : (requestHead w s).symsLeft = s.symsLeft := rfl
@[simp] theorem requestHead_nodeCount : (requestHead w s).nodeCount = s.nodeCount := rfl
@[simp] theorem requestHead_nodeSel : (requestHead w s).nodeSel = s.nodeSel := rfl
@[simp] theorem requestHead_ctSel : (requestHead w s).ctSel = s.ctSel := rfl
@[simp] theorem requestHead_arena : (requestHead w s).arena = s.arena := rfl
@[simp] theorem requestHead_table : (requestHead w s).table = s.table := rfl
@[simp] theorem requestHead_inQ : (requestHead w s).inQ = s.inQ := rfl
@[simp] theorem requestHead_outQ : (requestHead w s).outQ = s.outQ := rfl
@[simp] theorem requestHead_engine : (requestHead w s).engine = s.engine := rfl
@[simp] theorem requestHead_params : (requestHead w s).params = s.params := rfl
@[simp] theorem requestHead_draws : (requestHead w s).draws = s.draws := rfl
@[simp] theorem requestHead_script : (requestHead w s).script = s.script := rfl
@[simp] theorem requestHead_lead : (requestHead w s).lead = s.lead := rfl
@[simp] theorem requestHead_reads : (requestHead w s).reads = s.reads := rfl
@[simp] theorem requestHead_received : (requestHead w s).received = s.received := rfl

end

/-! ### beginTurn -/

section
variable (s : State) (t : Turn) (rest : List Turn)

@[simp] theorem beginTurn_status : (beginTurn t rest s).status = s.status := rfl
@[simp] theorem beginTurn_irqEn : (beginTurn t rest s).irqEn = s.irqEn := rfl
@[simp] theorem beginTurn_cfg : (beginTurn t rest s).cfg = s.cfg := rfl
@[simp] theorem beginTurn_errInfo : (beginTurn t rest s).errInfo = s.errInfo := rfl
@[simp] theorem beginTurn_inCount : (beginTurn t rest s).inCount = s.inCount := rfl
@[simp] theorem beginTurn_outCount : (beginTurn t rest s).outCount = s.outCount := rfl
@[simp] theorem beginTurn_symCount : (beginTurn t rest s).symCount = s.symCount := rfl
@[simp] theorem beginTurn_symsLeft : (beginTurn t rest s).symsLeft = s.symsLeft := rfl
@[simp] theorem beginTurn_nodeCount : (beginTurn t rest s).nodeCount = s.nodeCount := rfl
@[simp] theorem beginTurn_nodeSel : (beginTurn t rest s).nodeSel = s.nodeSel := rfl
@[simp] theorem beginTurn_ctSel : (beginTurn t rest s).ctSel = s.ctSel := rfl
@[simp] theorem beginTurn_arena : (beginTurn t rest s).arena = s.arena := rfl
@[simp] theorem beginTurn_table : (beginTurn t rest s).table = s.table := rfl
@[simp] theorem beginTurn_inQ : (beginTurn t rest s).inQ = s.inQ := rfl
@[simp] theorem beginTurn_outQ : (beginTurn t rest s).outQ = s.outQ := rfl
@[simp] theorem beginTurn_engine : (beginTurn t rest s).engine = s.engine := rfl
@[simp] theorem beginTurn_params : (beginTurn t rest s).params = s.params := rfl
@[simp] theorem beginTurn_draws : (beginTurn t rest s).draws = s.draws := rfl
@[simp] theorem beginTurn_script : (beginTurn t rest s).script = rest := rfl
@[simp] theorem beginTurn_lead : (beginTurn t rest s).lead = t.lead := rfl
@[simp] theorem beginTurn_reads : (beginTurn t rest s).reads = s.reads := rfl
@[simp] theorem beginTurn_received : (beginTurn t rest s).received = s.received := rfl

end

end Sys2Proof.Machine
end

