-- ==== Sys2Proof/Laws/Ops.lean ====
section
/-! SUPPORT. What each shared operation of the machine can do, said once: arena and code-table accesses, `InPop`, `OutPush`,
the command request and a run of engine steps. -/

namespace Sys2Proof.Machine

/-! ### The sizes (R5) -/

@[simp] theorem maxNodes_eq : Config.maxNodes = 511 := rfl

@[simp] theorem maxDepth_eq : Config.maxDepth = 255 := rfl

@[simp] theorem numSymbols_eq : Config.numSymbols = 256 := rfl

/-! ### The arena -/

theorem node?_eq_some {s : State} {i : NodeIdx} {n : Node} :
    s.node? i = some n ↔ ∃ h : i.toNat < 511, s.arena[i.toNat] = n := by
  unfold State.node?
  exact Vector.getElem?_eq_some_iff

theorem node?_of_lt (s : State) {i : NodeIdx} (h : i.toNat < 511) : s.node? i = some s.arena[i.toNat] :=
  node?_eq_some.mpr ⟨h, rfl⟩

/-- Only index 511 names no entry (R25). -/
theorem node?_eq_none {s : State} {i : NodeIdx} : s.node? i = none ↔ i = 511 := by
  unfold State.node?
  rw [Vector.getElem?_eq_none_iff, maxNodes_eq]
  have := i.isLt
  constructor
  · intro h
    apply BitVec.eq_of_toNat_eq
    show i.toNat = 511
    omega
  · rintro rfl
    decide

theorem node?_congr {s t : State} (h : t.arena = s.arena) (i : NodeIdx) : t.node? i = s.node? i := by
  unfold State.node?
  rw [h]

theorem setNode?_eq_some {s t : State} {i : NodeIdx} {n : Node} :
    s.setNode? i n = some t ↔ ∃ h : i.toNat < 511, t = { s with arena := s.arena.set i.toNat n } := by
  unfold State.setNode?
  split
  · rename_i h
    constructor
    · intro e
      exact ⟨h, (Option.some.inj e).symm⟩
    · rintro ⟨_, rfl⟩
      rfl
  · rename_i h
    constructor
    · intro e
      cases e
    · rintro ⟨h', _⟩
      exact absurd h' h

theorem setNode?_of_lt (s : State) {i : NodeIdx} (n : Node) (h : i.toNat < 511) :
    s.setNode? i n = some { s with arena := s.arena.set i.toNat n } :=
  setNode?_eq_some.mpr ⟨h, rfl⟩

/-- A write changes its own entry and leaves every other one alone. -/
theorem node?_of_setNode? {s t : State} {i : NodeIdx} {n : Node} (h : s.setNode? i n = some t) (j : NodeIdx) :
    t.node? j = if i = j then some n else s.node? j := by
  obtain ⟨hi, rfl⟩ := setNode?_eq_some.mp h
  unfold State.node?
  rw [Vector.getElem?_set]
  by_cases hij : i = j
  · subst hij
    simp
  · have : i.toNat ≠ j.toNat := fun e => hij (BitVec.eq_of_toNat_eq e)
    simp [hij, this]

theorem mapNode?_eq_some {s t : State} {i : NodeIdx} {f : Node → Node} :
    s.mapNode? i f = some t ↔ ∃ n, s.node? i = some n ∧ s.setNode? i (f n) = some t := by
  unfold State.mapNode?
  cases s.node? i <;> simp

theorem mapNode?_of_lt (s : State) {i : NodeIdx} (f : Node → Node) (h : i.toNat < 511) :
    s.mapNode? i f = some { s with arena := s.arena.set i.toNat (f s.arena[i.toNat]) } :=
  mapNode?_eq_some.mpr ⟨_, node?_of_lt s h, setNode?_of_lt s _ h⟩

/-! ### The code table -/

@[simp] theorem entry_setEntry_same (s : State) (x : Byte) (e : CodeEntry) : (s.setEntry x e).entry x = e := by
  simp [State.entry, State.setEntry]

theorem entry_setEntry_ne (s : State) {x y : Byte} (e : CodeEntry) (h : x ≠ y) :
    (s.setEntry x e).entry y = s.entry y := by
  have : x.toNat ≠ y.toNat := fun e => h (BitVec.eq_of_toNat_eq e)
  simp [State.entry, State.setEntry, this]

theorem entry_congr {s t : State} (h : t.table = s.table) (x : Byte) : t.entry x = s.entry x := by
  unfold State.entry
  simp only [h]

@[simp] theorem entry_clearTable (s : State) (x : Byte) : (clearTable s).entry x = (s.entry x).clear := by
  simp [State.entry, clearTable]

/-! ### InPop and OutPush -/

/-- R51: the input has ended. -/
theorem inPop_ended {s : State} (h : s.status.inEnded = true) (p : Phase) (k : Byte → State → Option Result) :
    inPop p s k = some (.next (raiseError p.truncation 0 s)) := by
  simp [inPop, h]

/-- R51: a wait. -/
theorem inPop_empty {s : State} (h : s.status.inEnded = false) (hq : s.inQ = []) (p : Phase)
    (k : Byte → State → Option Result) : inPop p s k = none := by
  simp [inPop, h, hq]

/-- R51: a byte is taken. -/
theorem inPop_cons {s : State} {e : InEntry} {q : List InEntry} (h : s.status.inEnded = false) (hq : s.inQ = e :: q)
    (p : Phase) (k : Byte → State → Option Result) : inPop p s k = k e.byte (taken e q s) := by
  simp [inPop, h, hq]

/-- Everything `InPop` can answer. -/
theorem inPop_some {p : Phase} {s : State} {k : Byte → State → Option Result} {r : Result} (h : inPop p s k = some r) :
    (s.status.inEnded = true ∧ r = .next (raiseError p.truncation 0 s)) ∨
      ∃ e q, s.status.inEnded = false ∧ s.inQ = e :: q ∧ k e.byte (taken e q s) = some r := by
  cases he : s.status.inEnded with
  | true =>
    rw [inPop_ended he] at h
    exact .inl ⟨rfl, (Option.some.inj h).symm⟩
  | false =>
    cases hq : s.inQ with
    | nil => rw [inPop_empty he hq] at h; cases h
    | cons e q => rw [inPop_cons he hq] at h; exact .inr ⟨e, q, rfl, rfl, h⟩

/-- R52: there is room. -/
theorem outPush_room {s : State} (h : s.outQ.length < s.params.outDepth) (b : Byte) (k : State → Option Result) :
    outPush b s k = k (pushed b s) := by
  simp [outPush, h]

/-- R52: a wait. -/
theorem outPush_full {s : State} (h : s.params.outDepth ≤ s.outQ.length) (b : Byte) (k : State → Option Result) :
    outPush b s k = none := by
  simp [outPush, Nat.not_lt.mpr h]

/-- Everything `OutPush` can answer. -/
theorem outPush_some {b : Byte} {s : State} {k : State → Option Result} {r : Result} (h : outPush b s k = some r) :
    s.outQ.length < s.params.outDepth ∧ k (pushed b s) = some r := by
  unfold outPush at h
  split at h
  · exact ⟨‹_›, h⟩
  · cases h

/-! ### Attaching a node to its parent (R75) -/

/-- Everything `attach` can answer. -/
theorem attach_some {i : NodeIdx} {stk stk' : Stack} {s t : State} (h : attach i stk s = some (t, stk')) :
    (stk = [] ∧ stk' = [] ∧ t = s) ∨
      ∃ top rest, stk = top :: rest ∧
        ((top.side = .left ∧ stk' = { top with side := .right } :: rest ∧
            s.mapNode? top.idx (fun n => { n with left := i }) = some t) ∨
          (top.side = .right ∧ stk' = rest ∧ s.mapNode? top.idx (fun n => { n with right := i }) = some t)) := by
  cases stk with
  | nil =>
    simp only [attach, Option.some.injEq, Prod.mk.injEq] at h
    exact .inl ⟨rfl, h.2.symm, h.1.symm⟩
  | cons top rest =>
    refine .inr ⟨top, rest, rfl, ?_⟩
    unfold attach at h
    cases hs : top.side <;> simp only [hs, Option.map_eq_some_iff, Prod.mk.injEq] at h <;>
      obtain ⟨u, hu, rfl, rfl⟩ := h
    · exact .inl ⟨rfl, rfl, hu⟩
    · exact .inr ⟨rfl, rfl, hu⟩

/-- Everything `newNode` can answer with a next state. -/
theorem newNode_next {n : Node} {stk : Stack} {s t : State} {k : NodeIdx → Stack → State → State}
    (h : newNode n stk s k = .next t) :
    ∃ s1 s2 stk2, s.setNode? s.nodeCount n = some s1 ∧
      attach s.nodeCount stk { s1 with nodeCount := s.nodeCount + 1 } = some (s2, stk2) ∧ t = k s.nodeCount stk2 s2 := by
  unfold newNode at h
  split at h
  · cases h
  · rename_i s1 h1
    split at h
    · cases h
    · rename_i s2 stk2 h2
      exact ⟨s1, s2, stk2, h1, h2, (Host.Outcome.next.inj h).symm⟩

/-! ### Command requests (R90) -/

/-- R90: a request is dropped while a command runs or an error stands. -/
theorem request_dropped {s : State} (h : ¬s.ready) (w : Word) (k : State → State) : request w s k = s.reject := by
  unfold request
  split
  · rfl
  · split
    · rfl
    · rename_i h1 h2
      exact absurd ⟨by simpa using h1, by simpa using h2⟩ h

/-- R90: a request is taken. -/
theorem request_ready {s : State} (h : s.ready) (w : Word) (k : State → State) :
    request w s k = k (requestHead w s) := by
  simp [request, h.1, h.2]

theorem ready_or_dropped (s : State) (w : Word) (k : State → State) :
    (s.ready ∧ request w s k = k (requestHead w s)) ∨ (¬s.ready ∧ request w s k = s.reject) := by
  by_cases h : s.ready
  · exact .inl ⟨h, request_ready h w k⟩
  · exact .inr ⟨h, request_dropped h w k⟩

/-- R90: a command is accepted. -/
theorem issue_accepted {s : State} (h : s.ready) {i : Instr} (hc : usesCfg i = true → s.cfg.legal = true) :
    issue i s = goto (startOf i) (requestHead (encode i) s) := by
  unfold issue
  rw [request_ready h]
  cases hu : usesCfg i
  · simp
  · simp [hc hu]

/-- R90: the configuration is not legal. -/
theorem issue_badConfig {s : State} (h : s.ready) {i : Instr} (hu : usesCfg i = true) (hc : s.cfg.legal = false) :
    issue i s = raiseError .badConfig (encode i) (requestHead (encode i) s) := by
  unfold issue
  rw [request_ready h]
  simp [hu, hc]

@[simp] theorem startOf_running (i : Instr) : (startOf i).running = true := by
  cases i <;> rfl

@[simp] theorem startOf_opr (i : Instr) : (startOf i).opr = some i := by
  cases i <;> rfl

theorem engine_idle_of_ready {s : State} (h : s.ready) : s.engine = .idle := by
  have hb := h.1
  unfold State.busy at hb
  cases he : s.engine <;> rw [he] at hb <;> first | rfl | cases hb

/-! ### Runs of engine steps -/

@[simp] theorem runEngine_zero (s : State) : runEngine 0 s = .next s := rfl

theorem runEngine_of_none {s : State} (h : engineStep s = none) (n : Nat) : runEngine n s = .next s := by
  cases n with
  | zero => rfl
  | succ n => simp [runEngine, h]

theorem runEngine_of_next {s t : State} (h : engineStep s = some (.next t)) (n : Nat) :
    runEngine (n + 1) s = runEngine n t := by
  simp [runEngine, h]

/-- An idle engine takes no step (R108). -/
theorem engineStep_idle {s : State} (h : s.engine = .idle) : engineStep s = none := by
  simp [engineStep, h]

theorem runEngine_idle {s : State} (h : s.engine = .idle) (n : Nat) : runEngine n s = .next s :=
  runEngine_of_none (engineStep_idle h) n

/-- A run of `m + n` steps is a run of `m` and then one of `n`. -/
theorem runEngine_add {m : Nat} : ∀ {s t : State} (n : Nat), runEngine m s = .next t →
    runEngine (m + n) s = runEngine n t := by
  induction m with
  | zero =>
    intro s t n h
    cases h
    simp
  | succ m ih =>
    intro s t n h
    cases he : engineStep s with
    | none =>
      rw [runEngine_of_none he] at h ⊢
      cases h
      rw [runEngine_of_none he]
    | some r =>
      cases r with
      | next u =>
        rw [runEngine_of_next he] at h
        rw [Nat.add_right_comm, runEngine_of_next he]
        exact ih n h
      | fault f => simp [runEngine, he] at h
      | refused r => simp [runEngine, he] at h

/-- The induction of every claim about runs: what one engine step keeps, a run keeps. -/
theorem runEngine_keeps {P : State → Prop} (hP : ∀ s t, P s → engineStep s = some (.next t) → P t) (n : Nat) :
    ∀ {s t : State}, P s → runEngine n s = .next t → P t := by
  induction n with
  | zero =>
    intro s t hs h
    cases h
    exact hs
  | succ n ih =>
    intro s t hs h
    cases he : engineStep s with
    | none =>
      rw [runEngine_of_none he] at h
      cases h
      exact hs
    | some r =>
      cases r with
      | next u =>
        rw [runEngine_of_next he] at h
        exact ih (hP s u hs he) h
      | fault f => simp [runEngine, he] at h
      | refused r => simp [runEngine, he] at h

/-- If what engine steps keep rules out a stop of the next step, a run never stops. -/
theorem runEngine_goes {P : State → Prop} (hP : ∀ s t, P s → engineStep s = some (.next t) → P t)
    (hgo : ∀ s r, P s → engineStep s = some r → ∃ t, r = .next t) (n : Nat) :
    ∀ {s : State}, P s → ∃ t, runEngine n s = .next t := by
  induction n with
  | zero => intro s _; exact ⟨s, rfl⟩
  | succ n ih =>
    intro s hs
    cases he : engineStep s with
    | none => exact ⟨s, runEngine_of_none he _⟩
    | some r =>
      obtain ⟨u, rfl⟩ := hgo s r hs he
      rw [runEngine_of_next he]
      exact ih (hP s u hs he)

end Sys2Proof.Machine
end

