-- ==== Sys2Proof/Laws/Engine.lean ====
section
/-! SUPPORT. Everything one engine step can do, said once: the transfer it makes, and what it changes besides. Every claim
about frames, errors and streams cites `engineStep_effect` and unfolds no step function. -/

namespace Sys2Proof.Machine

/-! ### The arena writes of `ParseTree` change nothing but the arena -/

theorem setNode?_eq {s t : State} {i : NodeIdx} {n : Node} (h : s.setNode? i n = some t) :
    t = { s with arena := t.arena } := by
  obtain ⟨_, rfl⟩ := setNode?_eq_some.mp h
  rfl

theorem mapNode?_eq {s t : State} {i : NodeIdx} {f : Node → Node} (h : s.mapNode? i f = some t) :
    t = { s with arena := t.arena } := by
  obtain ⟨_, _, h⟩ := mapNode?_eq_some.mp h
  exact setNode?_eq h

theorem attach_eq {i : NodeIdx} {stk stk' : Stack} {s t : State} (h : attach i stk s = some (t, stk')) :
    t = { s with arena := t.arena } := by
  obtain ⟨_, _, rfl⟩ | ⟨_, _, _, ⟨_, _, h⟩ | ⟨_, _, h⟩⟩ := attach_some h
  · rfl
  · exact mapNode?_eq h
  · exact mapNode?_eq h

/-- A new node changes the arena and `NODE_COUNT`, and then `k` goes on. -/
theorem newNode_eq {n : Node} {stk : Stack} {s t : State} {k : NodeIdx → Stack → State → State}
    (h : newNode n stk s k = .next t) :
    ∃ a stk2, t = k s.nodeCount stk2 { s with arena := a, nodeCount := s.nodeCount + 1 } := by
  obtain ⟨s1, s2, stk2, h1, h2, rfl⟩ := newNode_next h
  have e1 := setNode?_eq h1
  have e2 := attach_eq h2
  refine ⟨s2.arena, stk2, ?_⟩
  rw [e2, e1]

/-! ### What a step does to the flags -/

/-- A step leaves `DONE`, `ERR` and the error fields alone and the command running; or it completes the command; or it ends
it in a listed error (R91, R96). -/
inductive Ending (s t : State) : Prop where
  | runs (h : t.engine ≠ .idle) (hd : t.status.done = s.status.done) (he : t.status.err = s.status.err)
      (hc : t.status.errCode = s.status.errCode) (hdt : t.status.errDetail = s.status.errDetail)
      (hi : t.errInfo = s.errInfo)
  | completes (h : t.engine = .idle) (hd : t.status.done = true) (he : t.status.err = s.status.err)
      (hc : t.status.errCode = s.status.errCode) (hdt : t.status.errDetail = s.status.errDetail)
      (hi : t.errInfo = s.errInfo)
  | fails (h : t.engine = .idle) (hd : t.status.done = s.status.done) (he : t.status.err = true)
      (hc : ∃ c : Cause, t.status.errCode = c.code ∧ t.status.errDetail = c.detail)

/-- What a step of the running command changes besides its stream transfer: `t` follows from `s`, of which `s` is the state
after that transfer. `i` is the running command (R63). -/
structure Changes (i : Instr) (s t : State) : Prop where
  irqEn : t.irqEn = s.irqEn
  cfg : t.cfg = s.cfg
  inCount : t.inCount = s.inCount
  outCount : t.outCount = s.outCount
  nodeSel : t.nodeSel = s.nodeSel
  ctSel : t.ctSel = s.ctSel
  inQ : t.inQ = s.inQ
  outQ : t.outQ = s.outQ
  params : t.params = s.params
  draws : t.draws = s.draws
  script : t.script = s.script
  lead : t.lead = s.lead
  reads : t.reads = s.reads
  received : t.received = s.received
  rej : t.status.rej = s.status.rej
  op : t.status.op = s.status.op
  inEnded : t.status.inEnded = s.status.inEnded
  symCount : i ≠ .decode → t.symCount = s.symCount
  symsLeft : i ≠ .decode → i ≠ .encode → t.symsLeft = s.symsLeft
  nodeCount : i ≠ .decode → i ≠ .treeRead → t.nodeCount = s.nodeCount
  arena : i ≠ .decode → i ≠ .treeRead → t.arena = s.arena
  table : i ≠ .ctClear → t.table = s.table
  words : ∀ x : Byte, (t.entry x).words = (s.entry x).words
  opr : t.engine = .idle ∨ t.engine.opr = some i
  ending : Ending s t

theorem changes_goto (i : Instr) (s : State) {e : Engine} (he : e.opr = some i) : Changes i s (goto e s) := by
  have hne : (goto e s).engine ≠ .idle := by
    intro h
    have : e = .idle := h
    rw [this] at he
    cases he
  constructor <;> first | (intros; rfl) | exact .inr he | exact .runs hne rfl rfl rfl rfl rfl

theorem changes_raise (i : Instr) (s : State) (c : Cause) (info : Word) : Changes i s (raiseError c info s) := by
  constructor <;> first | (intros; rfl) | exact .inl rfl | exact .fails rfl rfl rfl ⟨c, rfl, rfl⟩

theorem changes_complete (i : Instr) (s : State) : Changes i s (complete s) := by
  constructor <;> first | (intros; rfl) | exact .inl rfl | exact .completes rfl rfl rfl rfl rfl rfl

/-- A change of the registers that DECODE writes, before a change of another kind. -/
theorem changes_decode_regs {s t : State} {a : Vector Node Config.maxNodes} {nc : NodeIdx} {sc sl : Count}
    (h : Changes .decode { s with arena := a, nodeCount := nc, symCount := sc, symsLeft := sl } t) :
    Changes .decode s t := by
  obtain ⟨h1, h2, h3, h4, h5, h6, h7, h8, h9, h10, h11, h12, h13, h14, h15, h16, h17, _, _, _, _, h22, h23, h24, h25⟩ := h
  refine ⟨h1, h2, h3, h4, h5, h6, h7, h8, h9, h10, h11, h12, h13, h14, h15, h16, h17, ?_, ?_, ?_, ?_, h22, h23, h24, ?_⟩ <;>
    first | (intro h; exact absurd rfl h) | skip
  cases h25 with
  | runs a b c d e f => exact .runs a b c d e f
  | completes a b c d e f => exact .completes a b c d e f
  | fails a b c d => exact .fails a b c d

/-- A change of the registers that `ParseTree` writes, before a change of another kind. -/
theorem changes_parse_regs {i : Instr} (hi : i = .treeRead ∨ i = .decode) {s t : State}
    {a : Vector Node Config.maxNodes} {nc : NodeIdx} (h : Changes i { s with arena := a, nodeCount := nc } t) :
    Changes i s t := by
  obtain ⟨h1, h2, h3, h4, h5, h6, h7, h8, h9, h10, h11, h12, h13, h14, h15, h16, h17, h18, h19, _, _, h22, h23, h24, h25⟩ :=
    h
  refine ⟨h1, h2, h3, h4, h5, h6, h7, h8, h9, h10, h11, h12, h13, h14, h15, h16, h17, h18, h19, ?_, ?_, h22, h23, h24, ?_⟩
  · intro hd hr
    cases hi <;> contradiction
  · intro hd hr
    cases hi <;> contradiction
  · cases h25 with
    | runs a b c d e f => exact .runs a b c d e f
    | completes a b c d e f => exact .completes a b c d e f
    | fails a b c d => exact .fails a b c d

/-- A change of `SYMS_LEFT`, which ENCODE and DECODE write, before a change of another kind. -/
theorem changes_symsLeft {i : Instr} (hi : i = .encode ∨ i = .decode) {s t : State} {sl : Count}
    (h : Changes i { s with symsLeft := sl } t) : Changes i s t := by
  obtain ⟨h1, h2, h3, h4, h5, h6, h7, h8, h9, h10, h11, h12, h13, h14, h15, h16, h17, h18, _, h20, h21, h22, h23, h24,
    h25⟩ := h
  refine ⟨h1, h2, h3, h4, h5, h6, h7, h8, h9, h10, h11, h12, h13, h14, h15, h16, h17, h18, ?_, h20, h21, h22, h23, h24, ?_⟩
  · intro hd hr
    cases hi <;> contradiction
  · cases h25 with
    | runs a b c d e f => exact .runs a b c d e f
    | completes a b c d e f => exact .completes a b c d e f
    | fails a b c d => exact .fails a b c d

/-! ### The effect of a step -/

/-- The transfer of a step: none, an `InPop` or an `OutPush` (R54), and the state `u` after it. -/
inductive Transfer (s u : State) : Prop where
  | none (hin : s.needsInput = none ∨ s.status.inEnded = true) (hout : s.nextOutput = none) (hu : u = s)
  | took (e : InEntry) (q : List InEntry) (hin : s.needsInput.isSome = true) (hend : s.status.inEnded = false)
      (hq : s.inQ = e :: q) (hout : s.nextOutput = none) (hu : u = taken e q s)
  | gave (b : Byte) (hin : s.needsInput = none) (hout : s.nextOutput = some b)
      (room : s.outQ.length < s.params.outDepth) (hu : u = pushed b s)

/-- A step of the command `i` from `s` to `t`. -/
def Effect (i : Instr) (s t : State) : Prop := ∃ u, Transfer s u ∧ Changes i u t

theorem effect_inPop {i : Instr} {p : Phase} {s t : State} {k : Byte → State → Option Result}
    (hin : s.needsInput.isSome = true) (hout : s.nextOutput = none)
    (hk : ∀ b u v, k b u = some (.next v) → Changes i u v) (h : inPop p s k = some (.next t)) : Effect i s t := by
  obtain ⟨he, hr⟩ | ⟨e, q, he, hq, hr⟩ := inPop_some h
  · cases hr
    exact ⟨s, .none (.inr he) hout rfl, changes_raise i s _ _⟩
  · exact ⟨_, .took e q hin he hq hout rfl, hk _ _ _ hr⟩

theorem effect_outPush {i : Instr} {b : Byte} {s t : State} {k : State → Option Result} (hin : s.needsInput = none)
    (hout : s.nextOutput = some b) (hk : ∀ u v, k u = some (.next v) → Changes i u v)
    (h : outPush b s k = some (.next t)) : Effect i s t := by
  obtain ⟨room, hr⟩ := outPush_some h
  exact ⟨_, .gave b hin hout room rfl, hk _ _ hr⟩

theorem effect_local {i : Instr} {s t : State} (hin : s.needsInput = none) (hout : s.nextOutput = none)
    (h : Changes i s t) : Effect i s t :=
  ⟨s, .none (.inl hin) hout rfl, h⟩

theorem changes_newNode {i : Instr} (hi : i = .treeRead ∨ i = .decode) {n : Node} {stk : Stack} {s t : State}
    {k : NodeIdx → Stack → State → State} (hk : ∀ j stk2 u, Changes i u (k j stk2 u))
    (h : some (newNode n stk s k) = some (.next t)) : Changes i s t := by
  obtain ⟨a, stk2, rfl⟩ := newNode_eq (Option.some.inj h)
  exact changes_parse_regs hi (hk _ _ _)

/-- A step of `ParseTree` under TREE_READ or DECODE. -/
theorem parseStep_effect {i : Instr} (hi : i = .treeRead ∨ i = .decode) {wrap : ParsePos → Engine} {after : Engine}
    (hw : ∀ p, (wrap p).opr = some i) (ha : after.opr = some i) {p : ParsePos} {s t : State}
    (hin : s.needsInput = parseNeeds s p) (hout : s.nextOutput = none) (h : parseStep wrap after p s = some (.next t)) :
    Effect i s t := by
  cases p with
  | marker stk =>
    simp only [parseStep, parseMarker] at h
    by_cases hc : s.nodeCount = 511
    · rw [if_pos hc] at h
      cases h
      exact effect_local (by simp [hin, parseNeeds, hc]) hout (changes_raise _ _ _ _)
    · rw [if_neg hc] at h
      refine effect_inPop (by rw [hin]; simp only [parseNeeds, if_neg hc]; rfl) hout ?_ h
      intro b u v hk
      split at hk <;> cases hk
      · exact changes_raise _ _ _ _
      · exact changes_goto _ _ (hw _)
  | edge stk m =>
    simp only [parseStep, parseEdge] at h
    refine effect_inPop (by simp [hin, parseNeeds]) hout ?_ h
    intro b u v hk
    split at hk
    · cases hk
      exact changes_goto _ _ (hw _)
    · refine changes_newNode hi ?_ hk
      intro j stk2 w
      unfold pushParent
      split
      · exact changes_raise _ _ _ _
      · exact changes_goto _ _ (hw _)
  | symbol stk e =>
    simp only [parseStep, parseSymbol] at h
    refine effect_inPop (by simp [hin, parseNeeds]) hout ?_ h
    intro b u v hk
    refine changes_newNode hi ?_ hk
    intro j stk2 w
    unfold afterLeaf
    split
    · exact changes_goto _ _ ha
    · exact changes_goto _ _ (hw _)

theorem treeReadStep_effect {p : TreeReadPos} {s t : State} (hE : s.engine = .treeRead p)
    (h : treeReadStep p s = some (.next t)) : Effect .treeRead s t := by
  cases p with
  | start =>
    cases h
    exact effect_local (by simp [State.needsInput, hE]) (by simp [State.nextOutput, hE])
      (changes_parse_regs (.inl rfl) (changes_goto _ _ rfl))
  | parse q =>
    exact parseStep_effect (.inl rfl) (fun _ => rfl) rfl (by simp [State.needsInput, hE]) (by simp [State.nextOutput, hE]) h
  | finish =>
    cases h
    exact effect_local (by simp [State.needsInput, hE]) (by simp [State.nextOutput, hE]) (changes_complete _ _)

theorem treeWriteVisit_changes {i : NodeIdx} {visits : Nat} {stk : Stack} {s t : State}
    (h : treeWriteVisit i visits stk s = .next t) : Changes .treeWrite s t := by
  unfold treeWriteVisit at h
  repeat' split at h
  all_goals cases h
  all_goals first
    | exact changes_raise _ _ _ _
    | exact changes_goto _ _ rfl

theorem treeWriteStep_effect {p : TreeWritePos} {s t : State} (hE : s.engine = .treeWrite p)
    (h : treeWriteStep p s = some (.next t)) : Effect .treeWrite s t := by
  cases p with
  | start =>
    refine effect_local (by simp [State.needsInput, hE]) (by simp [State.nextOutput, hE]) ?_
    simp only [treeWriteStep] at h
    split at h <;> cases h
    · exact changes_raise _ _ _ _
    · exact changes_goto _ _ rfl
  | visit i visits stk =>
    exact effect_local (by simp [State.needsInput, hE]) (by simp [State.nextOutput, hE])
      (treeWriteVisit_changes (Option.some.inj h))
  | marker n visits stk =>
    simp only [treeWriteStep] at h
    refine effect_outPush (b := markerByte n s.cfg) (by simp [State.needsInput, hE])
      (by simp [State.nextOutput, hE, markerByte, Config.leafMarker]) ?_ h
    intro u v hk
    cases hk
    exact changes_goto _ _ rfl
  | edge n visits stk =>
    simp only [treeWriteStep] at h
    refine effect_outPush (b := n.edge) (by simp [State.needsInput, hE]) (by simp [State.nextOutput, hE]) ?_ h
    intro u v hk
    cases hk
    exact changes_goto _ _ rfl
  | symbol n visits stk =>
    simp only [treeWriteStep] at h
    refine effect_outPush (b := n.symbol) (by simp [State.needsInput, hE]) (by simp [State.nextOutput, hE]) ?_ h
    intro u v hk
    cases hk
    exact changes_goto _ _ rfl
  | finish =>
    cases h
    exact effect_local (by simp [State.needsInput, hE]) (by simp [State.nextOutput, hE]) (changes_complete _ _)

theorem nextBit_changes (x len j acc : Byte) (accN : Nat) (s : State) :
    Changes .encode s (nextBit x len j acc accN s) := by
  unfold nextBit
  split
  · exact changes_goto _ _ rfl
  · exact changes_symsLeft (.inl rfl) (changes_goto _ _ rfl)

theorem encodeStep_effect {p : EncodePos} {s t : State} (hE : s.engine = .encode p)
    (h : encodeStep p s = some (.next t)) : Effect .encode s t := by
  cases p with
  | start =>
    cases h
    exact effect_local (by simp [State.needsInput, hE]) (by simp [State.nextOutput, hE])
      (changes_symsLeft (.inl rfl) (changes_goto _ _ rfl))
  | digits rest =>
    cases rest with
    | nil =>
      simp only [encodeStep] at h
      refine effect_outPush (b := s.cfg.separator) (by simp [State.needsInput, hE]) (by simp [State.nextOutput, hE]) ?_ h
      intro u v hk
      cases hk
      exact changes_goto _ _ rfl
    | cons d ds =>
      simp only [encodeStep] at h
      refine effect_outPush (b := d) (by simp [State.needsInput, hE]) (by simp [State.nextOutput, hE]) ?_ h
      intro u v hk
      cases hk
      exact changes_goto _ _ rfl
  | symbol acc accN =>
    simp only [encodeStep, encodeSymbol] at h
    by_cases hz : s.symsLeft = 0
    · rw [if_pos hz] at h
      by_cases ha : accN = 0
      · rw [if_pos ha] at h
        cases h
        exact effect_local (by simp [State.needsInput, hE, hz]) (by simp [State.nextOutput, hE, ha]) (changes_complete _ _)
      · rw [if_neg ha] at h
        refine effect_outPush (b := padByte acc accN) (by simp [State.needsInput, hE, hz])
          (by simp [State.nextOutput, hE, hz, ha, padByte]) ?_ h
        intro u v hk
        cases hk
        exact changes_goto _ _ rfl
    · rw [if_neg hz] at h
      refine effect_inPop (by simp only [State.needsInput, hE, if_neg hz]; rfl)
        (by simp only [State.nextOutput, hE, hz, false_and, if_false]) ?_ h
      intro b u v hk
      split at hk <;> cases hk
      · exact changes_raise _ _ _ _
      · exact changes_goto _ _ rfl
  | bit x len j acc accN =>
    cases h
    refine effect_local (by simp [State.needsInput, hE]) (by simp [State.nextOutput, hE]) ?_
    unfold encodeBit
    split
    · exact changes_goto _ _ rfl
    · exact nextBit_changes _ _ _ _ _ _
  | flush x len j acc =>
    simp only [encodeStep] at h
    refine effect_outPush (b := acc) (by simp [State.needsInput, hE]) (by simp [State.nextOutput, hE]) ?_ h
    intro u v hk
    cases hk
    exact nextBit_changes _ _ _ _ _ _
  | finish =>
    cases h
    exact effect_local (by simp [State.needsInput, hE]) (by simp [State.nextOutput, hE]) (changes_complete _ _)

theorem headerByte_changes (hv : Count) (hd : Nat) (b : Byte) (s : State) :
    Changes .decode s (headerByte hv hd b s) := by
  unfold headerByte
  repeat' split
  · exact changes_raise _ _ _ _
  · exact changes_goto _ _ rfl
  · exact changes_raise _ _ _ _
  · exact changes_raise _ _ _ _
  · exact changes_decode_regs (a := s.arena) (nc := s.nodeCount) (changes_goto _ _ rfl)

theorem walkBit_changes {ptr : NodeIdx} {bit : Bool} {cur : Cursor} {s t : State}
    (h : walkBit ptr bit cur s = .next t) : Changes .decode s t := by
  unfold walkBit at h
  repeat' split at h
  all_goals cases h
  all_goals exact changes_goto _ _ rfl

theorem decodeStep_effect {p : DecodePos} {s t : State} (hE : s.engine = .decode p)
    (h : decodeStep p s = some (.next t)) : Effect .decode s t := by
  cases p with
  | start =>
    cases h
    exact effect_local (by simp [State.needsInput, hE]) (by simp [State.nextOutput, hE])
      (changes_parse_regs (.inr rfl) (changes_goto _ _ rfl))
  | parse q =>
    exact parseStep_effect (.inr rfl) (fun _ => rfl) rfl (by simp [State.needsInput, hE]) (by simp [State.nextOutput, hE]) h
  | header hv hd =>
    simp only [decodeStep] at h
    refine effect_inPop (by simp [State.needsInput, hE]) (by simp [State.nextOutput, hE]) ?_ h
    intro b u v hk
    cases hk
    exact headerByte_changes _ _ _ _
  | body ptr cur =>
    simp only [decodeStep, decodeBody] at h
    by_cases hz : s.symsLeft = 0
    · rw [if_pos hz] at h
      cases h
      refine effect_local ?_ (by simp [State.nextOutput, hE]) (changes_complete _ _)
      cases cur <;> simp [State.needsInput, hE, hz]
    · rw [if_neg hz] at h
      cases cur with
      | empty =>
        refine effect_inPop (by simp only [State.needsInput, hE, if_neg hz]; rfl) (by simp [State.nextOutput, hE]) ?_ h
        intro b u v hk
        cases hk
        exact changes_goto _ _ rfl
      | bits c n =>
        exact effect_local (by simp [State.needsInput, hE]) (by simp [State.nextOutput, hE])
          (walkBit_changes (Option.some.inj h))
  | emit x ptr cur =>
    simp only [decodeStep] at h
    refine effect_outPush (b := x) (by simp [State.needsInput, hE]) (by simp [State.nextOutput, hE]) ?_ h
    intro u v hk
    cases hk
    exact changes_symsLeft (.inr rfl) (changes_goto _ _ rfl)

theorem changes_clearTable {s t : State} (h : Changes .ctClear (clearTable s) t) : Changes .ctClear s t := by
  obtain ⟨h1, h2, h3, h4, h5, h6, h7, h8, h9, h10, h11, h12, h13, h14, h15, h16, h17, h18, h19, h20, h21, _, h23, h24,
    h25⟩ := h
  refine ⟨h1, h2, h3, h4, h5, h6, h7, h8, h9, h10, h11, h12, h13, h14, h15, h16, h17, h18, h19, h20, h21, ?_, ?_, h24, ?_⟩
  · intro hc
    exact absurd rfl hc
  · intro x
    rw [h23, entry_clearTable]
    rfl
  · cases h25 with
    | runs a b c d e f => exact .runs a b c d e f
    | completes a b c d e f => exact .completes a b c d e f
    | fails a b c d => exact .fails a b c d

/-- What one engine step can do: it is a step of the command `i` that runs, with at most one stream transfer, and the
changes that command may make. -/
theorem engineStep_effect {s t : State} (h : engineStep s = some (.next t)) :
    ∃ i, s.engine.opr = some i ∧ Effect i s t := by
  unfold engineStep at h
  cases hE : s.engine with
  | idle => rw [hE] at h; cases h
  | nop =>
    rw [hE] at h
    cases h
    exact ⟨.nop, rfl, effect_local (by simp [State.needsInput, hE]) (by simp [State.nextOutput, hE]) (changes_complete _ _)⟩
  | treeWrite p => rw [hE] at h; exact ⟨_, rfl, treeWriteStep_effect hE h⟩
  | treeRead p => rw [hE] at h; exact ⟨_, rfl, treeReadStep_effect hE h⟩
  | encode p => rw [hE] at h; exact ⟨_, rfl, encodeStep_effect hE h⟩
  | decode p => rw [hE] at h; exact ⟨_, rfl, decodeStep_effect hE h⟩
  | ctClear p =>
    rw [hE] at h
    refine ⟨.ctClear, rfl, effect_local (by simp [State.needsInput, hE]) (by simp [State.nextOutput, hE]) ?_⟩
    cases p with
    | start => cases h; exact changes_clearTable (changes_goto _ _ rfl)
    | finish => cases h; exact changes_complete _ _

end Sys2Proof.Machine
end

