-- ==== Sys2Proof/Laws/Invariant.lean ====
section
/-! SUPPORT. The bounds of the engine-internal state: what an engine step needs of them, and that it keeps them. -/

namespace Sys2Proof.Machine

/-- An arena index other than 511 names an entry (R25). -/
theorem toNat_lt_511 {i : NodeIdx} (h : i ≠ 511) : i.toNat < 511 := by
  have := i.isLt
  have : i.toNat ≠ 511 := fun e => h (BitVec.eq_of_toNat_eq e)
  omega

/-- R35: a stack of valid entries stays one while `NODE_COUNT` does not fall. -/
theorem stackOk_le {s t : State} {stk : Stack} (h : stackOk s stk) (hn : s.nodeCount.toNat ≤ t.nodeCount.toNat) :
    stackOk t stk :=
  ⟨h.1, fun e he => by have := h.2 e he; omega⟩

/-- R7: `NODE_COUNT + 1` does not wrap below 511. -/
theorem nodeCount_succ {s : State} (h : s.nodeCount ≠ 511) : (s.nodeCount + 1).toNat = s.nodeCount.toNat + 1 := by
  have := toNat_lt_511 h
  rw [BitVec.toNat_add]; simp; omega

/-- R75: a node that `ParseTree` writes goes to the next index, is attached to its parent,
    and keeps the bounds of the stack
and of every valid entry's children; the entries beyond it stay. -/
theorem newNode_ok {s : State} {n : Node} {stk : Stack} {k} (hn : s.nodeCount ≠ 511) (hs : stackOk s stk) (hc :
    childrenOk s)
   (h0 : n.left = 0) (h1 : n.right = 0) :
   ∃ s2 stk2, newNode n stk s k = .next (k s.nodeCount stk2 s2) ∧ s2.nodeCount = s.nodeCount + 1 ∧
       stackOk s2 stk2 ∧ childrenOk s2 ∧
     (∀ j : Nat, s.nodeCount.toNat < j → s2.arena[j]? = s.arena[j]?) := by
  have hlt := toNat_lt_511 hn
  obtain ⟨s1, h1'⟩ : ∃ s1, s.setNode? s.nodeCount n = some s1 := ⟨_, setNode?_of_lt _ _ hlt⟩
  have hnc := nodeCount_succ hn
  have hc1 : ∀ i m, s1.node? i = some m → i.toNat < s.nodeCount.toNat + 1 → m.left.toNat < s.nodeCount.toNat + 1 ∧
      m.right.toNat < s.nodeCount.toNat + 1 := by
    intro i m hm hi
    rw [node?_of_setNode? h1'] at hm
    split at hm
    · cases hm; rw [h0, h1]; simp
    · rename_i hne
      have : i.toNat ≠ s.nodeCount.toNat := fun e => hne (BitVec.eq_of_toNat_eq e.symm)
      have := hc i m hm (by omega)
      omega
  have ha1 : ∀ j : Nat, s.nodeCount.toNat < j → s1.arena[j]? = s.arena[j]? := by
    intro j hj
    obtain ⟨_, rfl⟩ := setNode?_eq_some.mp h1'
    show (s.arena.set s.nodeCount.toNat n)[j]? = _
    rw [Vector.getElem?_set_ne]; omega
  generalize hu : ({ s1 with nodeCount := s.nodeCount + 1 } : State) = u
  have hun : u.nodeCount = s.nodeCount + 1 := by rw [← hu]
  have hua : u.arena = s1.arena := by rw [← hu]
  have hunode : ∀ i, u.node? i = s1.node? i := fun i => node?_congr hua i
  have red : ∀ s2 stk2, attach s.nodeCount stk u = some (s2, stk2) →
      newNode n stk s k = .next (k s.nodeCount stk2 s2) := by
    intro s2 stk2 h
    unfold newNode; rw [h1']; simp only [hu, h]
  cases stk with
  | nil =>
    refine ⟨u, [], red _ _ rfl, hun, ⟨by simp, by simp⟩, ?_, by rw [hua]; exact ha1⟩
    intro i m hm hi
    rw [hunode] at hm; rw [hun, hnc] at hi ⊢; exact hc1 i m hm hi
  | cons top rest =>
    have htop : top.idx.toNat < s.nodeCount.toNat := hs.2 top (by simp)
    have hlen := hs.1; simp at hlen
    have step : ∀ f : Node → Node, (∀ m : Node, m.left.toNat < s.nodeCount.toNat + 1 →
        m.right.toNat < s.nodeCount.toNat + 1 → (f m).left.toNat < s.nodeCount.toNat + 1 ∧
        (f m).right.toNat < s.nodeCount.toNat + 1) →
       ∃ s2, u.mapNode? top.idx f = some s2 ∧ s2.nodeCount = s.nodeCount + 1 ∧ childrenOk s2 ∧ (∀ j : Nat,
           s.nodeCount.toNat < j → s2.arena[j]? = s.arena[j]?) := by
      intro f hf
      obtain ⟨s2, h2⟩ : ∃ s2, u.mapNode? top.idx f = some s2 := ⟨_, mapNode?_of_lt _ _ (by omega)⟩
      have e := mapNode?_eq h2
      have hn2 : s2.nodeCount = s.nodeCount + 1 := by rw [e]; exact hun
      obtain ⟨m0, hm0, hset⟩ := mapNode?_eq_some.mp h2
      refine ⟨s2, h2, hn2, ?_, ?_⟩
      · intro i m hm hi
        rw [hn2, hnc] at hi ⊢
        rw [node?_of_setNode? hset] at hm
        split at hm
        · cases hm
          rw [hunode] at hm0
          have := hc1 _ _ hm0 (by omega)
          exact hf _ this.1 this.2
        · rw [hunode] at hm; exact hc1 i m hm hi
      · intro j hj
        obtain ⟨_, rfl⟩ := setNode?_eq_some.mp hset
        show (u.arena.set _ _)[j]? = _
        rw [Vector.getElem?_set_ne _ (by omega), hua]; exact ha1 j hj
    cases hside : top.side with
    | left =>
      obtain ⟨s2, h2, hn2, hc2, ha2⟩ := step (fun m => { m with left := s.nodeCount }) (fun m _ hr => ⟨by simp, hr⟩)
      refine ⟨s2, { top with side := .right } :: rest, red _ _ (by unfold attach; simp only [hside]; rw [h2]; rfl),
          hn2, ⟨by simpa using hs.1, ?_⟩, hc2, ha2⟩
      intro e he
      rw [hn2, hnc]
      rcases List.mem_cons.mp he with rfl | he
      · show top.idx.toNat < _; omega
      · have := hs.2 e (by simp [he]); omega
    | right =>
      obtain ⟨s2, h2, hn2, hc2, ha2⟩ := step (fun m => { m with right := s.nodeCount }) (fun m hl _ => ⟨hl, by simp⟩)
      refine ⟨s2, rest, red _ _ (by unfold attach; simp only [hside]; rw [h2]; rfl), hn2, ⟨by simp; omega, ?_⟩,
          hc2, ha2⟩
      intro e he
      rw [hn2, hnc]
      have := hs.2 e (by simp [he]); omega

/-- What holds after the truncation error and after every continuation holds after an `InPop`. -/
theorem inPop_ok {p : Phase} {s : State} {k : Byte → State → Option Result} {r : Result} (h :
    inPop p s k = some r) {Q : State → Prop} (hq0 : Q (raiseError p.truncation 0 s))
  (hk : ∀ b e q r, k b (taken e q s) = some r → ∃ t, r = .next t ∧ Q t) : ∃ t, r = .next t ∧ Q t := by
  rcases inPop_some h with ⟨_, rfl⟩ | ⟨e, q, _, _, h⟩
  · exact ⟨_, rfl, hq0⟩
  · exact hk _ _ _ _ h

/-- R75: a step of `ParseTree` never stops the machine and keeps the bounds of its position. -/
theorem parseStep_ok {wrap : ParsePos → Engine} {after : Engine} {p : ParsePos} {s : State} {r : Result} (hok :
    parseOk s p)
  (hw : ∀ t p, parseOk t p → engineOk t (wrap p)) (ha : ∀ t, childrenOk t → t.nodeCount ≠ 0 → engineOk t after)
  (h : parseStep wrap after p s = some r) : ∃ t, r = .next t ∧ engineOk t t.engine := by
  cases p with
  | marker stk =>
    simp only [parseStep, parseMarker] at h
    split at h
    · cases h; exact ⟨_, rfl, trivial⟩
    · rename_i hn
      refine inPop_ok h trivial ?_
      intro b e q r h
      split at h <;> cases h
      · exact ⟨_, rfl, trivial⟩
      · exact ⟨_, rfl, hw _ _ ⟨hok.1, hok.2, hn⟩⟩
  | edge stk m =>
    simp only [parseStep, parseEdge] at h
    refine inPop_ok h trivial ?_
    intro b e q r h
    split at h
    · cases h; exact ⟨_, rfl, hw _ _ hok⟩
    · cases h
      obtain ⟨s2, stk2, h1, hn2, hs2, hc2, _⟩ := newNode_ok (s := taken e q s) (n := parsedInternal b)
          (stk := stk) (k := pushParent wrap) hok.2.2 hok.1 hok.2.1 rfl rfl
      refine ⟨_, h1, ?_⟩
      unfold pushParent
      split
      · exact trivial
      · rename_i hl
        refine hw _ _ ⟨⟨?_, ?_⟩, hc2⟩
        · have := hs2.1; simp at *; omega
        · intro e' he'
          show _ < s2.nodeCount.toNat
          rcases List.mem_cons.mp he' with rfl | he'
          · rw [hn2]; show s.nodeCount.toNat < (s.nodeCount + 1).toNat; rw [nodeCount_succ hok.2.2]; omega
          · exact hs2.2 e' he'
  | symbol stk e0 =>
    simp only [parseStep, parseSymbol] at h
    refine inPop_ok h trivial ?_
    intro b e q r h
    cases h
    obtain ⟨s2, stk2, h1, hn2, hs2, hc2, _⟩ := newNode_ok (s := taken e q s) (n := parsedLeaf e0 b) (stk := stk)
        (k := fun _ stk2 s2 => afterLeaf wrap after stk2 s2) hok.2.2 hok.1 hok.2.1 rfl rfl
    refine ⟨_, h1, ?_⟩
    unfold afterLeaf
    split
    · refine ha _ hc2 ?_
      show s2.nodeCount ≠ 0
      intro h0
      have := congrArg BitVec.toNat h0
      rw [hn2] at this; change (s.nodeCount + 1).toNat = 0 at this; rw [nodeCount_succ hok.2.2] at this; simp at this
    · exact hw _ _ ⟨hs2, hc2⟩

/-- R82: after a code bit. -/
theorem nextBit_ok {sym len j acc : Byte} {accN : Nat} {s : State} (h : accN < 8) (_hj : j.toNat < len.toNat) (hl :
    len = (s.entry sym).len) (hz : s.symsLeft ≠ 0) :
   engineOk (nextBit sym len j acc accN s) (nextBit sym len j acc accN s).engine := by
  unfold nextBit
  split
  · rename_i h1
    refine ⟨h, ?_, hl, hz⟩
    rw [BitVec.toNat_add]; have := len.isLt; simp; omega
  · exact h

/-- R24: a valid index names an entry. -/
theorem node?_of_valid {s : State} {i : NodeIdx} (h : i.toNat < s.nodeCount.toNat) : ∃ n, s.node? i = some n :=
  ⟨_, node?_of_lt s (by have := s.nodeCount.isLt; omega)⟩

/-- R37: from a state within the bounds of its engine position, an engine step never stops the machine and keeps the
bounds. -/
theorem engineStep_ok {s : State} {r : Result} (hok : engineOk s s.engine) (h : engineStep s = some r) : ∃ t,
    r = .next t ∧ engineOk t t.engine := by
  unfold engineStep at h
  cases hE : s.engine with
  | idle => rw [hE] at h; cases h
  | nop => rw [hE] at h; cases h; exact ⟨_, rfl, trivial⟩
  | ctClear p => rw [hE] at h; cases p <;> cases h <;> exact ⟨_, rfl, trivial⟩
  | treeRead p =>
    rw [hE] at h hok
    cases p with
    | start => cases h; exact ⟨_, rfl, ⟨by simp, by simp⟩, fun i n _ h => absurd h (by show ¬ (_ < 0); omega)⟩
    | parse q =>
      exact parseStep_ok (wrap := fun q => .treeRead (.parse q))
          (after := .treeRead .finish) hok (fun _ _ h => h) (fun _ _ _ => trivial) h
    | finish => cases h; exact ⟨_, rfl, trivial⟩
  | treeWrite p =>
    rw [hE] at h hok
    cases p with
    | start =>
      simp only [treeWriteStep] at h
      split at h
      · cases h; exact ⟨_, rfl, trivial⟩
      · rename_i hn
        cases h
        refine ⟨_, rfl, ?_, by simp, ⟨by simp, by simp⟩⟩
        show 0 < s.nodeCount.toNat
        rcases Nat.eq_zero_or_pos s.nodeCount.toNat with h0 | h0
        · exact absurd (BitVec.eq_of_toNat_eq h0) hn
        · exact h0
    | visit i visits stk =>
      obtain ⟨h1, h2, h3⟩ := hok
      simp only [treeWriteStep, treeWriteVisit] at h
      obtain ⟨n, hn⟩ := node?_of_valid h1
      rw [hn] at h
      split at h
      · cases h; exact ⟨_, rfl, trivial⟩
      rename_i hv
      simp only at h
      split at h
      · rename_i hl
        cases h
        exact ⟨_, rfl, by simp at *; omega, h3, fun hh => by rw [hl] at hh; cases hh⟩
      split at h
      · cases h; exact ⟨_, rfl, trivial⟩
      split at h
      · cases h; exact ⟨_, rfl, trivial⟩
      split at h
      · cases h; exact ⟨_, rfl, trivial⟩
      rename_i hc1 hc2 hst
      cases h
      simp [childOk] at hc1 hc2
      refine ⟨_, rfl, by simp at *; omega, h3, fun _ => ⟨?_, hc1.2, hc2.2⟩⟩
      have := h3.1; simp at *; omega
    | marker n visits stk =>
      simp only [treeWriteStep] at h
      obtain ⟨_, h⟩ := outPush_some h; cases h; exact ⟨_, rfl, hok⟩
    | edge n visits stk =>
      simp only [treeWriteStep] at h
      obtain ⟨_, h⟩ := outPush_some h; cases h
      refine ⟨_, rfl, ?_⟩
      show engineOk _ (.treeWrite (afterEdge n visits stk))
      unfold afterEdge
      split
      · exact ⟨hok, ‹_›⟩
      · rename_i hl
        obtain ⟨a, b, c⟩ := hok
        obtain ⟨c1, c2, c3⟩ := c (by simpa using hl)
        refine ⟨c2, a, by simp at *; omega, ?_⟩
        intro e he
        rcases List.mem_cons.mp he with rfl | he
        · exact c3
        · exact b.2 e he
    | symbol n visits stk =>
      simp only [treeWriteStep] at h
      obtain ⟨_, h⟩ := outPush_some h; cases h
      refine ⟨_, rfl, ?_⟩
      show engineOk _ (.treeWrite (afterSymbol visits stk))
      obtain ⟨⟨a, b, _⟩, _⟩ := hok
      cases stk with
      | nil => exact trivial
      | cons top rest =>
        refine ⟨b.2 top (by simp), a, ?_, fun e he => b.2 e (by simp [he])⟩
        have := b.1; simp at *; omega
    | finish => cases h; exact ⟨_, rfl, trivial⟩
  | encode p =>
    rw [hE] at h hok
    cases p with
    | start => cases h; exact ⟨_, rfl, trivial⟩
    | digits l =>
      cases l with
      | nil =>
        simp only [encodeStep] at h
        obtain ⟨_, h⟩ := outPush_some h
        cases h
        exact ⟨_, rfl, Nat.succ_pos 7⟩
      | cons =>
        simp only [encodeStep] at h
        obtain ⟨_, h⟩ := outPush_some h
        cases h
        exact ⟨_, rfl, trivial⟩
    | symbol acc accN =>
      simp only [encodeStep, encodeSymbol] at h
      split at h
      · rename_i hz
        split at h
        · cases h; exact ⟨_, rfl, trivial⟩
        · obtain ⟨_, h⟩ := outPush_some h; cases h; exact ⟨_, rfl, hz⟩
      · rename_i hz
        refine inPop_ok h trivial ?_
        intro b e q r h
        split at h
        · cases h; exact ⟨_, rfl, trivial⟩
        · rename_i hl
          cases h
          refine ⟨_, rfl, hok, ?_, rfl, hz⟩
          rcases Nat.eq_zero_or_pos ((taken e q s).entry b).len.toNat with h0 | h0
          · exact absurd (BitVec.eq_of_toNat_eq h0) hl
          · exact h0
    | bit sym len j acc accN =>
      cases h
      refine ⟨_, rfl, ?_⟩
      obtain ⟨a, b, c, d⟩ := hok
      unfold encodeBit
      split
      · exact ⟨b, c, d⟩
      · exact nextBit_ok (by omega) b c d
    | flush sym len j acc =>
      simp only [encodeStep] at h
      obtain ⟨_, h⟩ := outPush_some h; cases h
      obtain ⟨b, c, d⟩ := hok
      exact ⟨_, rfl, nextBit_ok (by omega) b c d⟩
    | finish => cases h; exact ⟨_, rfl, trivial⟩
  | decode p =>
    rw [hE] at h hok
    cases p with
    | start => cases h; exact ⟨_, rfl, ⟨by simp, by simp⟩, fun i n _ h => absurd h (by show ¬ (_ < 0); omega)⟩
    | parse q =>
      exact parseStep_ok (wrap := fun q => .decode (.parse q))
          (after := .decode (.header 0 0)) hok (fun _ _ h => h) (fun _ a b => ⟨a, b⟩) h
    | header hv hd =>
      simp only [decodeStep] at h
      refine inPop_ok h trivial ?_
      intro b e q r h
      cases h
      refine ⟨_, rfl, ?_⟩
      unfold headerByte
      split
      · split
        · exact trivial
        · exact hok
      · split
        · exact trivial
        · split
          · exact trivial
          · refine ⟨hok.1, ?_, trivial⟩
            show 0 < s.nodeCount.toNat
            rcases Nat.eq_zero_or_pos s.nodeCount.toNat with h0 | h0
            · exact absurd (BitVec.eq_of_toNat_eq h0) hok.2
            · exact h0
    | body ptr cur =>
      obtain ⟨hc, hp, hcur⟩ := hok
      simp only [decodeStep, decodeBody] at h
      split at h
      · cases h; exact ⟨_, rfl, trivial⟩
      rename_i hz
      cases cur with
      | empty =>
        simp only at h
        refine inPop_ok h trivial ?_
        intro b e q r h
        cases h
        exact ⟨_, rfl, hc, hp, by show 1 ≤ 8 ∧ 8 ≤ 8; omega⟩
      | bits c n =>
        simp only at h
        cases h
        have hcur' : (cursorAfter c n).ok := by
          unfold cursorAfter; split
          · exact trivial
          · have := hcur; show 1 ≤ n - 1 ∧ n - 1 ≤ 8; simp [Cursor.ok] at this; omega
        have hpos : 0 < s.nodeCount.toNat := by omega
        obtain ⟨root, h0⟩ := node?_of_valid (s := s) (i := 0) (by simpa using hpos)
        obtain ⟨nd, h1⟩ := node?_of_valid hp
        have hch := hc _ _ h1 hp
        have hcl : (childOf nd (c.getLsbD (n-1))).toNat < s.nodeCount.toNat := by
          unfold childOf
          split
          · exact hch.1
          · exact hch.2
        obtain ⟨child, h2⟩ := node?_of_valid hcl
        unfold walkBit
        simp only [h0, h1, h2]
        split
        · exact ⟨_, rfl, hc, hp, hcur', hz⟩
        · split
          · exact ⟨_, rfl, hc, by simpa using hpos, hcur', hz⟩
          · exact ⟨_, rfl, hc, hcl, hcur'⟩
    | emit sym ptr cur =>
      simp only [decodeStep] at h
      obtain ⟨_, h⟩ := outPush_some h; cases h
      exact ⟨_, rfl, hok.1, hok.2.1, hok.2.2.1⟩

/-- The bounds depend on the arena, `NODE_COUNT`, the code table and `SYMS_LEFT` alone. -/
theorem engineOk_congr {s t : State} (h1 : t.nodeCount = s.nodeCount) (h2 : t.arena = s.arena) (h3 :
    t.table = s.table) (h4 : t.symsLeft = s.symsLeft) (e : Engine) :
   engineOk s e → engineOk t e := by
  have hs : ∀ stk, stackOk s stk → stackOk t stk := fun stk h => stackOk_le h (by rw [h1])
  have hc : childrenOk s → childrenOk t := by
    intro h i n hn hi; rw [node?_congr h2] at hn; rw [h1] at hi ⊢; exact h i n hn hi
  have hen : ∀ x, t.entry x = s.entry x := fun x => entry_congr h3 x
  have hp : ∀ p, parseOk s p → parseOk t p := by
    intro p h; cases p <;> simp only [parseOk, h1] at h ⊢
    · exact ⟨hs _ h.1, hc h.2⟩
    · exact ⟨hs _ h.1, hc h.2.1, h.2.2⟩
    · exact ⟨hs _ h.1, hc h.2.1, h.2.2⟩
  have hw : ∀ n v k, writingOk s n v k → writingOk t n v k := by
    intro n v k h; simp only [writingOk, h1] at h ⊢; exact ⟨h.1, hs _ h.2.1, h.2.2⟩
  intro h
  cases e with
  | treeWrite p =>
    cases p <;> simp only [engineOk,
        h1] at h ⊢ <;> first | trivial | exact hw _ _ _ h | exact ⟨hw _ _ _ h.1, h.2⟩ | exact ⟨h.1, h.2.1, hs _ h.2.2⟩
  | treeRead p => cases p <;> simp only [engineOk] at h ⊢; exact hp _ h
  | encode p => cases p <;> simp only [engineOk, hen, h4] at h ⊢ <;> exact h
  | decode p => cases p <;> simp only [engineOk, h1, h4] at h ⊢ <;> first | trivial | exact hp _ h | exact ⟨hc h.1, h.2⟩
  | _ => trivial

end Sys2Proof.Machine
end

