-- ==== Sys2Proof/Laws/PerInstr.lean ====
section
/-! SUPPORT. One law per command: the family `CmdWord` says of a command that it is well formed, that its word has `RSV` = 0
and its own opcode, and that the word decodes to it (spec/30_encoding.md R61, R62, R63). -/

namespace Sys2Proof.Laws.CmdWord

/-- R61, R62, R63: the word of the command `i` is the format `CMD32` with `RSV` = 0 and the opcode of `i`, one of the six
defined, and it decodes to `i`. -/
def Statement (i : Instr) : Prop :=
  i.wellFormed = true ∧ reservedField (encode i) = 0 ∧ opcodeField (encode i) = i.opcode ∧
    wordWellFormed (encode i) = true ∧ decode (encode i) = .ok i

theorem nop : Statement .nop := by unfold Statement; decide

theorem treeWrite : Statement .treeWrite := by unfold Statement; decide

theorem treeRead : Statement .treeRead := by unfold Statement; decide

theorem encode : Statement .encode := by unfold Statement; decide

theorem decode : Statement .decode := by unfold Statement; decide

theorem ctClear : Statement .ctClear := by unfold Statement; decide

end Sys2Proof.Laws.CmdWord
end

