-- ==== Sys2Proof/Laws/Streams.lean ====
section
/-! SUPPORT. What a run of engine steps and a host write do to the two streams and their counts, said once. -/

namespace Sys2Proof.Machine

/-- The engine took the entries `es` from the head of `IN_Q` and pushed the bytes `bs` at the tail of `OUT_Q`, counting
each (R51, R52). -/
structure Moved (bs : List Byte) (es : List InEntry) (s t : State) : Prop where
  received : t.received = s.received
  outQ : t.outQ = s.outQ ++ bs
  inQ : s.inQ = es ++ t.inQ
  outCount : t.outCount = s.outCount + BitVec.ofNat 64 bs.length
  inCount : t.inCount = s.inCount + BitVec.ofNat 64 es.length

theorem moved_refl (s : State) : Moved [] [] s s := ⟨rfl, by simp, rfl, by simp, by simp⟩

theorem Moved.trans {bs bs' : List Byte} {es es' : List InEntry} {s t u : State} (h : Moved bs es s t)
    (h' : Moved bs' es' t u) : Moved (bs ++ bs') (es ++ es') s u where
  received := by rw [h'.received, h.received]
  outQ := by rw [h'.outQ, h.outQ, List.append_assoc]
  inQ := by rw [h.inQ, h'.inQ, List.append_assoc]
  outCount := by rw [h'.outCount, h.outCount, List.length_append, BitVec.ofNat_add, BitVec.add_assoc]
  inCount := by rw [h'.inCount, h.inCount, List.length_append, BitVec.ofNat_add, BitVec.add_assoc]

theorem engineStep_moved {s t : State} (h : engineStep s = some (.next t)) : ∃ bs es, Moved bs es s t := by
  obtain ⟨i, _, u, hu, hc⟩ := engineStep_effect h
  cases hu with
  | none _ _ hu =>
    subst hu
    exact ⟨[], [], hc.received, by simp [hc.outQ], by simp [hc.inQ], by simp [hc.outCount], by simp [hc.inCount]⟩
  | took e q _ _ hq _ hu =>
    subst hu
    exact ⟨[], [e], hc.received, by simp [hc.outQ], by simp [hc.inQ, hq], by simp [hc.outCount], by simp [hc.inCount]⟩
  | gave b _ _ _ hu =>
    subst hu
    exact ⟨[b], [], hc.received, by simp [hc.outQ], by simp [hc.inQ], by simp [hc.outCount], by simp [hc.inCount]⟩

/-- R54: the stream transfers of a run of engine steps, in their order. -/
theorem runEngine_moved {n : Nat} {s t : State} (h : runEngine n s = .next t) : ∃ bs es, Moved bs es s t :=
  runEngine_keeps (P := fun t => ∃ bs es, Moved bs es s t)
    (fun _ _ ⟨_, _, h1⟩ h2 => by
      obtain ⟨_, _, h3⟩ := engineStep_moved h2
      exact ⟨_, _, h1.trans h3⟩)
    n ⟨[], [], moved_refl s⟩ h

/-- The streams and their counts are those of `s`. -/
structure SameStreams (s t : State) : Prop where
  received : t.received = s.received
  outQ : t.outQ = s.outQ
  inQ : t.inQ = s.inQ
  outCount : t.outCount = s.outCount
  inCount : t.inCount = s.inCount

theorem sameStreams_reject (s : State) : SameStreams s s.reject := ⟨rfl, rfl, rfl, rfl, rfl⟩

/-- R90: a request that is taken moves no byte and starts both counts at 0. -/
structure CountsRestart (s t : State) : Prop where
  received : t.received = s.received
  outQ : t.outQ = s.outQ
  inQ : t.inQ = s.inQ
  outCount : t.outCount = 0
  inCount : t.inCount = 0

/-- R90: a request, of whatever word, that is taken. -/
theorem commandRequest_taken {s : State} (h : s.ready) (w : Word) : CountsRestart s (commandRequest w s) := by
  unfold commandRequest
  split
  · rename_i i _
    unfold issue
    rw [request_ready h]
    split <;> exact ⟨rfl, rfl, rfl, rfl, rfl⟩
  · unfold issueIllegal
    rw [request_ready h]
    exact ⟨rfl, rfl, rfl, rfl, rfl⟩

/-- R90: a request, of whatever word, that is dropped. -/
theorem commandRequest_dropped {s : State} (h : ¬s.ready) (w : Word) : commandRequest w s = s.reject := by
  unfold commandRequest
  split
  · exact request_dropped h _ _
  · exact request_dropped h _ _

theorem writeNodeWindow_sameStreams (f : Node → Node) (s : State) : SameStreams s (writeNodeWindow f s) := by
  unfold writeNodeWindow
  split
  · rename_i h
    rw [mapNode?_eq h]
    exact ⟨rfl, rfl, rfl, rfl, rfl⟩
  · exact sameStreams_reject s

/-- R43: a write to a register other than `CMD` leaves the streams and their counts alone. -/
theorem regWrite_sameStreams {r : Reg} (hr : r ≠ .cmd) (v : Word) (s : State) : SameStreams s (regWrite r v s) := by
  unfold regWrite
  split
  · exact sameStreams_reject s
  · cases r with
    | cmd => exact absurd rfl hr
    | status =>
      show SameStreams s (s.writeStatus v)
      unfold State.writeStatus
      split <;> exact ⟨rfl, rfl, rfl, rfl, rfl⟩
    | nodeA => exact writeNodeWindow_sameStreams _ s
    | nodeB => exact writeNodeWindow_sameStreams _ s
    | _ => exact ⟨rfl, rfl, rfl, rfl, rfl⟩

/-- Only a 32-bit access at offset 0x04 reaches `CMD` (R13). -/
theorem accessReg_eq_cmd {off width : Nat} (h : accessReg off width = some .cmd) : off = 0x04 ∧ width = 32 := by
  unfold accessReg at h
  split at h
  · rename_i hw
    have : off / 4 = 1 := by
      generalize off / 4 = k at h ⊢
      unfold slotReg at h
      split at h <;> simp at h ⊢
    exact ⟨by omega, hw.1⟩
  · cases h

/-- R43, R90: what a host write does to the streams. -/
theorem busWrite_streams (off width : Nat) (v : Word) (s : State) :
    (off = 0x04 ∧ width = 32 ∧ s.ready ∧ CountsRestart s (busWrite off width v s)) ∨
      (¬(off = 0x04 ∧ width = 32 ∧ s.ready) ∧ SameStreams s (busWrite off width v s)) := by
  by_cases hc : accessReg off width = some .cmd
  · obtain ⟨rfl, rfl⟩ := accessReg_eq_cmd hc
    by_cases h : s.ready
    · exact .inl ⟨rfl, rfl, h, commandRequest_taken h v⟩
    · refine .inr ⟨fun h' => h h'.2.2, ?_⟩
      show SameStreams s (commandRequest v s)
      rw [commandRequest_dropped h]
      exact sameStreams_reject s
  · refine .inr ⟨?_, ?_⟩
    · rintro ⟨rfl, rfl, _⟩
      exact hc rfl
    · unfold busWrite
      split
      · rename_i r hr
        exact regWrite_sameStreams (fun e => hc (e ▸ hr)) v s
      · exact sameStreams_reject s

end Sys2Proof.Machine
end

