-- ==== Sys2Proof/Tests/Slice0.lean ====
section
/-! SUPPORT. The model's own tests. Expected values come from the vectors of spec/95_test_vectors.md and the words of
spec/30_encoding.md R61. The theorems named `witness_…` show, for each statement with hypotheses, a state and operands that
meet them together, clause by clause. -/

open Sys2Proof Sys2Proof.Machine

namespace Sys2Proof.Tests

/- Kernel evaluations one after another: many at once would each hold a thread. -/
set_option Elab.async false

/-! ### Small states -/

/-- An arena entry with every field 0. -/
def zeroNode : Node := { leaf := false, edge := 0, symbol := 0, left := 0, right := 0 }

/-- A code-table entry with every field 0. -/
def zeroEntry : CodeEntry := { len := 0, words := Vector.replicate 8 0 }

/-- An idle core as reset leaves its registers, with an arena and a code table of zeros. -/
def blank : State :=
  { State.atReset { regBase := 0, inDepthPred := 63, outDepthPred := 63 } 0 with
    arena := Vector.replicate 511 zeroNode
    table := Vector.replicate 256 zeroEntry }

/-- The entries 0 to 4 of the tree T3 of spec/95_test_vectors.md section 0. -/
def t3Node0 : Node := { leaf := false, edge := 0x00, symbol := 0, left := 1, right := 2 }
def t3Node1 : Node := { leaf := true, edge := 0x31, symbol := 0x61, left := 0, right := 0 }
def t3Node2 : Node := { leaf := false, edge := 0x30, symbol := 0, left := 3, right := 4 }
def t3Node3 : Node := { leaf := true, edge := 0x31, symbol := 0x62, left := 0, right := 0 }
def t3Node4 : Node := { leaf := true, edge := 0x30, symbol := 0x63, left := 0, right := 0 }

/-- The core with the tree T3 in its arena. -/
def loaded : State :=
  { blank with
    nodeCount := 5
    arena := ((((blank.arena.set 0 t3Node0).set 1 t3Node1).set 2 t3Node2).set 3 t3Node3).set 4 t3Node4
    lead := 64 }

/-- The tree T3. -/
def t3 : Tree := .internal 0x00 (.leaf 0x31 0x61) (.internal 0x30 (.leaf 0x31 0x62) (.leaf 0x30 0x63))

/-- `tree_bytes(T3)` as section 0 prints it. -/
def t3Bytes : List Byte := [0x49, 0x00, 0x4C, 0x31, 0x61, 0x49, 0x30, 0x4C, 0x31, 0x62, 0x4C, 0x30, 0x63]

/-- A code of `len` bits in the first word. -/
def shortCode (len : Byte) (w : Word) : CodeEntry := { len := len, words := (Vector.replicate 8 0).set 0 w }

/-- The core with the codes of T3: `a` = 1, `b` = 01, `c` = 00. -/
def coded : State :=
  { blank with
    table :=
      ((blank.table.set 0x61 (shortCode 1 0x80000000)).set 0x62 (shortCode 2 0x40000000)).set 0x63 (shortCode 2 0x00000000)
    symCount := 3
    inQ := feed [0x63, 0x61, 0x62] true
    lead := 64 }

/-- The core with a container at its input. -/
def fed (bs : List Byte) : State := { blank with inQ := feed bs true, lead := 64 }

/-- The core with a script of one turn. -/
def turning (s : State) (a : HostAction) (n : Nat) : State := { s with script := [{ action := a, lead := n }] }

/-- A field of the next state. -/
def view {α : Type} (f : State → α) : Result → Option α
  | .next t => some (f t)
  | .fault _ => none
  | .refused _ => none

/-- The same of an engine step. -/
def view? {α : Type} (f : State → α) : Option Result → Option α
  | some r => view f r
  | none => none

theorem next_of_view {α : Type} {f : State → α} {r : Result} {a : α} (h : view f r = some a) : ∃ t, r = .next t ∧ f t = a := by
  cases r with
  | next t => exact ⟨t, rfl, Option.some.inj h⟩
  | fault _ => cases h
  | refused _ => cases h

theorem next_of_view? {α : Type} {f : State → α} {r : Option Result} {a : α} (h : view? f r = some a) :
    ∃ t, r = some (.next t) ∧ f t = a := by
  cases r with
  | none => cases h
  | some r =>
    obtain ⟨t, rfl, ha⟩ := next_of_view h
    exact ⟨t, rfl, ha⟩

/-! ### Well-formedness -/

theorem test_wf_reserved_bits_refused : wordWellFormed 0x00000106 = false ∧ wordWellFormed 0x80000000 = false := by decide

theorem test_wf_opcode_refused : wordWellFormed 0x00000006 = false ∧ wordWellFormed 0x000000FF = false := by decide

theorem test_wf_defined_words : wordWellFormed 0x00000000 = true ∧ wordWellFormed 0x00000005 = true := by decide

theorem test_wf_config_digit_refused :
    Cfg.legal { separator := 0x30, internalMarker := 0x49 } = false ∧
      Cfg.legal { separator := 0x39, internalMarker := 0x49 } = false := by decide

theorem test_wf_config_marker_refused : Cfg.legal { separator := 0x20, internalMarker := 0x4C } = false := by decide

theorem test_wf_config_edges_legal :
    Cfg.legal { separator := 0x2F, internalMarker := 0x4B } = true ∧
      Cfg.legal { separator := 0x3A, internalMarker := 0x4D } = true := by decide

/-! ### Decoding: the words of R61 bit by bit -/

theorem test_decode_nop : decode 0b00000000000000000000000000000000 = .ok .nop := by decide
theorem test_decode_treeWrite : decode 0b00000000000000000000000000000001 = .ok .treeWrite := by decide
theorem test_decode_treeRead : decode 0b00000000000000000000000000000010 = .ok .treeRead := by decide
theorem test_decode_encode : decode 0b00000000000000000000000000000011 = .ok .encode := by decide
theorem test_decode_decode : decode 0b00000000000000000000000000000100 = .ok .decode := by decide
theorem test_decode_ctClear : decode 0b00000000000000000000000000000101 = .ok .ctClear := by decide

theorem test_decode_rejects_by_name :
    decode 0x00000006 = .error .badOpcode ∧ decode 0x00000106 = .error .reservedBits := by decide

theorem test_decodeTableWord : decodeTableWord 32 3 = some .encode ∧ decodeTableWord 32 0x01000003 = none := by decide

/-! ### One command each, as the first step -/

/-- R92's example: `STATUS` = 0x00000002. -/
theorem test_nop : view State.statusWord (step (blank.withFetchWord 32 0)) = some 0x00000002 := by decide +kernel

/-- NOP runs as the first step after reset. -/
theorem test_nop_from_reset : view (fun t => (t.status.done, t.busy)) (step (State.reset.withFetchWord 32 0)) =
    some (true, false) := by decide +kernel

/-- V-TW-1. -/
theorem test_treeWrite :
    view (fun t => (t.outQ, t.outCount, t.statusWord)) (step (loaded.withFetchWord 32 1)) =
      some (t3Bytes, 13, 0x00010002) := by decide +kernel

/-- V-TW-2: another internal marker. -/
theorem test_treeWrite_marker :
    view State.outQ
        (step ({ loaded with cfg := { separator := 0x20, internalMarker := 0x2B } }.withFetchWord 32 1)) =
      some [0x2B, 0x00, 0x4C, 0x31, 0x61, 0x2B, 0x30, 0x4C, 0x31, 0x62, 0x4C, 0x30, 0x63] := by decide +kernel

/-- V-TR-1. -/
theorem test_treeRead :
    view (fun t => (t.nodeCount, t.inCount, t.statusWord)) (step ((fed t3Bytes).withFetchWord 32 2)) =
      some (5, 13, 0x00020012) := by decide +kernel

/-- V-TR-1: the arena's entries 0 and 2. -/
theorem test_treeRead_arena :
    view (fun t => (t.node? 0, t.node? 2)) (step ((fed t3Bytes).withFetchWord 32 2)) =
      some (some t3Node0, some t3Node2) := by decide +kernel

/-- V-EN-2: 3 padding bits. -/
theorem test_encode :
    view (fun t => (t.outQ, t.symsLeft, t.inCount)) (step (coded.withFetchWord 32 3)) =
      some ([0x33, 0x20, 0x28], 0, 3) := by decide +kernel

/-- V-EN-6: MISSING_CODE, the accumulator's bits discarded. -/
theorem test_encode_missing_code :
    view (fun t => (t.outQ, t.statusWord, t.errInfo))
        (step ({ coded with inQ := feed [0x61, 0x62, 0x64] true }.withFetchWord 32 3)) =
      some ([0x33, 0x20], 0x00030414, 0x64) := by decide +kernel

/-- V-DE-1. -/
theorem test_decode :
    view (fun t => (t.outQ, t.inCount, t.statusWord)) (step ((fed (t3Bytes ++ [0x35, 0x20, 0xA5])).withFetchWord 32 4)) =
      some ([0x61, 0x62, 0x63, 0x61, 0x62], 16, 0x00040012) := by decide +kernel

/-- V-DE-12: a one-leaf tree takes one bit a symbol. -/
theorem test_decode_one_leaf :
    view State.outQ (step ((fed [0x4C, 0x00, 0x41, 0x33, 0x20, 0x00]).withFetchWord 32 4)) =
      some [0x41, 0x41, 0x41] := by decide +kernel

/-- R93: lengths cleared, code bits kept. -/
theorem test_ctClear :
    view (fun t => ((t.entry 0x61).len, (t.entry 0x61).words[0], t.status.done)) (step (coded.withFetchWord 32 5)) =
      some (0, 0x80000000, true) := by decide +kernel

/-! ### Host accesses -/

/-- Program P6: a request with reserved bits set records its cause and the word. -/
theorem test_illegal_request :
    (busWrite 0x04 32 0x106 blank).statusWord = 0x00062504 ∧ (busWrite 0x04 32 0x106 blank).errInfo = 0x106 := by
  decide +kernel

/-- The `NODE_A` and `NODE_B` words of T3's entries 4 and 2 (section 0). -/
theorem test_node_words :
    busRead 0x40 32 { loaded with nodeSel := 4 } = 0x00633001 ∧
      busRead 0x44 32 { loaded with nodeSel := 2 } = 0x00040003 := by decide +kernel

/-- R45: a narrow write is rejected, a misaligned read returns 0. -/
theorem test_bad_access : (busWrite 0x10 8 0 blank).status.rej = true ∧ busRead 0x02 32 blank = 0 := by decide +kernel

/-- A full `IN_Q` makes a `send` wait: the turn stays. -/
theorem test_send_waits :
    view (fun t => (t.inQ.length, t.script.length))
        (step (turning { blank with params := { blank.params with inDepthPred := 0 }, inQ := feed [7] false }
          (.send 8 true) 0)) = some (1, 1) := by decide +kernel

/-! ### Witnesses: encoding, requests and steps -/

theorem witness_DecodeAndEncodeAgree : Instr.wellFormed .ctClear = true ∧ decode 0x00000005 = .ok .ctClear := by decide

theorem witness_IllegalWordsRejectedByName :
    ((0x00000106 : Word).extractLsb' 8 24 ≠ 0) ∧
      ((0x00000006 : Word).extractLsb' 8 24 = 0 ∧ 0x06 ≤ ((0x00000006 : Word).extractLsb' 0 8).toNat) ∧
      ((0x00000005 : Word).extractLsb' 8 24 = 0 ∧ ((0x00000005 : Word).extractLsb' 0 8).toNat ≤ 0x05) := by decide

theorem witness_StepRunsTheDecodedCommand :
    (turning blank (.write 0x04 32 0x05) 2).script =
        { action := .write ((turning blank (.write 0x04 32 0x05) 2).params.regBase + 0x04) 32 0x05, lead := 2 } :: [] ∧
      decode 0x05 = .ok .ctClear ∧
      (turning blank (.write 0xFF 8 0x05) 2).script =
        { action := .write ((turning blank (.write 0xFF 8 0x05) 2).params.regBase + 0xFF) 8 0x05, lead := 2 } :: [] ∧
      (0xFF : Nat) < 0x100 ∧ ∀ i : Instr, decode 0x06 ≠ .ok i := by
  refine ⟨rfl, by decide, rfl, by decide, ?_⟩
  intro i
  cases i <;> decide

theorem witness_ready : blank.ready := ⟨rfl, rfl⟩

theorem witness_IllegalRequestRecordsItsCause :
    blank.ready ∧ (0x00000100 : Word).extractLsb' 8 24 ≠ 0 ∧
      ((0x000000FF : Word).extractLsb' 8 24 = 0 ∧ 0x05 < ((0x000000FF : Word).extractLsb' 0 8).toNat) ∧
      ((0x00000005 : Word).extractLsb' 8 24 = 0 ∧ ((0x00000005 : Word).extractLsb' 0 8).toNat ≤ 0x05) :=
  ⟨witness_ready, by decide, by decide, by decide⟩

/-- A core that runs NOP. -/
def running : State := blank.at .nop

/-- A core with an unacknowledged error, BAD_MARKER of the byte 0x58 (V-DE-16). -/
def failedCore : State := blank.failed 2 1 0x58

theorem witness_RequestDroppedWhileBusyOrErr :
    (running.busy = true ∧
      (turning running (.write 0x04 32 0x06) 0).script =
        { action := .write ((turning running (.write 0x04 32 0x06) 0).params.regBase + 0x04) 32 0x06, lead := 0 } :: []) ∧
      failedCore.status.err = true := ⟨⟨rfl, rfl⟩, rfl⟩

theorem witness_BadConfigRefusesTheCodecCommands :
    ({ blank with cfg := { separator := 0x30, internalMarker := 0x49 } } : State).ready ∧
      (0x30 ≤ (0x30 : Byte).toNat ∧ (0x30 : Byte).toNat ≤ 0x39) ∧ (0x30 ≤ (0x39 : Byte).toNat ∧ (0x39 : Byte).toNat ≤ 0x39) ∧
      ({ blank with cfg := { separator := 0x20, internalMarker := 0x4C } } : State).cfg.internalMarker = 0x4C :=
  ⟨⟨rfl, rfl⟩, by decide, by decide, rfl⟩

theorem witness_AcceptanceSetsBusy :
    blank.ready ∧ (usesCfg .decode = true → blank.cfg.legal = true) ∧ blank.lead = 0 ∧
      (usesCfg .nop = true → Cfg.legal { separator := 0x30, internalMarker := 0x4C } = true) :=
  ⟨witness_ready, by decide, rfl, by decide⟩

/-! ### Witnesses: completion -/

theorem witness_NopCompletes : ({ blank with lead := 1 } : State).ready ∧ 1 ≤ ({ blank with lead := 1 } : State).lead :=
  ⟨⟨rfl, rfl⟩, by decide⟩

theorem witness_CtClearCompletes : ({ coded with lead := 2 } : State).ready ∧ 2 ≤ ({ coded with lead := 2 } : State).lead :=
  ⟨⟨rfl, rfl⟩, by decide⟩

theorem loaded_node0 : loaded.node? 0 = some t3Node0 := by decide +kernel
theorem loaded_node1 : loaded.node? 1 = some t3Node1 := by decide +kernel
theorem loaded_node2 : loaded.node? 2 = some t3Node2 := by decide +kernel
theorem loaded_node3 : loaded.node? 3 = some t3Node3 := by decide +kernel
theorem loaded_node4 : loaded.node? 4 = some t3Node4 := by decide +kernel

theorem loaded_holds : loaded.holds t3 0 :=
  ⟨t3Node0, loaded_node0, rfl, rfl, by decide, by decide, ⟨t3Node1, loaded_node1, rfl, rfl, rfl⟩,
    ⟨t3Node2, loaded_node2, rfl, rfl, by decide, by decide, ⟨t3Node3, loaded_node3, rfl, rfl, rfl⟩,
      ⟨t3Node4, loaded_node4, rfl, rfl, rfl⟩⟩⟩

theorem t3_fits : t3.fits := by
  unfold Tree.fits
  decide

theorem witness_TreeWriteEmitsTheTree :
    loaded.ready ∧ loaded.cfg.legal = true ∧ loaded.nodeCount ≠ 0 ∧ loaded.holds t3 0 ∧ t3.fits ∧
      loaded.outQ.length + (treeBytes loaded.cfg.internalMarker t3).length ≤ loaded.params.outDepth ∧
      4 * t3.leaves + 3 * t3.internals + 2 ≤ loaded.lead :=
  ⟨⟨rfl, rfl⟩, by decide, by decide, loaded_holds, t3_fits, by decide, by decide⟩

theorem witness_TreeReadBuildsTheTree :
    (fed t3Bytes).ready ∧ (fed t3Bytes).cfg.legal = true ∧ t3.fits ∧
      (fed t3Bytes).inQ = feed (treeBytes (fed t3Bytes).cfg.internalMarker t3) true ++ [] ∧
      3 * t3.leaves + 2 * t3.internals + 2 ≤ (fed t3Bytes).lead :=
  ⟨⟨rfl, rfl⟩, by decide, t3_fits, by decide, by decide⟩

theorem witness_EncodeEmitsHeaderAndBitstream :
    coded.ready ∧ coded.cfg.legal = true ∧ coded.symCount.toNat = [0x63, 0x61, 0x62].length ∧
      coded.inQ = feed [0x63, 0x61, 0x62] true ++ [] ∧ (∀ x ∈ [0x63, 0x61, 0x62], (coded.entry x).len ≠ 0) ∧
      coded.outQ.length + (dec coded.symCount).length + 1 + (coded.bitstream [0x63, 0x61, 0x62]).length ≤
        coded.params.outDepth ∧
      (dec coded.symCount).length + [0x63, 0x61, 0x62].length + (coded.codeBits [0x63, 0x61, 0x62]).length +
        (coded.codeBits [0x63, 0x61, 0x62]).length / 8 + 4 ≤ coded.lead :=
  ⟨⟨rfl, rfl⟩, by decide, by decide, by decide, by decide +kernel, by decide +kernel, by decide +kernel⟩

/-- The container of V-DE-2, with the padding bits 111. -/
def cab : State := fed (t3Bytes ++ [0x33, 0x20, 0x2F])

/-- The codes of "cab" in T3. -/
def cabCodes : List (List Bool × Byte) := [([false, false], 0x63), ([true], 0x61), ([false, true], 0x62)]

theorem witness_DecodeEmitsTheSymbols :
    cab.ready ∧ cab.cfg.legal = true ∧ t3.fits ∧ ([0x33] : List Byte) ≠ [] ∧
      (∀ d ∈ ([0x33] : List Byte), 0x30 ≤ d.toNat ∧ d.toNat ≤ 0x39) ∧ digitsValue [0x33] = cabCodes.length ∧
      cabCodes.length < 2 ^ 64 ∧ (∀ p ∈ cabCodes, t3.codes p.1 p.2) ∧
      bytesBits [0x2F] = cabCodes.flatMap Prod.fst ++ [true, true, true] ∧ [true, true, true].length < 8 ∧
      cab.inQ =
        feed (treeBytes cab.cfg.internalMarker t3 ++ [0x33] ++ [cab.cfg.separator] ++ [0x2F]) true ++ [] ∧
      cab.outQ.length + cabCodes.length ≤ cab.params.outDepth ∧
      3 * t3.leaves + 2 * t3.internals + ([0x33] : List Byte).length + ([0x2F] : List Byte).length +
        (cabCodes.flatMap Prod.fst).length + cabCodes.length + 3 ≤ cab.lead := by
  refine ⟨⟨rfl, rfl⟩, by decide, t3_fits, by decide, by decide, by decide, by decide, ?_, by decide, by decide, by decide,
    by decide, by decide⟩
  intro p hp
  unfold t3 Tree.codes
  revert p
  decide

theorem witness_TreeWriteThenReadGivesTheTree :
    (loaded.ready ∧ loaded.holds t3 0 ∧ 4 * t3.leaves + 3 * t3.internals + 2 ≤ loaded.lead) ∧
      (fed t3Bytes).ready ∧ (fed t3Bytes).cfg = loaded.cfg ∧ (fed t3Bytes).inQ = feed t3Bytes true ++ [] ∧
      t3Bytes.length + 2 ≤ (fed t3Bytes).lead ∧ loaded.outQ.length + t3Bytes.length ≤ loaded.params.outDepth :=
  ⟨⟨⟨rfl, rfl⟩, loaded_holds, by decide⟩, ⟨rfl, rfl⟩, rfl, by decide, by decide, by decide⟩

theorem coded_codes : ∀ x ∈ ([0x63, 0x61, 0x62] : List Byte), t3.codes (coded.entry x).code x := by
  intro x hx
  unfold t3 Tree.codes
  revert x
  decide +kernel

theorem witness_EncodeThenDecodeGivesTheInput :
    (coded.ready ∧ coded.cfg.legal = true ∧ t3.fits ∧ coded.symCount.toNat = [0x63, 0x61, 0x62].length ∧
      coded.inQ = feed [0x63, 0x61, 0x62] true ++ [] ∧
      ∀ x ∈ ([0x63, 0x61, 0x62] : List Byte), t3.codes (coded.entry x).code x) ∧
      cab.ready ∧ cab.cfg = coded.cfg ∧
      bytesBits [0x2F] = coded.codeBits [0x63, 0x61, 0x62] ++ [true, true, true] ∧
      cab.inQ = feed (treeBytes coded.cfg.internalMarker t3 ++ dec coded.symCount ++ [coded.cfg.separator] ++ [0x2F]) true ++ [] ∧
      (treeBytes coded.cfg.internalMarker t3 ++ dec coded.symCount ++ [coded.cfg.separator] ++ [0x2F]).length +
        (coded.codeBits [0x63, 0x61, 0x62]).length + [0x63, 0x61, 0x62].length + 2 ≤ cab.lead :=
  ⟨⟨⟨rfl, rfl⟩, by decide, t3_fits, by decide, by decide, coded_codes⟩, ⟨rfl, rfl⟩, rfl, by decide +kernel, by decide +kernel,
    by decide +kernel⟩

/-! ### Witnesses: frames -/

theorem witness_CommandsKeepTheHostsRegisters : loaded.ready ∧ ∃ t, exec .treeWrite loaded = .next t ∧ t.outQ = t3Bytes :=
  ⟨⟨rfl, rfl⟩, next_of_view (f := State.outQ) (by decide +kernel)⟩

theorem witness_TreeWriteFrame : loaded.ready ∧ ∃ t, exec .treeWrite loaded = .next t ∧ t.status.done = true :=
  ⟨⟨rfl, rfl⟩, next_of_view (f := fun t => t.status.done) (by decide +kernel)⟩

theorem witness_TreeReadFrame : (fed t3Bytes).ready ∧ ∃ t, exec .treeRead (fed t3Bytes) = .next t ∧ t.nodeCount = 5 :=
  ⟨⟨rfl, rfl⟩, next_of_view (f := State.nodeCount) (by decide +kernel)⟩

theorem witness_EncodeFrame : coded.ready ∧ ∃ t, exec .encode coded = .next t ∧ t.status.done = true :=
  ⟨⟨rfl, rfl⟩, next_of_view (f := fun t => t.status.done) (by decide +kernel)⟩

theorem witness_DecodeFrame : cab.ready ∧ ∃ t, exec .decode cab = .next t ∧ t.status.done = true :=
  ⟨⟨rfl, rfl⟩, next_of_view (f := fun t => t.status.done) (by decide +kernel)⟩

theorem witness_HousekeepingFrame :
    coded.ready ∧ (∃ t, exec .nop coded = .next t ∧ t.status.done = true) ∧
      ∃ t, exec .ctClear coded = .next t ∧ t.status.done = true :=
  ⟨⟨rfl, rfl⟩, next_of_view (f := fun t => t.status.done) (by decide +kernel),
    next_of_view (f := fun t => t.status.done) (by decide +kernel)⟩

theorem witness_OperandsConstantWhileRunning :
    ((coded.at (.encode (.symbol 0 0))).engine.opr = some .encode ∧
      ∃ t, engineStep (coded.at (.encode .start)) = some (.next t) ∧ t.symsLeft = 3) ∧
      (loaded.at (.treeWrite .start)).engine.opr = some .treeWrite ∧
      (∃ t, engineStep (loaded.at (.treeWrite .start)) = some (.next t) ∧ t.busy = true) ∧ running.busy = true :=
  ⟨⟨rfl, next_of_view? (f := State.symsLeft) (by decide +kernel)⟩, rfl,
    next_of_view? (f := State.busy) (by decide +kernel), rfl⟩

/-! ### Witnesses: streams -/

/-- The input has ended while a command runs. -/
def ended (e : Engine) : State :=
  { blank.at e with status := { blank.status with inEnded := true }, symsLeft := 1 }

theorem witness_InputEndedRaisesTruncation :
    (ended (.treeRead (.parse (.marker [])))).status.inEnded = true ∧
      (ended (.treeRead (.parse (.marker [])))).needsInput = some .tree ∧
      (ended (.decode (.header 0 0))).needsInput = some .hdr ∧
      (ended (.decode (.body 0 .empty))).needsInput = some .bits ∧
      (ended (.encode (.symbol 0 0))).needsInput = some .sym := by decide +kernel

theorem witness_EngineStepMovesAtMostOneByte :
    (∃ t, engineStep (loaded.at (.treeWrite (.edge t3Node0 1 []))) = some (.next t) ∧ t.outQ = [0x00]) ∧
      (loaded.at (.treeWrite (.edge t3Node0 1 []))).nextOutput = some 0x00 ∧
      (∃ t, engineStep ((fed t3Bytes).at (.treeRead (.parse (.marker [])))) = some (.next t) ∧ t.inCount = 1) ∧
      ((fed t3Bytes).at (.treeRead (.parse (.marker [])))).needsInput.isSome = true ∧
      (∃ t, engineStep (ended (.decode (.header 0 0))) = some (.next t) ∧ t.inCount = 0) ∧
      (∃ t, engineStep running = some (.next t) ∧ t.busy = false) ∧ running.needsInput = none ∧ running.nextOutput = none :=
  ⟨next_of_view? (f := State.outQ) (by decide +kernel), by decide +kernel,
    next_of_view? (f := State.inCount) (by decide +kernel), by decide +kernel,
    next_of_view? (f := State.inCount) (by decide +kernel), next_of_view? (f := State.busy) (by decide +kernel), rfl, rfl⟩

/-- A core whose `IN_Q` of one entry is full. -/
def fullInput : State := { blank with params := { blank.params with inDepthPred := 0 }, inQ := feed [7] false }

theorem witness_SendEnqueuesOrWaits :
    (turning blank (.send 8 true) 3).script = { action := .send 8 true, lead := 3 } :: [] ∧
      blank.inQ.length < blank.params.inDepth ∧
      (turning fullInput (.send 8 true) 3).script = { action := .send 8 true, lead := 3 } :: [] ∧
      fullInput.params.inDepth ≤ fullInput.inQ.length := ⟨rfl, by decide, rfl, by decide⟩

/-- A core that writes T3 and whose `OUT_Q` holds one byte. -/
def writing : State := { loaded.at (.treeWrite .start) with outQ := [9] }

theorem witness_RecvDequeuesOrWaits :
    (turning writing .recv 3).script = { action := .recv, lead := 3 } :: [] ∧ (turning writing .recv 3).outQ = 9 :: [] ∧
      (turning blank .recv 3).outQ = [] := ⟨rfl, rfl, rfl⟩

theorem witness_TransfersAndDepthsDoNotChangeTheRun :
    (∃ t, runEngine 3 writing = .next t ∧ t.outQ = [9, 0x49]) ∧ writing.outQ = 9 :: [] ∧
      writing.params.outDepth ≤ Params.outDepth { regBase := 0x1000, inDepthPred := 0, outDepthPred := 63 } :=
  ⟨next_of_view (f := State.outQ) (by decide +kernel), rfl, by decide⟩

/-- A send with room, a send to a full `IN_Q`, a receive, a request that is taken, and one that is dropped. -/
theorem witness_NoByteIsLost :
    (∃ t, step (turning blank (.send 7 true) 0) = .next t ∧ t.inQ = [{ byte := 7, last := true }]) ∧
      (turning blank (.send 7 true) 0).hostSends = [{ byte := 7, last := true }] ∧
      (turning fullInput (.send 7 true) 0).hostSends = [] ∧ (turning writing .recv 3).hostTakes = [9] ∧
      (∃ t, step (turning writing .recv 3) = .next t ∧ t.received = [9]) ∧
      (turning blank (.write 0x04 32 0) 0).takesRequest ∧ ¬(turning running (.write 0x04 32 0) 0).takesRequest ∧
      ∀ s a k, a ≠ .rst → ∀ n rest, (turning s a k).script ≠ { action := .rst, lead := n } :: rest := by
  refine ⟨next_of_view (f := State.inQ) (by decide +kernel), by decide +kernel, by decide +kernel, by decide +kernel,
    next_of_view (f := State.received) (by decide +kernel), ⟨witness_ready, _, _, _, rfl⟩,
    fun h => absurd h.1.1 (by decide), ?_⟩
  intro s a k ha n rest h
  injection h with h _
  injection h with h _
  exact ha h

/-! ### Witnesses: errors -/

theorem witness_TreeWriteOfEmptyArenaFails :
    ({ blank with lead := 1 } : State).ready ∧ blank.cfg.legal = true ∧ blank.nodeCount = 0 ∧
      1 ≤ ({ blank with lead := 1 } : State).lead := ⟨⟨rfl, rfl⟩, by decide, rfl, by decide⟩

/-- 254 stack entries. -/
def stack254 : Stack := List.replicate 254 { idx := 0, side := .right }

/-- R79 at its edges, for the node 2 of five: a leaf, `LEFT` = 2, `RIGHT` = 5, and both legal with 255 or 254 pending. -/
theorem witness_TreeWriteVisitChecks :
    (loaded.at (.treeWrite (.visit 2 511 []))).engine = .treeWrite (.visit 2 511 []) ∧
      (loaded.node? 1 = some t3Node1 ∧ t3Node1.leaf = true ∧ (510 : Nat) ≠ 511) ∧
      ({ t3Node2 with left := 2 }.leaf = false ∧ ¬((2 : NodeIdx).toNat < ({ t3Node2 with left := 2 } : Node).left.toNat)) ∧
      (({ t3Node2 with right := 5 } : Node).leaf = false ∧
        ¬(({ t3Node2 with right := 5 } : Node).right.toNat < loaded.nodeCount.toNat)) ∧
      (loaded.node? 2 = some t3Node2 ∧ t3Node2.leaf = false ∧ (2 : NodeIdx).toNat < t3Node2.left.toNat ∧
        t3Node2.left.toNat < loaded.nodeCount.toNat ∧ (2 : NodeIdx).toNat < t3Node2.right.toNat ∧
        t3Node2.right.toNat < loaded.nodeCount.toNat) ∧
      (⟨0, .right⟩ :: stack254).length = 255 ∧ stack254.length ≠ 255 :=
  ⟨rfl, ⟨loaded_node1, rfl, by decide⟩, ⟨rfl, by decide⟩, ⟨rfl, by decide⟩,
    ⟨loaded_node2, rfl, by decide, by decide, by decide, by decide⟩, by decide +kernel, by decide +kernel⟩

/-- TREE_READ before a marker, with `bs` at its input. -/
def atMarker (bs : List Byte) : State := (fed bs).at (.treeRead (.parse (.marker [])))

theorem witness_ParseTreeMarkerChecks :
    ({ atMarker [] with nodeCount := 511 } : State).nodeCount = 511 ∧
      ((atMarker [0x58]).engine = .treeRead (.parse (.marker [])) ∧ (atMarker [0x58]).nodeCount ≠ 511 ∧
        (atMarker [0x58]).status.inEnded = false ∧ (atMarker [0x58]).inQ = { byte := 0x58, last := true } :: [] ∧
        (0x58 : Byte) ≠ 0x4C ∧ 0x58 ≠ (atMarker [0x58]).cfg.internalMarker) ∧
      (atMarker [0x49]).inQ = { byte := 0x49, last := true } :: [] ∧ 0x49 = (atMarker [0x49]).cfg.internalMarker :=
  ⟨rfl, ⟨rfl, by decide, rfl, rfl, by decide, by decide⟩, rfl, rfl⟩

/-- DECODE before the edge byte of an internal node under 255 pending ancestors. -/
def deep : State :=
  { (fed [7]).at (.decode (.parse (.edge ({ idx := 0, side := .left } :: stack254) 0x49))) with nodeCount := 300 }

theorem witness_ParseTreeStackOverflow :
    deep.engine = .decode (.parse (.edge ({ idx := 0, side := .left } :: stack254) 0x49)) ∧ (0x49 : Byte) ≠ 0x4C ∧
      deep.status.inEnded = false ∧ deep.inQ = { byte := 7, last := true } :: [] ∧ deep.nodeCount ≠ 511 ∧
      stackOk deep ({ idx := 0, side := .left } :: stack254) ∧ stack254.length = 254 := by
  refine ⟨rfl, by decide, rfl, rfl, by decide, ⟨by decide +kernel, ?_⟩, by decide +kernel⟩
  decide +kernel

/-- DECODE in its header, with the byte `b` next. -/
def inHeader (hv : Count) (hd : Nat) (b : Byte) : State := (fed [b]).at (.decode (.header hv hd))

/-- The edges of R86: the last digit of 2^64 - 1 and of 2^64 (V-DE-10, V-DE-11), and a first or later non-digit. -/
theorem witness_HeaderByteRules :
    ((inHeader 1844674407370955161 19 0x36).engine = .decode (.header 1844674407370955161 19) ∧
      (inHeader 1844674407370955161 19 0x36).status.inEnded = false ∧
      (inHeader 1844674407370955161 19 0x36).inQ = { byte := 0x36, last := true } :: []) ∧
      (0x39 : Byte).toNat ≤ 0x39 ∧
      2 ^ 64 - 1 < (1844674407370955161 : Count).toNat * 10 + ((0x36 : Byte).toNat - 0x30) ∧
      (1844674407370955161 : Count).toNat * 10 + ((0x35 : Byte).toNat - 0x30) ≤ 2 ^ 64 - 1 ∧
      (0x2F : Byte).toNat < 0x30 ∧ 0x39 < (0x3A : Byte).toNat ∧ 0x3A ≠ blank.cfg.separator ∧ 0x20 = blank.cfg.separator :=
  ⟨⟨rfl, rfl, rfl⟩, by decide, by decide, by decide, by decide, by decide, by decide, rfl⟩

/-- ENCODE before its last symbol, with `bs` at its input. -/
def atSymbol (bs : List Byte) : State := { (fed bs).at (.encode (.symbol 5 3)) with symsLeft := 1 }

theorem witness_SymbolWithoutCodeIsMissingCode :
    (atSymbol [0x64]).engine = .encode (.symbol 5 3) ∧ (atSymbol [0x64]).symsLeft ≠ 0 ∧
      (atSymbol [0x64]).status.inEnded = false ∧ (atSymbol [0x64]).inQ = { byte := 0x64, last := true } :: [] ∧
      ((atSymbol [0x64]).entry 0x64).len = 0 := ⟨rfl, by decide, rfl, rfl, by decide +kernel⟩

/-- DECODE in its body over T3, at the node 2, with one bit left in `CUR`. -/
def walking : State := { loaded.at (.decode (.body 2 (.bits 0x2F 1))) with symsLeft := 1 }

theorem witness_WalkDescendsLeftOnOne :
    walking.engine = .decode (.body 2 (.bits 0x2F (0 + 1))) ∧ walking.symsLeft ≠ 0 ∧ walking.node? 0 = some t3Node0 ∧
      t3Node0.leaf = false ∧ walking.node? 2 = some t3Node2 ∧
      walking.node? (if (0x2F : Byte).getLsbD 0 then t3Node2.left else t3Node2.right) = some t3Node3 :=
  ⟨rfl, by decide, loaded_node0, rfl, loaded_node2, by decide +kernel⟩

/-- DECODE in its body over a one-leaf tree, with all eight bits of `CUR` left. -/
def walkingLeaf : State :=
  { blank.at (.decode (.body 0 (.bits 0x00 8))) with symsLeft := 3, nodeCount := 1, arena := blank.arena.set 0 t3Node1 }

theorem witness_OneLeafTreeTakesOneBitASymbol :
    walkingLeaf.engine = .decode (.body 0 (.bits 0x00 (7 + 1))) ∧ walkingLeaf.symsLeft ≠ 0 ∧
      walkingLeaf.node? 0 = some t3Node1 ∧ t3Node1.leaf = true := ⟨rfl, by decide, by decide +kernel, rfl⟩

/-! ### Witnesses: the invariant -/

theorem running_inv : Inv running where
  inFits := by decide
  outFits := by decide
  notBoth := by decide
  busyClean := fun _ => ⟨rfl, rfl⟩
  noErrZero := fun _ => ⟨rfl, rfl, rfl⟩
  errListed := fun h => absurd h (by decide)
  cfgLegal := fun i h hu => by
    cases h
    cases hu
  engine := trivial

theorem failedCore_inv : Inv failedCore where
  inFits := by decide
  outFits := by decide
  notBoth := by decide
  busyClean := fun h => absurd h (by decide)
  noErrZero := fun h => absurd h (by decide)
  errListed := fun _ => ⟨.badMarker, rfl, rfl⟩
  cfgLegal := fun i h _ => by cases h
  engine := trivial

theorem witness_RunningCommandEndsInDoneOrErr :
    Inv running ∧ running.busy = true ∧ (∀ n rest, running.script ≠ { action := .rst, lead := n } :: rest) ∧
      ∃ t, step running = .next t ∧ t.busy = false := by
  refine ⟨running_inv, rfl, ?_, next_of_view (f := State.busy) (by decide +kernel)⟩
  intro n rest h
  cases h

theorem witness_ErrorStandsUntilAcknowledged :
    Inv failedCore ∧ failedCore.status.err = true ∧ ∃ t, step failedCore = .next t ∧ t.errInfo = 0x58 :=
  ⟨failedCore_inv, rfl, next_of_view (f := State.errInfo) (by decide +kernel)⟩

theorem witness_EveryStepKeepsTheInvariant : Inv running ∧ ∃ t, step running = .next t ∧ t.status.done = true :=
  ⟨running_inv, next_of_view (f := fun t => t.status.done) (by decide +kernel)⟩

theorem witness_NoStepStopsTheMachine : Inv running ∧ Inv failedCore := ⟨running_inv, failedCore_inv⟩

/-! ### Witnesses: the host registers -/

theorem witness_StatusWriteIsWriteOneToClear :
    (0x0000000E : Word).getLsbD 2 = true ∧ (0x0000000A : Word).getLsbD 2 = false := by decide

theorem witness_WrittenRegisterReadsBack :
    ({ blank with nodeSel := 510 } : State).busy = false ∧ ({ blank with nodeSel := 510 } : State).nodeSel ≠ 511 :=
  ⟨rfl, by decide⟩

theorem witness_IdleWriteRegistersRejectWhileBusy : running.busy = true := rfl

/-- R45, a state and an access for each of its four kinds, at the ends of their ranges. -/
theorem witness_BadAccessReadsZeroAndRejects :
    (31 : Nat) ≠ 32 ∧ (0x01 : Nat) % 4 ≠ 0 ∧ (0x54 ≤ (0x54 : Nat) ∧ (0x54 : Nat) < 0x100) ∧
      (0x54 ≤ (0xFC : Nat) ∧ (0xFC : Nat) < 0x100) ∧
      ((0x44 : Nat) < 0x100 ∧ ({ blank with nodeSel := 511 } : State).nodeSel = 511) :=
  ⟨by decide, by decide, by decide, by decide, by decide, rfl⟩

theorem witness_ReadsHaveNoSideEffect :
    (0xFF : Nat) < 0x100 ∧
      (turning blank (.read 0xFF 16) 0).script =
        { action := .read ((turning blank (.read 0xFF 16) 0).params.regBase + 0xFF) 16, lead := 0 } :: [] ∧
      loaded.node? loaded.nodeSel = some t3Node0 :=
  ⟨by decide, rfl, by decide +kernel⟩

/-- The first and the last bit of word 7, a bit of another word, and another symbol. -/
theorem witness_CtWordHoldsTheCodeBits :
    ({ blank with ctSel := { sym := 0x41, word := 7 } } : State).busy = false ∧
      (224 : Byte).toNat / 32 = (7 : BitVec 3).toNat ∧ (255 : Byte).toNat / 32 = (7 : BitVec 3).toNat ∧
      (223 : Byte).toNat / 32 ≠ (7 : BitVec 3).toNat ∧ (0x42 : Byte) ≠ 0x41 :=
  ⟨rfl, by decide, by decide, by decide, by decide⟩

theorem witness_HostWritesConstructNodes : blank.busy = false ∧ (510 : NodeIdx) ≠ 511 ∧ (0 : NodeIdx) ≠ 510 :=
  ⟨rfl, by decide, by decide⟩

theorem witness_IrqFollowsDoneAndErr :
    (0x00000002 : Word).getLsbD 1 = true ∧ (0x00000004 : Word).getLsbD 2 = true ∧ (0x00000002 : Word).getLsbD 0 = false ∧
      (0x00000001 : Word).getLsbD 1 = false ∧ blank.ready := ⟨by decide, by decide, by decide, by decide, witness_ready⟩

theorem witness_ResetGivesTheResetValues :
    (turning writing .rst 5).script = { action := .rst, lead := 5 } :: [] := rfl

/-! ### Witnesses: the container -/

theorem witness_TreeBytesLength : t3.leaves ≤ 256 := by decide

theorem witness_TreesOfTheSourceFit : t3.leaves ≤ 256 ∧ (Tree.leaf 0 0x41).leaves ≤ 256 := by decide

theorem witness_PackedBytesHoldTheBits :
    5 = (([0x63, 0x61, 0x62] : List Byte).map fun x => (coded.entry x).len.toNat).sum ∧
      (1 : Byte).toNat < (coded.entry 0x62).len.toNat := by decide +kernel

end Sys2Proof.Tests
end

/-! Where the engine can wait: a step of a running command has one of three forms, and two of them wait for the
host (R9, R51, R52). -/

namespace Sys2Proof.Machine

/-! ### When a transfer waits -/

/-- R51: an `InPop` waits exactly for input that has not ended, if what follows it always answers. -/
theorem inPop_eq_none_iff {p : Phase} {s : State} {k : Byte → State → Option Result}
    (hk : ∀ b u, (k b u).isSome = true) : inPop p s k = none ↔ s.status.inEnded = false ∧ s.inQ = [] := by
  constructor
  · intro h
    cases hend : s.status.inEnded with
    | true => simp [inPop_ended hend] at h
    | false =>
      cases hq : s.inQ with
      | nil => exact ⟨rfl, rfl⟩
      | cons e q =>
        rw [inPop_cons hend hq] at h
        simpa [h] using hk e.byte (taken e q s)
  · rintro ⟨hend, hq⟩
    exact inPop_empty hend hq p k

/-- R52: an `OutPush` waits exactly for room in `OUT_Q`, if what follows it always answers. -/
theorem outPush_eq_none_iff {b : Byte} {s : State} {k : State → Option Result} (hk : ∀ u, (k u).isSome = true) :
    outPush b s k = none ↔ s.params.outDepth ≤ s.outQ.length := by
  constructor
  · intro h
    by_contra hroom
    rw [outPush_room (Nat.lt_of_not_le hroom)] at h
    simpa [h] using hk (pushed b s)
  · intro hfull
    exact outPush_full hfull b k

/-! ### The form of a step -/

/-- The form of a step in `s`, by the phase of its input, the byte it puts out and its answer: it moves no byte, or it is
an `InPop`, or it is an `OutPush`; apart from the transfer it always answers (R54). -/
inductive StepForm (s : State) : Option Phase → Option Byte → Option Result → Prop where
  | acts (r : Result) : StepForm s none none (some r)
  | pops (p : Phase) (k : Byte → State → Option Result) (hk : ∀ b u, (k b u).isSome = true) :
      StepForm s (some p) none (inPop p s k)
  | pushes (b : Byte) (k : State → Option Result) (hk : ∀ u, (k u).isSome = true) :
      StepForm s none (some b) (outPush b s k)

theorem StepForm.eq_none_iff {s : State} {i : Option Phase} {o : Option Byte} {a : Option Result}
    (h : StepForm s i o a) :
    a = none ↔
      (i.isSome = true ∧ s.status.inEnded = false ∧ s.inQ = []) ∨ (o.isSome = true ∧ s.params.outDepth ≤ s.outQ.length) := by
  cases h with
  | acts r => simp
  | pops p k hk => simp [inPop_eq_none_iff hk]
  | pushes b k hk => simp [outPush_eq_none_iff hk]

theorem parseStep_form (wrap : ParsePos → Engine) (after : Engine) (p : ParsePos) (s : State) :
    StepForm s (parseNeeds s p) none (parseStep wrap after p s) := by
  cases p with
  | marker stk =>
    simp only [parseNeeds, parseStep, parseMarker]
    split
    · exact .acts _
    · refine .pops _ _ fun b u => ?_
      split <;> rfl
  | edge stk m =>
    simp only [parseNeeds, parseStep, parseEdge]
    refine .pops _ _ fun b u => ?_
    split <;> rfl
  | symbol stk e =>
    simp only [parseNeeds, parseStep, parseSymbol]
    exact .pops _ _ fun _ _ => rfl

theorem treeReadStep_form {p : TreeReadPos} {s : State} (hE : s.engine = .treeRead p) :
    StepForm s s.needsInput s.nextOutput (treeReadStep p s) := by
  cases p <;> simp only [State.needsInput, State.nextOutput, hE, treeReadStep]
  case start | finish => exact .acts _
  case parse q => exact parseStep_form _ _ q s

theorem treeWriteStep_form {p : TreeWritePos} {s : State} (hE : s.engine = .treeWrite p) :
    StepForm s s.needsInput s.nextOutput (treeWriteStep p s) := by
  cases p <;> simp only [State.needsInput, State.nextOutput, hE, treeWriteStep]
  case start => split <;> exact .acts _
  case visit | finish => exact .acts _
  case marker | edge | symbol => exact .pushes _ _ fun _ => rfl

/-- With symbols left ENCODE needs one; with none left it pushes the padded final byte, if there is one. -/
theorem encodeSymbol_form {acc : Byte} {accN : Nat} {s : State} (hE : s.engine = .encode (.symbol acc accN)) :
    StepForm s s.needsInput s.nextOutput (encodeSymbol acc accN s) := by
  simp only [State.needsInput, State.nextOutput, hE, encodeSymbol]
  by_cases hz : s.symsLeft = 0
  · by_cases ha : accN = 0
    · simpa only [hz, ha, ne_eq, not_true_eq_false, and_false, if_true, if_false] using .acts _
    · simpa only [hz, ha, ne_eq, not_false_eq_true, and_true, if_true, if_false] using
        .pushes (padByte acc accN) _ fun _ => rfl
  · simp only [hz, false_and, if_false]
    refine .pops _ _ fun b u => ?_
    split <;> rfl

theorem encodeStep_form {p : EncodePos} {s : State} (hE : s.engine = .encode p) :
    StepForm s s.needsInput s.nextOutput (encodeStep p s) := by
  cases p with
  | symbol acc accN => exact encodeSymbol_form hE
  | digits rest =>
    cases rest <;> simp only [State.needsInput, State.nextOutput, hE, encodeStep] <;>
      exact .pushes _ _ fun _ => rfl
  | flush sym len j acc =>
    simp only [State.needsInput, State.nextOutput, hE, encodeStep]
    exact .pushes _ _ fun _ => rfl
  | start | bit | finish =>
    simp only [State.needsInput, State.nextOutput, hE, encodeStep]
    exact .acts _

/-- With symbols left DECODE needs a byte of the bitstream, unless the cursor holds a bit. -/
theorem decodeBody_form {ptr : NodeIdx} {cur : Cursor} {s : State} (hE : s.engine = .decode (.body ptr cur)) :
    StepForm s s.needsInput s.nextOutput (decodeBody ptr cur s) := by
  cases cur <;> simp only [State.needsInput, State.nextOutput, hE, decodeBody] <;> split
  case empty.isFalse => exact .pops _ _ fun _ _ => rfl
  all_goals exact .acts _

theorem decodeStep_form {p : DecodePos} {s : State} (hE : s.engine = .decode p) :
    StepForm s s.needsInput s.nextOutput (decodeStep p s) := by
  cases p with
  | body ptr cur => exact decodeBody_form hE
  | start =>
    simp only [State.needsInput, State.nextOutput, hE, decodeStep]
    exact .acts _
  | parse q =>
    simp only [State.needsInput, State.nextOutput, hE, decodeStep]
    exact parseStep_form _ _ q s
  | header hv hd =>
    simp only [State.needsInput, State.nextOutput, hE, decodeStep]
    exact .pops _ _ fun _ _ => rfl
  | emit sym ptr cur =>
    simp only [State.needsInput, State.nextOutput, hE, decodeStep]
    exact .pushes _ _ fun _ => rfl

/-- The one fact about waits: a step of a running command makes the transfer that `needsInput` and `nextOutput` name, and
answers but for that transfer. -/
theorem engineStep_form {s : State} (h : s.busy = true) :
    StepForm s s.needsInput s.nextOutput (engineStep s) := by
  cases hE : s.engine with
  | idle => simp [State.busy, Engine.running, hE] at h
  | nop =>
    simp only [State.needsInput, State.nextOutput, engineStep, hE]
    exact .acts _
  | treeWrite p =>
    simp only [engineStep, hE]
    exact treeWriteStep_form hE
  | treeRead p =>
    simp only [engineStep, hE]
    exact treeReadStep_form hE
  | encode p =>
    simp only [engineStep, hE]
    exact encodeStep_form hE
  | decode p =>
    simp only [engineStep, hE]
    exact decodeStep_form hE
  | ctClear p =>
    simp only [State.needsInput, State.nextOutput, engineStep, hE]
    cases p <;> exact .acts _

/-- R16: `BUSY` is 0 exactly while no command runs. -/
theorem busy_eq_false_iff {s : State} : s.busy = false ↔ s.engine = .idle := by
  unfold State.busy
  cases s.engine <;> simp [Engine.running]

/-- Settles O25: an idle engine takes no step, and a running one makes a step whose form says where it waits. -/
theorem engineWaitsOnlyAtTheStreams : Obligations.EngineWaitsOnlyAtTheStreams := by
  unfold Obligations.EngineWaitsOnlyAtTheStreams
  intro s
  cases hb : s.busy with
  | false => simp [engineStep_idle (busy_eq_false_iff.mp hb)]
  | true =>
    rw [(engineStep_form hb).eq_none_iff]
    simp only [Bool.true_eq_false, false_or]

end Sys2Proof.Machine

/-! One step of the machine, said once: the host's transition of its next turn, and then a run of engine steps
(R54, R72). -/

namespace Sys2Proof.Machine

/-! ### Host writes -/

/-- R90: a command's meaning is its request and then the turn's engine steps. -/
theorem exec_eq_runEngine_issue (i : Instr) (s : State) : exec i s = runEngine s.lead (issue i s) := by
  cases i <;> rfl

/-- R39: the window holds 0x100 bytes from `REG_BASE` on. -/
theorem offset?_regBase_add (p : Params) {off : Nat} (h : off < 0x100) : p.offset? (p.regBase + off) = some off := by
  have hwin : p.regBase ≤ p.regBase + off ∧ p.regBase + off < p.regBase + 0x100 := by omega
  rw [Params.offset?, if_pos hwin, Nat.add_sub_cancel_left]

/-- R90: a write to `CMD` of a word that stands for a command requests it. -/
theorem busWrite_cmd_of_decode {w : Word} {i : Instr} (h : decode w = .ok i) (s : State) :
    busWrite 0x04 32 w s = issue i s := by
  show commandRequest w s = issue i s
  simp only [commandRequest, h]

/-- R54: a write in the window, to `CMD` or elsewhere, is its one transition and then the turn's engine steps. -/
theorem writeTurn_of_window {addr off : Nat} {s : State} (h : s.params.offset? addr = some off) (width : Nat)
    (v : Word) : writeTurn exec addr width v s = runEngine s.lead (busWrite off width v s) := by
  simp only [writeTurn, h]
  split
  · rename_i i hreg hdec
    obtain ⟨rfl, rfl⟩ := accessReg_eq_cmd hreg
    rw [exec_eq_runEngine_issue, busWrite_cmd_of_decode hdec]
  · rfl

/-- The step of a turn that writes in the window. -/
theorem step_of_write {s : State} {off width n : Nat} {w : Word} {rest : List Turn} (hoff : off < 0x100)
    (hs : s.script = { action := .write (s.params.regBase + off) width w, lead := n } :: rest) :
    step s = runEngine n (busWrite off width w { s with script := rest, lead := n }) := by
  simp only [step, machineStep, hs, takeTurn]
  exact writeTurn_of_window (s := beginTurn _ rest s) (offset?_regBase_add s.params hoff) width w

/-! ### Every host transition -/

/-- `HostMove s n u`: the host's next turn in `s` takes the machine to `u`, and up to `n` engine steps follow.
With no turn left, or one that must wait, the host makes no move but a poll and the engine takes one step. -/
inductive HostMove (s : State) : Nat → State → Prop where
  | noTurn (hs : s.script = []) : HostMove s 1 s
  | writesOutside {addr width : Nat} {v : Word} {n : Nat} {rest : List Turn}
      (hs : s.script = { action := .write addr width v, lead := n } :: rest) (ho : s.params.offset? addr = none) :
      HostMove s n (beginTurn { action := .write addr width v, lead := n } rest s)
  | writes {addr width : Nat} {v : Word} {n : Nat} {rest : List Turn} {off : Nat}
      (hs : s.script = { action := .write addr width v, lead := n } :: rest) (ho : s.params.offset? addr = some off) :
      HostMove s n (busWrite off width v (beginTurn { action := .write addr width v, lead := n } rest s))
  | readsOutside {addr width n : Nat} {rest : List Turn}
      (hs : s.script = { action := .read addr width, lead := n } :: rest) (ho : s.params.offset? addr = none) :
      HostMove s n (beginTurn { action := .read addr width, lead := n } rest s)
  | reads {addr width n : Nat} {rest : List Turn} {off : Nat}
      (hs : s.script = { action := .read addr width, lead := n } :: rest) (ho : s.params.offset? addr = some off) :
      HostMove s n
        { beginTurn { action := .read addr width, lead := n } rest s with
          reads := s.reads ++ [busRead off width (beginTurn { action := .read addr width, lead := n } rest s)] }
  | sends {b : Byte} {last : Bool} {n : Nat} {rest : List Turn}
      (hs : s.script = { action := .send b last, lead := n } :: rest) (room : s.inQ.length < s.params.inDepth) :
      HostMove s n (enqueue { byte := b, last := last } (beginTurn { action := .send b last, lead := n } rest s))
  | sendWaits {b : Byte} {last : Bool} {n : Nat} {rest : List Turn}
      (hs : s.script = { action := .send b last, lead := n } :: rest) (full : ¬s.inQ.length < s.params.inDepth) :
      HostMove s 1 s
  | receives {n : Nat} {rest : List Turn} {b : Byte} {q : List Byte}
      (hs : s.script = { action := .recv, lead := n } :: rest) (hq : s.outQ = b :: q) :
      HostMove s n (dequeue b q (beginTurn { action := .recv, lead := n } rest s))
  | recvWaits {n : Nat} {rest : List Turn} (hs : s.script = { action := .recv, lead := n } :: rest)
      (hq : s.outQ = []) : HostMove s 1 s
  | pollsBusy {n : Nat} {rest : List Turn} (hs : s.script = { action := .waitIdle, lead := n } :: rest)
      (hb : s.busy = true) : HostMove s 1 (poll s)
  | pollsIdle {n : Nat} {rest : List Turn} (hs : s.script = { action := .waitIdle, lead := n } :: rest)
      (hb : s.busy = false) : HostMove s n (poll (beginTurn { action := .waitIdle, lead := n } rest s))
  | resets {n : Nat} {rest : List Turn} (hs : s.script = { action := .rst, lead := n } :: rest) :
      HostMove s n (resetCore (beginTurn { action := .rst, lead := n } rest s))
  | pauses {n : Nat} {rest : List Turn} (hs : s.script = { action := .pause, lead := n } :: rest) :
      HostMove s n (beginTurn { action := .pause, lead := n } rest s)

/-- A step is a host transition and then a run of engine steps. -/
theorem step_eq_runEngine (s : State) : ∃ n u, HostMove s n u ∧ step s = runEngine n u := by
  unfold step machineStep
  cases hs : s.script with
  | nil => exact ⟨_, _, .noTurn hs, rfl⟩
  | cons t rest =>
    obtain ⟨action, n⟩ := t
    cases action with
    | write addr width v =>
      cases ho : s.params.offset? addr with
      | none =>
        refine ⟨_, _, .writesOutside hs ho, ?_⟩
        simp only [takeTurn, writeTurn, beginTurn_params, ho, beginTurn_lead]
      | some off => exact ⟨_, _, .writes hs ho, writeTurn_of_window (s := beginTurn _ rest s) ho width v⟩
    | read addr width =>
      cases ho : s.params.offset? addr with
      | none =>
        refine ⟨_, _, .readsOutside hs ho, ?_⟩
        simp only [takeTurn, readTurn, beginTurn_params, ho, beginTurn_lead]
      | some off =>
        refine ⟨_, _, .reads hs ho, ?_⟩
        simp only [takeTurn, readTurn, beginTurn_params, ho, beginTurn_lead]
        rfl
    | send b last =>
      by_cases room : s.inQ.length < s.params.inDepth
      · exact ⟨_, _, .sends hs room, by simp only [takeTurn, if_pos room]⟩
      · exact ⟨_, _, .sendWaits hs room, by simp only [takeTurn, if_neg room]⟩
    | recv =>
      cases hq : s.outQ with
      | nil => exact ⟨_, _, .recvWaits hs hq, by simp only [takeTurn, hq]⟩
      | cons b q => exact ⟨_, _, .receives hs hq, by simp only [takeTurn, hq]⟩
    | waitIdle =>
      cases hb : s.busy with
      | true => exact ⟨_, _, .pollsBusy hs hb, by simp only [takeTurn, hb, if_true]⟩
      | false => exact ⟨_, _, .pollsIdle hs hb, by simp only [takeTurn, hb, Bool.false_eq_true, if_false]⟩
    | rst => exact ⟨_, _, .resets hs, rfl⟩
    | pause => exact ⟨_, _, .pauses hs, rfl⟩

/-! ### The steps of a written command -/

/-- Settles O4: a write in the window is its transition and the turn's engine steps, for a command its `exec`. -/
theorem stepRunsTheDecodedCommand : Obligations.StepRunsTheDecodedCommand := by
  unfold Obligations.StepRunsTheDecodedCommand
  intro s off width w n rest hoff hs
  refine ⟨?_, fun _ => step_of_write hoff hs⟩
  rintro i rfl rfl hdec
  rw [step_of_write hoff hs, busWrite_cmd_of_decode hdec, exec_eq_runEngine_issue]

/-- A word of the opcode table 32 bits wide is the word itself. -/
theorem tableWord_toNat (w : Word) : tableWord 32 w.toNat = w := by
  rw [tableWord, Nat.mod_eq_of_lt w.isLt, BitVec.ofNat_toNat, BitVec.setWidth_eq]

/-- R61: the word of a command decodes to it. -/
theorem decode_encode (i : Instr) : decode (encode i) = .ok i := by
  cases i <;> decide

/-- Settles O5: the placed turn is a write of the command's word to `CMD`, so O4 applies. -/
theorem placedCommandRunsNext : Obligations.PlacedCommandRunsNext := by
  unfold Obligations.PlacedCommandRunsNext
  intro s i
  have hdec : decode (tableWord 32 (encode i).toNat) = .ok i := by rw [tableWord_toNat, decode_encode]
  exact (stepRunsTheDecodedCommand (s.withFetchWord 32 (encode i).toNat) 0x04 32 _ fetchLead s.script (by decide) rfl).1
    i rfl rfl hdec

end Sys2Proof.Machine

/-! Every step keeps the invariant of the machine, and none stops it: the engine's steps by what `engineStep_effect` and
`engineStep_ok` say of them, the host's transitions by which part of the state each can reach (R16, R36, R37, R44). -/

namespace Sys2Proof.Machine

/-! ### The parts of the invariant -/

/-- R16, R19, R94: what the invariant asks of the error record and `DONE`, whether or not a command runs. -/
structure FlagsOk (st : Status) (info : Word) : Prop where
  notBoth : ¬(st.done = true ∧ st.err = true)
  noErrZero : st.err = false → st.errCode = 0 ∧ st.errDetail = 0 ∧ info = 0
  errListed : st.err = true → ∃ c : Cause, st.errCode = c.code ∧ st.errDetail = c.detail

theorem Inv.flagsOk {s : State} (h : Inv s) : FlagsOk s.status s.errInfo := ⟨h.notBoth, h.noErrZero, h.errListed⟩

/-- R36: each FIFO is within its depth. -/
structure QueuesFit (s : State) : Prop where
  inFits : s.inQ.length ≤ s.params.inDepth
  outFits : s.outQ.length ≤ s.params.outDepth

theorem Inv.queuesFit {s : State} (h : Inv s) : QueuesFit s := ⟨h.inFits, h.outFits⟩

/-- While no command runs, the invariant asks only for the FIFOs and the flags. -/
theorem Inv.of_idle {s : State} (he : s.engine = .idle) (hq : QueuesFit s) (hf : FlagsOk s.status s.errInfo) :
    Inv s where
  inFits := hq.inFits
  outFits := hq.outFits
  notBoth := hf.notBoth
  busyClean := fun hb => by rw [busy_eq_false_iff.mpr he] at hb; cases hb
  noErrZero := hf.noErrZero
  errListed := hf.errListed
  cfgLegal := fun i hi => by rw [he] at hi; cases hi
  engine := by rw [he]; trivial

/-- R16: with `DONE` and `ERR` 0 and the error fields 0 the flags are as they must be. -/
theorem FlagsOk.of_clean {st : Status} {info : Word} (hd : st.done = false) (he : st.err = false) (hc : st.errCode = 0)
    (hdt : st.errDetail = 0) (hi : info = 0) : FlagsOk st info where
  notBoth := fun h => by rw [hd] at h; cases h.1
  noErrZero := fun _ => ⟨hc, hdt, hi⟩
  errListed := fun h => by rw [he] at h; cases h

/-- R96: an error raised while `DONE` is 0. -/
theorem FlagsOk.of_error {st : Status} {info : Word} (hd : st.done = false) (he : st.err = true)
    (hc : ∃ c : Cause, st.errCode = c.code ∧ st.errDetail = c.detail) : FlagsOk st info where
  notBoth := fun h => by rw [hd] at h; cases h.1
  noErrZero := fun h => by rw [he] at h; cases h
  errListed := fun _ => hc

/-! ### The engine's steps -/

/-- R51, R52: a transfer keeps the FIFOs within their depths. -/
theorem Transfer.queuesFit {s u : State} (h : Transfer s u) (hs : QueuesFit s) : QueuesFit u := by
  cases h with
  | none _ _ hu => exact hu ▸ hs
  | took e q _ _ hq _ hu =>
    subst hu
    have hlen := hs.inFits
    rw [hq, List.length_cons] at hlen
    exact ⟨Nat.le_of_succ_le hlen, hs.outFits⟩
  | gave b _ _ room hu =>
    subst hu
    exact ⟨hs.inFits, by simpa using room⟩

/-- R51, R52: a transfer changes no flag but `IN_ENDED`, no error field and not the configuration. -/
theorem Transfer.flags {s u : State} (h : Transfer s u) :
    u.status = { s.status with inEnded := u.status.inEnded } ∧ u.errInfo = s.errInfo ∧ u.cfg = s.cfg := by
  cases h <;> subst u <;> exact ⟨rfl, rfl, rfl⟩

/-- A step of the running command keeps the invariant, if it keeps the bounds of the engine's position. -/
theorem Effect.keeps_inv {i : Instr} {s t : State} (h : Effect i s t) (hopr : s.engine.opr = some i) (hs : Inv s)
    (hok : engineOk t t.engine) : Inv t := by
  obtain ⟨u, htr, hch⟩ := h
  obtain ⟨hst, hinfo, hcfg⟩ := htr.flags
  have hbusy : s.busy = true := by
    cases hb : s.busy with
    | true => rfl
    | false => rw [busy_eq_false_iff.mp hb] at hopr; cases hopr
  obtain ⟨hdone, herr⟩ := hs.busyClean hbusy
  obtain ⟨hcode, hdetail, hzero⟩ := hs.noErrZero herr
  have hfit : QueuesFit t := by
    obtain ⟨hin, hout⟩ := htr.queuesFit hs.queuesFit
    exact ⟨by rwa [hch.inQ, hch.params], by rwa [hch.outQ, hch.params]⟩
  rw [← hinfo] at hzero
  have hu : u.status.done = false ∧ u.status.err = false ∧ u.status.errCode = 0 ∧ u.status.errDetail = 0 := by
    rw [hst]
    exact ⟨hdone, herr, hcode, hdetail⟩
  obtain ⟨hdone, herr, hcode, hdetail⟩ := hu
  cases hch.ending with
  | runs he hd hr hc hdt hi =>
    have hflags : FlagsOk t.status t.errInfo :=
      .of_clean (hd.trans hdone) (hr.trans herr) (hc.trans hcode) (hdt.trans hdetail) (hi.trans hzero)
    have hti : t.engine.opr = some i := hch.opr.resolve_left he
    exact
      { inFits := hfit.inFits
        outFits := hfit.outFits
        notBoth := hflags.notBoth
        busyClean := fun _ => ⟨hd.trans hdone, hr.trans herr⟩
        noErrZero := hflags.noErrZero
        errListed := hflags.errListed
        cfgLegal := fun j hj hu => by
          obtain rfl : i = j := Option.some.inj (hti.symm.trans hj)
          rw [hch.cfg, hcfg]
          exact hs.cfgLegal i hopr hu
        engine := hok }
  | completes he hd hr hc hdt hi =>
    have herr' : t.status.err = false := hr.trans herr
    exact .of_idle he hfit
      { notBoth := fun h => by rw [herr'] at h; cases h.2
        noErrZero := fun _ => ⟨hc.trans hcode, hdt.trans hdetail, hi.trans hzero⟩
        errListed := fun h => by rw [herr'] at h; cases h }
  | fails he hd hr hc => exact .of_idle he hfit (.of_error (hd.trans hdone) hr hc)

/-- An engine step keeps the invariant. -/
theorem engineStep_keeps_inv {s t : State} (hs : Inv s) (h : engineStep s = some (.next t)) : Inv t := by
  obtain ⟨i, hopr, heff⟩ := engineStep_effect h
  obtain ⟨t', ht, hok⟩ := engineStep_ok hs.engine h
  cases ht
  exact heff.keeps_inv hopr hs hok

/-! ### The host's transitions -/

/-- The fields that the bounds of a running command speak of (R37, R44). -/
structure SameCommand (s t : State) : Prop where
  engine : t.engine = s.engine
  cfg : t.cfg = s.cfg
  nodeCount : t.nodeCount = s.nodeCount
  arena : t.arena = s.arena
  table : t.table = s.table
  symsLeft : t.symsLeft = s.symsLeft

/-- A host transition that leaves the running command alone keeps the invariant if it keeps the FIFOs within their
depths and sets neither `DONE` nor `ERR`. -/
theorem Inv.of_sameCommand {s t : State} (hs : Inv s) (h : SameCommand s t) (hq : QueuesFit t)
    (hf : FlagsOk t.status t.errInfo) (hd : s.status.done = false → t.status.done = false)
    (he : s.status.err = false → t.status.err = false) : Inv t where
  inFits := hq.inFits
  outFits := hq.outFits
  notBoth := hf.notBoth
  busyClean := fun hb => by
    have hb' : s.busy = true := by rwa [State.busy, h.engine] at hb
    exact ⟨hd (hs.busyClean hb').1, he (hs.busyClean hb').2⟩
  noErrZero := hf.noErrZero
  errListed := hf.errListed
  cfgLegal := fun i hi hu => by
    rw [h.cfg]
    rw [h.engine] at hi
    exact hs.cfgLegal i hi hu
  engine := by
    rw [h.engine]
    exact engineOk_congr h.nodeCount h.arena h.table h.symsLeft _ hs.engine

theorem beginTurn_keeps_inv {s : State} (hs : Inv s) (t : Turn) (rest : List Turn) : Inv (beginTurn t rest s) :=
  hs.of_sameCommand ⟨rfl, rfl, rfl, rfl, rfl, rfl⟩ ⟨hs.inFits, hs.outFits⟩ hs.flagsOk id id

theorem reads_keeps_inv {s : State} (hs : Inv s) (rs : List Word) : Inv { s with reads := rs } :=
  hs.of_sameCommand ⟨rfl, rfl, rfl, rfl, rfl, rfl⟩ ⟨hs.inFits, hs.outFits⟩ hs.flagsOk id id

theorem reject_keeps_inv {s : State} (hs : Inv s) : Inv s.reject :=
  hs.of_sameCommand ⟨rfl, rfl, rfl, rfl, rfl, rfl⟩ ⟨hs.inFits, hs.outFits⟩
    ⟨hs.notBoth, hs.noErrZero, hs.errListed⟩ id id

/-- R49: with room for it an entry joins `IN_Q`. -/
theorem enqueue_keeps_inv {s : State} (hs : Inv s) (room : s.inQ.length < s.params.inDepth) (e : InEntry) :
    Inv (enqueue e s) :=
  hs.of_sameCommand ⟨rfl, rfl, rfl, rfl, rfl, rfl⟩ ⟨by simpa [enqueue] using room, hs.outFits⟩ hs.flagsOk id id

/-- R50: the head of `OUT_Q` leaves it. -/
theorem dequeue_keeps_inv {s : State} {b : Byte} {q : List Byte} (hs : Inv s) (hq : s.outQ = b :: q) :
    Inv (dequeue b q s) := by
  have hlen := hs.outFits
  rw [hq, List.length_cons] at hlen
  exact hs.of_sameCommand ⟨rfl, rfl, rfl, rfl, rfl, rfl⟩ ⟨hs.inFits, Nat.le_of_succ_le hlen⟩ hs.flagsOk id id

/-- R109: the state after a reset has no command, no flag and empty FIFOs. -/
theorem resetCore_inv (s : State) : Inv (resetCore s) :=
  .of_idle rfl ⟨Nat.zero_le _, Nat.zero_le _⟩ (.of_clean rfl rfl rfl rfl rfl)

/-! ### The host's writes -/

/-- R101: the acknowledgement clears the error record as a whole. -/
theorem acknowledge_keeps_inv {s : State} (hs : Inv s) : Inv s.acknowledge :=
  hs.of_sameCommand ⟨rfl, rfl, rfl, rfl, rfl, rfl⟩ ⟨hs.inFits, hs.outFits⟩
    { notBoth := fun h => by cases h.2
      noErrZero := fun _ => ⟨rfl, rfl, rfl⟩
      errListed := fun h => by cases h }
    id (fun _ => rfl)

/-- R16: the W1C of `DONE` and `REJ` sets neither `DONE` nor `ERR`. -/
theorem clearDone_clearRej_keeps_inv {s : State} (hs : Inv s) (v : Word) : Inv ((s.clearDone v).clearRej v) :=
  hs.of_sameCommand ⟨rfl, rfl, rfl, rfl, rfl, rfl⟩ ⟨hs.inFits, hs.outFits⟩
    { notBoth := fun h => hs.notBoth ⟨(Bool.and_eq_true_iff.mp h.1).1, h.2⟩
      noErrZero := hs.noErrZero
      errListed := hs.errListed }
    (fun h => Bool.and_eq_false_imp.mpr fun h' => by rw [h] at h'; cases h') id

theorem writeStatus_keeps_inv {s : State} (hs : Inv s) (v : Word) : Inv (s.writeStatus v) := by
  unfold State.writeStatus
  split
  · exact acknowledge_keeps_inv (clearDone_clearRej_keeps_inv hs v)
  · exact clearDone_clearRej_keeps_inv hs v

/-- R90: a request that is taken starts with `DONE`, `ERR` and the error fields 0. -/
theorem requestHead_flagsOk {s : State} (hs : Inv s) (h : s.ready) (w : Word) :
    FlagsOk (requestHead w s).status (requestHead w s).errInfo := by
  obtain ⟨hcode, hdetail, hzero⟩ := hs.noErrZero h.2
  exact .of_clean rfl h.2 hcode hdetail hzero

/-- R90: a request refused with an error leaves the core idle. -/
theorem raiseError_requestHead_inv {s : State} (hs : Inv s) (c : Cause) (w info : Word) :
    Inv (raiseError c info (requestHead w s)) :=
  .of_idle rfl ⟨hs.inFits, hs.outFits⟩ (.of_error rfl rfl ⟨c, rfl, rfl⟩)

/-- A command's first position asks for nothing. -/
theorem engineOk_startOf (i : Instr) (s : State) : engineOk s (startOf i) := by
  cases i <;> trivial

/-- R90: an accepted command runs with its flags 0 and a legal configuration. -/
theorem accepted_inv {s : State} {i : Instr} (hs : Inv s) (h : s.ready) (w : Word)
    (hc : usesCfg i = true → s.cfg.legal = true) : Inv (goto (startOf i) (requestHead w s)) where
  inFits := hs.inFits
  outFits := hs.outFits
  notBoth := (requestHead_flagsOk hs h w).notBoth
  busyClean := fun _ => ⟨rfl, h.2⟩
  noErrZero := (requestHead_flagsOk hs h w).noErrZero
  errListed := (requestHead_flagsOk hs h w).errListed
  cfgLegal := fun j hj hu => by
    obtain rfl : i = j := Option.some.inj ((startOf_opr i).symm.trans hj)
    exact hc hu
  engine := engineOk_startOf i _

theorem issue_keeps_inv {s : State} (hs : Inv s) (i : Instr) : Inv (issue i s) := by
  by_cases h : s.ready
  · by_cases hc : usesCfg i = true → s.cfg.legal = true
    · rw [issue_accepted h hc]
      exact accepted_inv hs h _ hc
    · obtain ⟨hu, hl⟩ := Classical.not_imp.mp hc
      rw [issue_badConfig h hu (Bool.eq_false_of_not_eq_true hl)]
      exact raiseError_requestHead_inv hs _ _ _
  · rw [issue, request_dropped h]
    exact reject_keeps_inv hs

theorem commandRequest_keeps_inv {s : State} (hs : Inv s) (w : Word) : Inv (commandRequest w s) := by
  unfold commandRequest
  split
  · exact issue_keeps_inv hs _
  · by_cases h : s.ready
    · rw [issueIllegal, request_ready h]
      exact raiseError_requestHead_inv hs _ _ _
    · rw [issueIllegal, request_dropped h]
      exact reject_keeps_inv hs

/-- R44: while no command runs, a change of the configuration, of `NODE_COUNT`, of the arena and of the code table. -/
theorem operands_keep_inv {s : State} (hs : Inv s) (hb : s.busy = false) (c : Cfg) (nc : NodeIdx)
    (a : Vector Node Config.maxNodes) (tab : Vector CodeEntry Config.numSymbols) :
    Inv { s with cfg := c, nodeCount := nc, arena := a, table := tab } :=
  .of_idle (busy_eq_false_iff.mp hb) ⟨hs.inFits, hs.outFits⟩ hs.flagsOk

theorem writeNodeWindow_keeps_inv {s : State} (hs : Inv s) (hb : s.busy = false) (f : Node → Node) :
    Inv (writeNodeWindow f s) := by
  unfold writeNodeWindow
  split
  · rename_i hset
    rw [mapNode?_eq hset]
    exact operands_keep_inv hs hb _ _ _ _
  · exact reject_keeps_inv hs

/-- R43, R44: a write that the idle-write rule does not reject. -/
theorem regApply_keeps_inv {s : State} (hs : Inv s) {r : Reg} (hb : r.idleWrite = true → s.busy = false) (v : Word) :
    Inv (regApply r v s) := by
  cases r with
  | id | errInfo | inCountLo | inCountHi | outCountLo | outCountHi | symsLeftLo | symsLeftHi => exact hs
  | cmd => exact commandRequest_keeps_inv hs v
  | status => exact writeStatus_keeps_inv hs v
  | irqEn | symCountLo | symCountHi | nodeSel | ctSel =>
    exact hs.of_sameCommand ⟨rfl, rfl, rfl, rfl, rfl, rfl⟩ ⟨hs.inFits, hs.outFits⟩ hs.flagsOk id id
  | cfg | nodeCount | ctLen | ctWord => exact operands_keep_inv hs (hb rfl) _ _ _ _
  | nodeA | nodeB => exact writeNodeWindow_keeps_inv hs (hb rfl) _

theorem regWrite_keeps_inv {s : State} (hs : Inv s) (r : Reg) (v : Word) : Inv (regWrite r v s) := by
  unfold regWrite
  split
  · exact reject_keeps_inv hs
  · rename_i h
    exact regApply_keeps_inv hs (fun hi => by simpa [hi] using h) v

theorem busWrite_keeps_inv {s : State} (hs : Inv s) (off width : Nat) (v : Word) : Inv (busWrite off width v s) := by
  unfold busWrite
  split
  · exact regWrite_keeps_inv hs _ v
  · exact reject_keeps_inv hs

/-! ### The steps of the machine -/

theorem HostMove.keeps_inv {s u : State} {n : Nat} (h : HostMove s n u) (hs : Inv s) : Inv u := by
  cases h with
  | noTurn | sendWaits | recvWaits => exact hs
  | writesOutside | readsOutside | pauses => exact beginTurn_keeps_inv hs _ _
  | writes => exact busWrite_keeps_inv (beginTurn_keeps_inv hs _ _) _ _ _
  | reads | pollsIdle => exact reads_keeps_inv (beginTurn_keeps_inv hs _ _) _
  | sends _ room => exact enqueue_keeps_inv (beginTurn_keeps_inv hs _ _) room _
  | receives _ hq => exact dequeue_keeps_inv (beginTurn_keeps_inv hs _ _) hq
  | pollsBusy => exact reads_keeps_inv hs _
  | resets => exact resetCore_inv _

/-- Settles O55: the host's transition keeps the invariant, and so does each engine step of the run after it. -/
theorem everyStepKeepsTheInvariant : Obligations.EveryStepKeepsTheInvariant := by
  unfold Obligations.EveryStepKeepsTheInvariant
  intro s t hs h
  obtain ⟨n, u, hmove, hstep⟩ := step_eq_runEngine s
  rw [hstep] at h
  exact runEngine_keeps (fun _ _ => engineStep_keeps_inv) n (hmove.keeps_inv hs) h

/-- Settles O56: along the run after the host's transition the invariant holds, and it rules out a stop of the next
engine step. -/
theorem noStepStopsTheMachine : Obligations.NoStepStopsTheMachine := by
  unfold Obligations.NoStepStopsTheMachine
  intro s hs
  obtain ⟨n, u, hmove, hstep⟩ := step_eq_runEngine s
  rw [hstep]
  refine runEngine_goes (fun _ _ => engineStep_keeps_inv) ?_ n (hmove.keeps_inv hs)
  intro s' r hs' h
  obtain ⟨t, ht, _⟩ := engineStep_ok hs'.engine h
  exact ⟨t, ht⟩

end Sys2Proof.Machine

/-! The host's registers: where an access goes, the words of the field layouts (R16, R17, R18, R26, R27, R28), and what
a write to each register changes (R43, R44). The bits of a layout are found by `simp only` with the lemma about appended
words, before any `simp` rewrites the widths that this lemma needs. -/

namespace Sys2Proof.Machine

/-! ### Accesses by register -/

/-- R13: a 32-bit access at a register's offset reaches that register. -/
theorem accessReg_offset (r : Reg) : accessReg r.offset 32 = some r := by
  cases r <;> rfl

theorem busRead_offset (r : Reg) (s : State) : busRead r.offset 32 s = regRead r s := by
  rw [busRead, accessReg_offset]

theorem busWrite_offset (r : Reg) (v : Word) (s : State) : busWrite r.offset 32 v s = regWrite r v s := by
  rw [busWrite, accessReg_offset]

/-- R44: while no command runs, no write to a register is rejected by the idle-write rule. -/
theorem busWrite_idle {s : State} (hb : s.busy = false) (r : Reg) (v : Word) :
    busWrite r.offset 32 v s = regApply r v s := by
  rw [busWrite_offset, regWrite, hb, Bool.and_false, if_neg Bool.false_ne_true]

/-- R43: an idle write that leads to `t`, and the word a read then gives. -/
theorem busWrite_then_busRead {s t : State} {r : Reg} {v w : Word} (hb : s.busy = false) (hw : regApply r v s = t)
    (hr : regRead r t = w) :
    busWrite r.offset 32 v s = t ∧ busRead r.offset 32 (busWrite r.offset 32 v s) = w := by
  rw [busWrite_idle hb, busRead_offset, hw]
  exact ⟨rfl, hr⟩

/-! ### The constant and the read-only registers (R14, R46) -/

/-- Settles O46: each offset is a register whose writes leave the state as it is, and two registers read as
constants. -/
theorem readOnlyRegistersIgnoreWrites : Obligations.ReadOnlyRegistersIgnoreWrites := by
  unfold Obligations.ReadOnlyRegistersIgnoreWrites
  refine fun s v => ⟨?_, busRead_offset .id s, busRead_offset .cmd s⟩
  rintro off (rfl | rfl | rfl | rfl | rfl | rfl | rfl | rfl)
  · exact busWrite_offset .id v s
  · exact busWrite_offset .errInfo v s
  · exact busWrite_offset .inCountLo v s
  · exact busWrite_offset .inCountHi v s
  · exact busWrite_offset .outCountLo v s
  · exact busWrite_offset .outCountHi v s
  · exact busWrite_offset .symsLeftLo v s
  · exact busWrite_offset .symsLeftHi v s

/-! ### STATUS (R16, R101) -/

theorem statusWord_flags (s : State) :
    s.statusWord.getLsbD 0 = s.busy ∧ s.statusWord.getLsbD 1 = s.status.done ∧ s.statusWord.getLsbD 2 = s.status.err ∧
      s.statusWord.getLsbD 3 = s.status.rej ∧ s.statusWord.getLsbD 4 = s.status.inEnded := by
  simp only [State.statusWord, BitVec.getLsbD_append]
  simp

theorem statusWord_fields (s : State) :
    s.statusWord.extractLsb' 5 3 = 0 ∧ s.statusWord.extractLsb' 8 4 = s.status.errCode ∧
      s.statusWord.extractLsb' 12 4 = s.status.errDetail ∧ s.statusWord.extractLsb' 16 8 = s.status.op ∧
      s.statusWord.extractLsb' 24 8 = 0 := by
  simp only [State.statusWord, BitVec.extractLsb'_append_eq_of_le, BitVec.extractLsb'_append_eq_right,
    Nat.reduceLeDiff, Nat.reduceSub]
  simp

/-- Settles O42: the word that offset 0x08 reads is `statusWord`, whose layout is that of R16. -/
theorem statusWordLayout : Obligations.StatusWordLayout := by
  unfold Obligations.StatusWordLayout
  refine fun s => ⟨busRead_offset .status s, ?_⟩
  rintro w rfl
  obtain ⟨h0, h1, h2, h3, h4⟩ := statusWord_flags s
  exact ⟨h0, h1, h2, h3, h4, statusWord_fields s⟩

/-- R43: `STATUS` is no idle-write register. -/
theorem busWrite_status (v : Word) (s : State) : busWrite 0x08 32 v s = s.writeStatus v := busWrite_offset .status v s

theorem writeStatus_of_bit2_set {v : Word} (h : v.getLsbD 2 = true) (s : State) :
    s.writeStatus v = ((s.clearDone v).clearRej v).acknowledge := by
  rw [State.writeStatus, if_pos h]

theorem writeStatus_of_bit2_clear {v : Word} (h : v.getLsbD 2 = false) (s : State) :
    s.writeStatus v = (s.clearDone v).clearRej v := by
  rw [State.writeStatus, if_neg (Bool.eq_false_iff.mp h)]

/-- Settles O43: `DONE` and `REJ` are cleared first, and the acknowledgement of bit 2 leaves them alone. -/
theorem statusWriteIsWriteOneToClear : Obligations.StatusWriteIsWriteOneToClear := by
  unfold Obligations.StatusWriteIsWriteOneToClear
  intro s v
  rw [busWrite_status]
  cases h : v.getLsbD 2 with
  | true =>
    rw [writeStatus_of_bit2_set h]
    exact ⟨rfl, rfl, fun _ => rfl, nofun⟩
  | false =>
    rw [writeStatus_of_bit2_clear h]
    exact ⟨rfl, rfl, nofun, fun _ => rfl⟩

/-! ### The field layouts: a written word reads as itself, masked to the register's fields (R42, R43) -/

theorem setWidth_extractLsb'_8 (v : Word) : (v.extractLsb' 0 8).setWidth 32 = v &&& 0x000000FF := by
  refine BitVec.eq_of_getLsbD_eq fun i hi => ?_
  interval_cases i <;> simp

theorem setWidth_extractLsb'_9 (v : Word) : (v.extractLsb' 0 9).setWidth 32 = v &&& 0x000001FF := by
  refine BitVec.eq_of_getLsbD_eq fun i hi => ?_
  interval_cases i <;> simp

theorem irqEnWord_of_fields (v : Word) :
    ({ doneIe := v.getLsbD 0, errIe := v.getLsbD 1 } : IrqEn).word = v &&& 0x00000003 := by
  refine BitVec.eq_of_getLsbD_eq fun i hi => BitVec.getLsbD_append.trans ?_
  simp only [BitVec.getLsbD_append]
  interval_cases i <;> simp

theorem cfgWord_of_fields (v : Word) :
    ({ separator := v.extractLsb' 0 8, internalMarker := v.extractLsb' 8 8 } : Cfg).word = v &&& 0x0000FFFF := by
  refine BitVec.eq_of_getLsbD_eq fun i hi => BitVec.getLsbD_append.trans ?_
  simp only [BitVec.getLsbD_append]
  interval_cases i <;> simp

theorem ctSelWord_of_fields (v : Word) :
    ({ sym := v.extractLsb' 0 8, word := v.extractLsb' 8 3 } : CtSel).asWord = v &&& 0x000007FF := by
  refine BitVec.eq_of_getLsbD_eq fun i hi => BitVec.getLsbD_append.trans ?_
  simp only [BitVec.getLsbD_append]
  interval_cases i <;> simp

theorem wordA_withA (n : Node) (v : Word) : (n.withA v).wordA = v &&& 0x00FFFF01 := by
  refine BitVec.eq_of_getLsbD_eq fun i hi => BitVec.getLsbD_append.trans ?_
  simp only [Node.withA, BitVec.getLsbD_append]
  interval_cases i <;> simp

theorem wordB_withB (n : Node) (v : Word) : (n.withB v).wordB = v &&& 0x01FF01FF := by
  refine BitVec.eq_of_getLsbD_eq fun i hi => BitVec.getLsbD_append.trans ?_
  simp only [Node.withB, BitVec.getLsbD_append]
  interval_cases i <;> simp

/-! ### The halves of a count (R47) -/

@[simp] theorem countLo_countOf (hi lo : Word) : countLo (countOf hi lo) = lo := BitVec.extractLsb'_append_eq_right

@[simp] theorem countHi_countOf (hi lo : Word) : countHi (countOf hi lo) = hi := BitVec.extractLsb'_append_eq_left

/-! ### The windows on the arena and on the code table (R25, R29, R30) -/

/-- R25: a write through a window changes the selected entry and no other. -/
theorem writeNodeWindow_of_ne {s : State} (h : s.nodeSel ≠ 511) (f : Node → Node) :
    ∃ a : Vector Node 511, writeNodeWindow f s = { s with arena := a } ∧
      (∃ n, ({ s with arena := a } : State).node? s.nodeSel = some (f n)) ∧
      ∀ i : Fin 511, a[i] = if i.val = s.nodeSel.toNat then f s.arena[i] else s.arena[i] := by
  have hlt := toNat_lt_511 h
  refine ⟨s.arena.set s.nodeSel.toNat (f s.arena[s.nodeSel.toNat]), ?_, ⟨s.arena[s.nodeSel.toNat], ?_⟩, fun i => ?_⟩
  · rw [writeNodeWindow, mapNode?_of_lt s f hlt]
  · exact node?_eq_some.mpr ⟨hlt, Vector.getElem_set_self hlt⟩
  · rw [Fin.getElem_fin, Vector.getElem_set]
    by_cases hi : i.val = s.nodeSel.toNat
    · simp only [hi, Fin.getElem_fin, if_true]
    · rw [if_neg hi, if_neg (Ne.symm hi), Fin.getElem_fin]

theorem regRead_nodeA {s : State} {n : Node} (h : s.node? s.nodeSel = some n) : regRead .nodeA s = n.wordA := by
  simp only [regRead, h]

theorem regRead_nodeB {s : State} {n : Node} (h : s.node? s.nodeSel = some n) : regRead .nodeB s = n.wordB := by
  simp only [regRead, h]

/-- A write to the code table replaces the entry of its symbol and no other. -/
theorem table_setEntry (s : State) (sym : Byte) (e : CodeEntry) (x : Fin 256) :
    (s.setEntry sym e).table[x] = if x.val = sym.toNat then e else s.table[x] := by
  show (s.table.set sym.toNat e (byte_lt sym))[x.val] = _
  rw [Vector.getElem_set]
  by_cases hx : x.val = sym.toNat
  · rw [if_pos hx, if_pos hx.symm]
  · rw [if_neg hx, if_neg (Ne.symm hx), Fin.getElem_fin]

/-- The selected entry is the one whose symbol `CT_SEL.SYM` is. -/
theorem selEntry_eq {s : State} {x : Fin 256} (hx : x.val = s.ctSel.sym.toNat) : s.selEntry = s.table[x] := by
  simp only [State.selEntry, State.entry, Fin.getElem_fin, hx]

/-- R29: a write to `CT_LEN`. -/
theorem table_writeCtLen (s : State) (v : Word) (x : Fin 256) :
    (writeCtLen v s).table[x].words = s.table[x].words ∧
      (writeCtLen v s).table[x].len = if x.val = s.ctSel.sym.toNat then v.extractLsb' 0 8 else s.table[x].len := by
  rw [writeCtLen, table_setEntry]
  by_cases hx : x.val = s.ctSel.sym.toNat
  · simp only [if_pos hx, selEntry_eq hx, and_self]
  · simp only [if_neg hx, and_self]

/-- R30: a write to `CT_WORD`. -/
theorem table_writeCtWord (s : State) (v : Word) (x : Fin 256) :
    (writeCtWord v s).table[x].len = s.table[x].len ∧ ∀ k : Fin 8,
      (writeCtWord v s).table[x].words[k] =
        if x.val = s.ctSel.sym.toNat ∧ k.val = s.ctSel.word.toNat then v else s.table[x].words[k] := by
  rw [writeCtWord, table_setEntry]
  by_cases hx : x.val = s.ctSel.sym.toNat
  · rw [if_pos hx, selEntry_eq hx]
    refine ⟨rfl, fun k => ?_⟩
    simp only [hx, true_and, Fin.getElem_fin, Vector.getElem_set, eq_comm (a := k.val)]
  · simp only [hx, false_and, if_false, implies_true, and_self]

@[simp] theorem selEntry_setEntry (s : State) (e : CodeEntry) : (s.setEntry s.ctSel.sym e).selEntry = e :=
  entry_setEntry_same s s.ctSel.sym e

theorem regRead_ctWord_writeCtWord (s : State) (v : Word) : regRead .ctWord (writeCtWord v s) = v := by
  simp only [regRead, writeCtWord, selEntry_setEntry]
  exact Vector.getElem_set_self _

/-- Settles O44: register by register, the idle write and the word of the fields it wrote. -/
theorem writtenRegisterReadsBack : Obligations.WrittenRegisterReadsBack := by
  unfold Obligations.WrittenRegisterReadsBack
  intro s v hb
  refine ⟨busWrite_then_busRead (r := .irqEn) hb rfl (irqEnWord_of_fields v),
    busWrite_then_busRead (r := .cfg) hb rfl (cfgWord_of_fields v),
    busWrite_then_busRead (r := .symCountLo) hb rfl (countLo_countOf _ _),
    busWrite_then_busRead (r := .symCountHi) hb rfl (countHi_countOf _ _),
    busWrite_then_busRead (r := .nodeCount) hb rfl (setWidth_extractLsb'_9 v),
    busWrite_then_busRead (r := .nodeSel) hb rfl (setWidth_extractLsb'_9 v),
    busWrite_then_busRead (r := .ctSel) hb rfl (ctSelWord_of_fields v), ?ctLen, ?ctWord, fun hsel => ⟨?nodeA, ?nodeB⟩⟩
  case ctLen =>
    have hread : regRead .ctLen (writeCtLen v s) = v &&& 0x000000FF := by
      simp only [regRead, writeCtLen, selEntry_setEntry, setWidth_extractLsb'_8]
    obtain ⟨hw, hr⟩ := busWrite_then_busRead (r := .ctLen) hb rfl hread
    exact ⟨(writeCtLen v s).table, hw, hr, table_writeCtLen s v⟩
  case ctWord =>
    obtain ⟨hw, hr⟩ := busWrite_then_busRead (r := .ctWord) hb rfl (regRead_ctWord_writeCtWord s v)
    exact ⟨(writeCtWord v s).table, hw, hr, table_writeCtWord s v⟩
  case nodeA =>
    obtain ⟨a, hset, ⟨n, hn⟩, ha⟩ := writeNodeWindow_of_ne hsel fun n => n.withA v
    obtain ⟨hw, hr⟩ := busWrite_then_busRead (r := .nodeA) hb hset ((regRead_nodeA hn).trans (wordA_withA n v))
    exact ⟨a, hw, hr, ha⟩
  case nodeB =>
    obtain ⟨a, hset, ⟨n, hn⟩, ha⟩ := writeNodeWindow_of_ne hsel fun n => n.withB v
    obtain ⟨hw, hr⟩ := busWrite_then_busRead (r := .nodeB) hb hset ((regRead_nodeB hn).trans (wordB_withB n v))
    exact ⟨a, hw, hr, ha⟩

/-! ### Code bits through CT_WORD (R30, R32) -/

/-- R32: code bit `j` lies in word `j / 32`. -/
theorem codeBit_of_word {e : CodeEntry} {j : Byte} {k : BitVec 3} (h : j.toNat / 32 = k.toNat) :
    e.codeBit j = (e.words[k.toNat]'(word_sel_lt k)).getLsbD (31 - j.toNat % 32) := by
  simp only [CodeEntry.codeBit, h]

/-- The code bits of a word that is replaced, and of the words that stay. -/
theorem codeBit_set_word (e : CodeEntry) (k : BitVec 3) (v : Word) (j : Byte) :
    ({ e with words := e.words.set k.toNat v (word_sel_lt k) } : CodeEntry).codeBit j =
      if j.toNat / 32 = k.toNat then v.getLsbD (31 - j.toNat % 32) else e.codeBit j := by
  simp only [CodeEntry.codeBit, Vector.getElem_set, eq_comm (a := k.toNat)]
  split <;> rfl

theorem entry_writeCtWord_ne {s : State} {x : Byte} (h : x ≠ s.ctSel.sym) (v : Word) :
    (writeCtWord v s).entry x = s.entry x :=
  entry_setEntry_ne s _ h.symm

theorem codeBit_writeCtWord_same (s : State) (v : Word) (j : Byte) :
    ((writeCtWord v s).entry s.ctSel.sym).codeBit j =
      if j.toNat / 32 = s.ctSel.word.toNat then v.getLsbD (31 - j.toNat % 32) else (s.entry s.ctSel.sym).codeBit j := by
  rw [writeCtWord, entry_setEntry_same]
  exact codeBit_set_word s.selEntry s.ctSel.word v j

theorem len_writeCtWord (s : State) (v : Word) (x : Byte) : ((writeCtWord v s).entry x).len = (s.entry x).len := by
  by_cases h : x = s.ctSel.sym
  · rw [h, writeCtWord, entry_setEntry_same]
    rfl
  · rw [entry_writeCtWord_ne h]

/-- Settles O49: `CT_WORD` is word `WORD` of the selected symbol's code, which holds the bits `32 * WORD` and on. -/
theorem ctWordHoldsTheCodeBits : Obligations.CtWordHoldsTheCodeBits := by
  unfold Obligations.CtWordHoldsTheCodeBits
  refine ⟨fun s j hj => (codeBit_of_word hj).symm, fun s v hb => ?_⟩
  have hw : busWrite 0x50 32 v s = writeCtWord v s := busWrite_idle hb .ctWord v
  rw [hw]
  refine ⟨fun j hj => ?_, fun x j hxj => ?_, len_writeCtWord s v⟩
  · rw [codeBit_writeCtWord_same, if_pos hj]
  · by_cases hx : x = s.ctSel.sym
    · subst hx
      rw [codeBit_writeCtWord_same, if_neg (hxj.resolve_left fun h => h rfl)]
    · rw [entry_writeCtWord_ne hx]

/-! ### Commands refused for their configuration (R18, R90, R94) -/

/-- R18: a digit as separator, or the leaf's marker as internal marker, is not legal. -/
theorem legal_eq_false {c : Cfg}
    (h : (0x30 ≤ c.separator.toNat ∧ c.separator.toNat ≤ 0x39) ∨ c.internalMarker = 0x4C) : c.legal = false := by
  rcases h with ⟨hlo, hhi⟩ | hm
  · simp [Cfg.legal, isDigit, hlo, hhi]
  · simp [Cfg.legal, hm]

theorem opcodeField_encode (i : Instr) : opcodeField (encode i) = i.opcode := by
  cases i <;> decide

/-- R90: a command that uses the configuration ends in BAD_CONFIG with its word in `ERR_INFO`, and no engine step
follows. -/
theorem exec_badConfig {s : State} (h : s.ready) {i : Instr} (hu : usesCfg i = true) (hc : s.cfg.legal = false) :
    exec i s = .next (s.refusedWith i.opcode 5 3 (encode i)) := by
  rw [exec_eq_runEngine_issue, issue_badConfig h hu hc, runEngine_idle rfl, ← opcodeField_encode]
  rfl

/-- Settles O8: each of the four commands uses the configuration, and it is not legal. -/
theorem badConfigRefusesTheCodecCommands : Obligations.BadConfigRefusesTheCodecCommands := by
  unfold Obligations.BadConfigRefusesTheCodecCommands
  intro s hs hcfg
  have hc := legal_eq_false hcfg
  exact ⟨exec_badConfig hs (i := .treeWrite) rfl hc, exec_badConfig hs (i := .treeRead) rfl hc,
    exec_badConfig hs (i := .encode) rfl hc, exec_badConfig hs (i := .decode) rfl hc⟩

end Sys2Proof.Machine

/-! R53: a host transfer made before a run of engine steps, a deeper `OUT_Q` and another register base change nothing
that the engine computes. What lies outside the engine is set apart in `Outside`; the computations of the engine do not
look at it (`Blind`), and its two kinds of transfer keep a relation that is `Unnoticed`. -/

namespace Sys2Proof.Machine

/-! ### What lies outside the engine -/

/-- The FIFOs, what the host received, and the parameters: all that a send, a receive or another core's parameters
change (R5, R49, R50). -/
structure Outside where
  inQ : List InEntry
  outQ : List Byte
  received : List Byte
  params : Params

def State.outside (s : State) : Outside :=
  { inQ := s.inQ, outQ := s.outQ, received := s.received, params := s.params }

def State.withOutside (s : State) (x : Outside) : State :=
  { s with inQ := x.inQ, outQ := x.outQ, received := x.received, params := x.params }

@[simp] theorem withOutside_outside (s : State) : s.withOutside s.outside = s := rfl

@[simp] theorem outside_withOutside (s : State) (x : Outside) : (s.withOutside x).outside = x := rfl

/-! ### Computations that do not look outside -/

/-- `k` answers the same whatever lies outside, and leaves that as it is. -/
def Blind (k : State → Option Result) : Prop :=
  ∀ ⦃s t : State⦄, k s = some (.next t) → ∀ x, k (s.withOutside x) = some (.next (t.withOutside x))

/-- A computation that does not look outside leaves it alone: it answers the same with the outside it had. -/
theorem Blind.outside_eq {k : State → Option Result} (hk : Blind k) {s t : State} (h : k s = some (.next t)) :
    t.outside = s.outside := by
  have ht : k s = some (.next (t.withOutside s.outside)) := hk h s.outside
  have hts : t = t.withOutside s.outside := Host.Outcome.next.inj (Option.some.inj (h.symm.trans ht))
  rw [hts, outside_withOutside]

theorem Blind.next {g : State → State} (hg : ∀ s x, g (s.withOutside x) = (g s).withOutside x) :
    Blind fun s => some (.next (g s)) := by
  intro s t h x
  cases h
  simp only [hg]

theorem Blind.ite {c : State → Prop} [∀ s, Decidable (c s)] {k k' : State → Option Result}
    (hc : ∀ s x, c (s.withOutside x) ↔ c s) (hk : Blind k) (hk' : Blind k') :
    Blind fun s => if c s then k s else k' s := by
  intro s t h x
  by_cases hs : c s
  · simp only [hc, if_pos hs] at h ⊢
    exact hk h x
  · simp only [hc, if_neg hs] at h ⊢
    exact hk' h x

/-! ### The engine's computations between transfers -/

theorem setNode?_withOutside (s : State) (i : NodeIdx) (n : Node) (x : Outside) :
    (s.withOutside x).setNode? i n = (s.setNode? i n).map (·.withOutside x) := by
  unfold State.setNode?
  split <;> rfl

theorem mapNode?_withOutside (s : State) (i : NodeIdx) (f : Node → Node) (x : Outside) :
    (s.withOutside x).mapNode? i f = (s.mapNode? i f).map (·.withOutside x) := by
  have hn : (s.withOutside x).node? i = s.node? i := rfl
  unfold State.mapNode?
  rw [hn]
  cases s.node? i with
  | none => rfl
  | some n => exact setNode?_withOutside s i (f n) x

theorem attach_withOutside (i : NodeIdx) (stk : Stack) (s : State) (x : Outside) :
    attach i stk (s.withOutside x) = (attach i stk s).map fun a => (a.1.withOutside x, a.2) := by
  cases stk with
  | nil => rfl
  | cons top rest =>
    simp only [attach, mapNode?_withOutside]
    cases top.side <;> simp only [Option.map_map] <;> rfl

/-- R75: a new node, before what does not look outside. -/
theorem blind_newNode {n : Node} {stk : Stack} {k : NodeIdx → Stack → State → State}
    (hk : ∀ j stk' s x, k j stk' (s.withOutside x) = (k j stk' s).withOutside x) :
    Blind fun s => some (newNode n stk s k) := by
  intro s t h x
  obtain ⟨s1, s2, stk2, h1, h2, rfl⟩ := newNode_next (Option.some.inj h)
  have h1' : (s.withOutside x).setNode? s.nodeCount n = some (s1.withOutside x) := by
    rw [setNode?_withOutside, h1, Option.map_some]
  have h2' : attach s.nodeCount stk { s1.withOutside x with nodeCount := s.nodeCount + 1 } =
      some (s2.withOutside x, stk2) := by
    have := attach_withOutside s.nodeCount stk { s1 with nodeCount := s.nodeCount + 1 } x
    rwa [h2] at this
  have hc : (s.withOutside x).nodeCount = s.nodeCount := rfl
  simp only [newNode, hc, h1', h2', hk]

/-- R78: the checks of a visit read the arena and `NODE_COUNT` alone. -/
theorem blind_treeWriteVisit (i : NodeIdx) (visits : Nat) (stk : Stack) :
    Blind fun s => some (treeWriteVisit i visits stk s) := by
  intro s t h x
  have hn : (s.withOutside x).node? i = s.node? i := rfl
  have hc : ∀ c, childOk i c (s.withOutside x) = childOk i c s := fun _ => rfl
  simp only [treeWriteVisit, hn, hc, Option.some.injEq] at h ⊢
  repeat' split at h
  all_goals cases h
  all_goals
    simp only [*, if_true, if_false, Bool.false_eq_true]
    rfl

theorem nextBit_withOutside (sym len j acc : Byte) (accN : Nat) (s : State) (x : Outside) :
    nextBit sym len j acc accN (s.withOutside x) = (nextBit sym len j acc accN s).withOutside x := by
  unfold nextBit
  split <;> rfl

theorem encodeBit_withOutside (sym len j acc : Byte) (accN : Nat) (s : State) (x : Outside) :
    encodeBit sym len j acc accN (s.withOutside x) = (encodeBit sym len j acc accN s).withOutside x := by
  unfold encodeBit
  split
  · rfl
  · exact nextBit_withOutside sym len j _ (accN + 1) s x

theorem headerByte_withOutside (hv : Count) (hd : Nat) (b : Byte) (s : State) (x : Outside) :
    headerByte hv hd b (s.withOutside x) = (headerByte hv hd b s).withOutside x := by
  have hc : (s.withOutside x).cfg = s.cfg := rfl
  unfold headerByte
  rw [hc]
  repeat' split
  all_goals rfl

/-- R87: a bit of the walk reads the arena alone. -/
theorem blind_walkBit (ptr : NodeIdx) (bit : Bool) (cur : Cursor) : Blind fun s => some (walkBit ptr bit cur s) := by
  intro s t h x
  have hn : ∀ i, (s.withOutside x).node? i = s.node? i := fun _ => rfl
  simp only [walkBit, hn, Option.some.injEq] at h ⊢
  repeat' split at h
  all_goals cases h
  all_goals
    simp only [*, if_true, if_false, Bool.false_eq_true]
    rfl

/-! ### Relations that a run does not notice -/

/-- `R x y` allows `y` in place of `x` outside the engine: with `x` a transfer can be made, so it can with `y`, and `R`
still holds after it (R51, R52). -/
structure Unnoticed (R : Outside → Outside → Prop) : Prop where
  pop : ∀ ⦃x y⦄, R x y → ∀ ⦃e q⦄, x.inQ = e :: q →
    ∃ q', y.inQ = e :: q' ∧ R { x with inQ := q } { y with inQ := q' }
  push : ∀ ⦃x y⦄, R x y → x.outQ.length < x.params.outDepth → ∀ b : Byte,
    y.outQ.length < y.params.outDepth ∧ R { x with outQ := x.outQ ++ [b] } { y with outQ := y.outQ ++ [b] }

/-- Where the step `k` answers in `s`, it answers alike with the outside that `R` allows. -/
def Carries (R : Outside → Outside → Prop) (k : State → Option Result) (s : State) : Prop :=
  ∀ ⦃t y⦄, k s = some (.next t) → R s.outside y →
    ∃ y', R t.outside y' ∧ k (s.withOutside y) = some (.next (t.withOutside y'))

section
variable {R : Outside → Outside → Prop} {s : State}

/-- A step without a transfer carries every relation. -/
theorem Blind.carries {k : State → Option Result} (hk : Blind k) : Carries R k s := by
  intro t y h hy
  exact ⟨y, by rwa [hk.outside_eq h], hk h y⟩

theorem Carries.next {g : State → State} (hg : ∀ s x, g (s.withOutside x) = (g s).withOutside x) :
    Carries R (fun s => some (.next (g s))) s :=
  (Blind.next hg).carries

theorem Carries.ite {c : State → Prop} [∀ s, Decidable (c s)] {k k' : State → Option Result}
    (hc : ∀ x, c (s.withOutside x) ↔ c s) (hk : Carries R k s) (hk' : Carries R k' s) :
    Carries R (fun s => if c s then k s else k' s) s := by
  intro t y h hy
  by_cases hs : c s
  · simp only [hc, if_pos hs] at h ⊢
    exact hk h hy
  · simp only [hc, if_neg hs] at h ⊢
    exact hk' h hy

variable (hR : Unnoticed R)
include hR

theorem Unnoticed.carries_inPop {p : Phase} {k : Byte → State → Option Result} (hk : ∀ b, Blind (k b)) :
    Carries R (fun s => inPop p s k) s := by
  intro t y h hy
  obtain ⟨hend, ht⟩ | ⟨e, q, hend, hq, ht⟩ := inPop_some h
  · cases ht
    exact ⟨y, hy, inPop_ended (s := s.withOutside y) hend p k⟩
  · obtain ⟨q', hq', hy'⟩ := hR.pop hy hq
    refine ⟨{ y with inQ := q' }, by rwa [(hk _).outside_eq ht], ?_⟩
    show inPop p (s.withOutside y) k = _
    rw [inPop_cons (s := s.withOutside y) hend hq']
    exact hk _ ht { y with inQ := q' }

theorem Unnoticed.carries_outPush {b : State → Byte} {k : State → Option Result}
    (hb : ∀ x, b (s.withOutside x) = b s) (hk : Blind k) : Carries R (fun s => outPush (b s) s k) s := by
  intro t y h hy
  obtain ⟨room, ht⟩ := outPush_some h
  obtain ⟨room', hy'⟩ := hR.push hy room (b s)
  refine ⟨{ y with outQ := y.outQ ++ [b s] }, by rwa [hk.outside_eq ht], ?_⟩
  show outPush (b (s.withOutside y)) (s.withOutside y) k = _
  rw [outPush_room (s := s.withOutside y) room', hb]
  exact hk ht { y with outQ := y.outQ ++ [b s] }

/-! ### The engine's steps -/

theorem Unnoticed.carries_parseStep (wrap : ParsePos → Engine) (after : Engine) (p : ParsePos) :
    Carries R (parseStep wrap after p) s := by
  cases p with
  | marker stk =>
    refine .ite (fun _ => .rfl) (.next fun _ _ => rfl) (hR.carries_inPop fun m => ?_)
    exact .ite (fun _ _ => .rfl) (.next fun _ _ => rfl) (.next fun _ _ => rfl)
  | edge stk m =>
    unfold parseStep parseEdge
    refine hR.carries_inPop fun e => ?_
    refine .ite (fun _ _ => .rfl) (.next fun _ _ => rfl) (blind_newNode fun i stk' u x => ?_)
    unfold pushParent
    split <;> rfl
  | symbol stk e =>
    refine hR.carries_inPop fun sym => blind_newNode fun _ stk' u x => ?_
    cases stk' <;> rfl

theorem Unnoticed.carries_treeReadStep (p : TreeReadPos) : Carries R (treeReadStep p) s := by
  cases p with
  | start | finish => exact .next fun _ _ => rfl
  | parse q => exact hR.carries_parseStep _ _ q

theorem Unnoticed.carries_treeWriteStep (p : TreeWritePos) : Carries R (treeWriteStep p) s := by
  cases p with
  | start => exact .ite (fun _ => .rfl) (.next fun _ _ => rfl) (.next fun _ _ => rfl)
  | visit i visits stk => exact (blind_treeWriteVisit i visits stk).carries
  | marker n visits stk =>
    exact hR.carries_outPush (b := fun s => markerByte n s.cfg) (fun _ => rfl) (.next fun _ _ => rfl)
  | edge n visits stk => exact hR.carries_outPush (b := fun _ => n.edge) (fun _ => rfl) (.next fun _ _ => rfl)
  | symbol n visits stk => exact hR.carries_outPush (b := fun _ => n.symbol) (fun _ => rfl) (.next fun _ _ => rfl)
  | finish => exact .next fun _ _ => rfl

theorem Unnoticed.carries_encodeStep (p : EncodePos) : Carries R (encodeStep p) s := by
  cases p with
  | start | finish => exact .next fun _ _ => rfl
  | bit sym len j acc accN => exact .next fun _ _ => encodeBit_withOutside ..
  | digits rest =>
    cases rest with
    | nil => exact hR.carries_outPush (b := fun s => s.cfg.separator) (fun _ => rfl) (.next fun _ _ => rfl)
    | cons d ds => exact hR.carries_outPush (b := fun _ => d) (fun _ => rfl) (.next fun _ _ => rfl)
  | flush sym len j acc =>
    exact hR.carries_outPush (b := fun _ => acc) (fun _ => rfl) (.next fun _ _ => nextBit_withOutside ..)
  | symbol acc accN =>
    refine .ite (fun _ => .rfl) (.ite (fun _ => .rfl) (.next fun _ _ => rfl) ?_) (hR.carries_inPop fun sym => ?_)
    · exact hR.carries_outPush (b := fun _ => padByte acc accN) (fun _ => rfl) (.next fun _ _ => rfl)
    · exact .ite (fun _ _ => .rfl) (.next fun _ _ => rfl) (.next fun _ _ => rfl)

theorem Unnoticed.carries_decodeStep (p : DecodePos) : Carries R (decodeStep p) s := by
  cases p with
  | start => exact .next fun _ _ => rfl
  | parse q => exact hR.carries_parseStep _ _ q
  | header hv hd =>
    unfold decodeStep
    exact hR.carries_inPop fun b => .next fun _ _ => headerByte_withOutside ..
  | body ptr cur =>
    refine .ite (fun _ => .rfl) (.next fun _ _ => rfl) ?_
    cases cur with
    | empty => exact hR.carries_inPop fun b => .next fun _ _ => rfl
    | bits c n => exact (blind_walkBit ..).carries
  | emit sym ptr cur =>
    unfold decodeStep
    exact hR.carries_outPush (b := fun _ => sym) (fun _ => rfl) (.next fun _ _ => rfl)

theorem Unnoticed.carries_engineStep : Carries R engineStep s := by
  intro t y h hy
  have he : (s.withOutside y).engine = s.engine := rfl
  unfold engineStep at h ⊢
  rw [he]
  generalize s.engine = e at h ⊢
  cases e with
  | idle => cases h
  | nop => exact Carries.next (fun _ _ => rfl) h hy
  | treeWrite p => exact hR.carries_treeWriteStep p h hy
  | treeRead p => exact hR.carries_treeReadStep p h hy
  | encode p => exact hR.carries_encodeStep p h hy
  | decode p => exact hR.carries_decodeStep p h hy
  | ctClear p => cases p <;> exact Carries.next (fun _ _ => rfl) h hy

/-- R53: a run goes the same way, in at most as many engine steps, and from there on alike. -/
theorem Unnoticed.runEngine_withOutside {n : Nat} : ∀ {s t : State} {y : Outside}, runEngine n s = .next t →
    R s.outside y → ∃ y', R t.outside y' ∧
      ∃ k ≤ n, ∀ m, runEngine (k + m) (s.withOutside y) = runEngine m (t.withOutside y') := by
  induction n with
  | zero =>
    intro s t y h hy
    cases h
    exact ⟨y, hy, 0, Nat.le_refl 0, fun m => by rw [Nat.zero_add]⟩
  | succ n ih =>
    intro s t y h hy
    cases hstep : engineStep s with
    | none =>
      rw [runEngine_of_none hstep] at h
      cases h
      exact ⟨y, hy, 0, Nat.zero_le _, fun m => by rw [Nat.zero_add]⟩
    | some r =>
      cases r with
      | next u =>
        rw [runEngine_of_next hstep] at h
        obtain ⟨y₁, hy₁, hstep₁⟩ := hR.carries_engineStep hstep hy
        obtain ⟨y', hy', k, hk, hrun⟩ := ih h hy₁
        refine ⟨y', hy', k + 1, Nat.succ_le_succ hk, fun m => ?_⟩
        rw [Nat.add_right_comm, runEngine_of_next hstep₁, hrun]
      | fault f => simp only [runEngine, hstep] at h; cases h
      | refused f => simp only [runEngine, hstep] at h; cases h

end

/-! ### The three differences -/

/-- R49: one more entry at the tail of `IN_Q`. -/
def Sent (e : InEntry) (x y : Outside) : Prop := y = { x with inQ := x.inQ ++ [e] }

/-- R50: the head `b` of `OUT_Q` received. -/
def Received (b : Byte) (x y : Outside) : Prop :=
  ∃ q, x.outQ = b :: q ∧ y = { x with outQ := q, received := x.received ++ [b] }

/-- R5: other parameters, with an `OUT_Q` at least as deep. -/
def Reparametrized (p : Params) (x y : Outside) : Prop :=
  x.params.outDepth ≤ p.outDepth ∧ y = { x with params := p }

theorem sent_unnoticed (e : InEntry) : Unnoticed (Sent e) where
  pop := by
    rintro x _ rfl e' q hq
    exact ⟨q ++ [e], by rw [hq]; rfl, rfl⟩
  push := by
    rintro x _ rfl room b
    exact ⟨room, rfl⟩

theorem received_unnoticed (b : Byte) : Unnoticed (Received b) where
  pop := by
    rintro x _ ⟨p, hp, rfl⟩ e q hq
    exact ⟨q, hq, p, hp, rfl⟩
  push := by
    rintro x _ ⟨p, hp, rfl⟩ room b'
    rw [hp, List.length_cons] at room
    exact ⟨Nat.lt_of_succ_lt room, p ++ [b'], by rw [hp]; rfl, rfl⟩

theorem reparametrized_unnoticed (p : Params) : Unnoticed (Reparametrized p) where
  pop := by
    rintro x _ ⟨hp, rfl⟩ e q hq
    exact ⟨q, hq, hp, rfl⟩
  push := by
    rintro x _ ⟨hp, rfl⟩ room b
    exact ⟨Nat.lt_of_lt_of_le room hp, hp, rfl⟩

/-- Settles O30: none of the three differences is noticed by a run. -/
theorem transfersAndDepthsDoNotChangeTheRun : Obligations.TransfersAndDepthsDoNotChangeTheRun := by
  unfold Obligations.TransfersAndDepthsDoNotChangeTheRun
  intro n s t h
  refine ⟨fun e => ?_, fun b q hq => ?_, fun p hp => ?_⟩
  · obtain ⟨_, rfl, hrun⟩ := (sent_unnoticed e).runEngine_withOutside h rfl
    exact hrun
  · obtain ⟨_, ⟨q', hq', rfl⟩, k, hk, hrun⟩ := (received_unnoticed b).runEngine_withOutside h ⟨q, hq, rfl⟩
    exact ⟨q', k, hq', hk, hrun⟩
  · obtain ⟨_, ⟨_, rfl⟩, hrun⟩ := (reparametrized_unnoticed p).runEngine_withOutside h ⟨hp, rfl⟩
    exact hrun

end Sys2Proof.Machine

/-! What crosses the two streams: the transfers of an engine step and of a host's turn, and that none loses a byte
(R49 to R54). -/

namespace Sys2Proof.Machine

/-! ### One engine step -/

/-- Settles O27: the step's one transfer moves the byte, and what the command changes besides leaves the streams
alone. -/
theorem engineStepMovesAtMostOneByte : Obligations.EngineStepMovesAtMostOneByte := by
  unfold Obligations.EngineStepMovesAtMostOneByte
  intro s t h
  obtain ⟨i, _, u, htr, hch⟩ := engineStep_effect h
  rw [hch.outQ, hch.outCount, hch.inQ, hch.inCount, hch.inEnded]
  have hnot : s.needsInput = none ∨ s.status.inEnded = true → s.needsInput.isSome = true →
      s.status.inEnded = false → False := by
    rintro (hnone | hended) hsome hend
    · rw [hnone] at hsome
      cases hsome
    · cases hended.symm.trans hend
  cases htr with
  | none hin hout hu =>
    subst hu
    exact ⟨fun b hb => (nomatch hout.symm.trans hb), fun _ => ⟨rfl, rfl⟩, fun hsome hend => (hnot hin hsome hend).elim,
      fun _ => ⟨rfl, rfl, rfl⟩, .inr hout⟩
  | took e q hin hend hq hout hu =>
    subst hu
    have hlast : (taken e q s).status.inEnded = e.last := by rw [taken_status_inEnded, hend, Bool.false_or]
    exact ⟨fun b hb => (nomatch hout.symm.trans hb), fun _ => ⟨rfl, rfl⟩, fun _ _ => ⟨e, hq, rfl, hlast⟩,
      fun h => (hnot h hin hend).elim, .inr hout⟩
  | gave b hin hout room hu =>
    subst hu
    refine ⟨fun b' hb => ?_, fun hnone => (nomatch hout.symm.trans hnone),
      fun hsome hend => (hnot (.inl hin) hsome hend).elim, fun _ => ⟨rfl, rfl, rfl⟩, .inl hin⟩
    cases hout.symm.trans hb
    exact ⟨rfl, rfl, room⟩

/-- R51: a step that needs a byte, after the input ended. -/
theorem StepForm.eq_truncation {s : State} {p : Phase} {o : Option Byte} {a : Option Result}
    (h : StepForm s (some p) o a) (hend : s.status.inEnded = true) :
    a = some (.next (raiseError p.truncation 0 s)) := by
  cases h with
  | pops _ k _ => exact inPop_ended hend p k

theorem busy_of_needsInput {s : State} {p : Phase} (h : s.needsInput = some p) : s.busy = true := by
  cases hb : s.busy with
  | true => rfl
  | false =>
    rw [State.needsInput, busy_eq_false_iff.mp hb] at h
    cases h

/-- Settles O26: a step that needs a byte is an `InPop`, which raises the truncation of its phase. -/
theorem inputEndedRaisesTruncation : Obligations.InputEndedRaisesTruncation := by
  unfold Obligations.InputEndedRaisesTruncation
  intro s hend
  have htrunc : ∀ p, s.needsInput = some p → engineStep s = some (.next (raiseError p.truncation 0 s)) := by
    intro p hp
    have hform := engineStep_form (busy_of_needsInput hp)
    rw [hp] at hform
    exact hform.eq_truncation hend
  exact ⟨htrunc .tree, htrunc .hdr, htrunc .bits, htrunc .sym⟩

/-! ### The host's transition -/

/-- Settles O28: the turn's two cases are whether `IN_Q` has room. -/
theorem sendEnqueuesOrWaits : Obligations.SendEnqueuesOrWaits := by
  unfold Obligations.SendEnqueuesOrWaits
  intro s b last n rest hs
  unfold step machineStep
  rw [hs]
  exact ⟨fun room => if_pos room, fun full => if_neg (Nat.not_lt.mpr full)⟩

/-- Settles O29: the turn's two cases are whether `OUT_Q` holds a byte. -/
theorem recvDequeuesOrWaits : Obligations.RecvDequeuesOrWaits := by
  unfold Obligations.RecvDequeuesOrWaits
  intro s n rest hs
  unfold step machineStep
  rw [hs]
  constructor
  · intro b q hq
    simp only [takeTurn, hq]
    rfl
  · intro hq
    simp only [takeTurn, hq]

/-- The host's transition from `s` to `u` moves the entry it sends and the byte it receives, and no other; the counts
restart if it is a request that is taken (R49, R50, R90). -/
structure HostMoved (s u : State) : Prop where
  received : u.received = s.received ++ s.hostTakes
  outQ : s.hostTakes ++ u.outQ = s.outQ
  inQ : u.inQ = s.inQ ++ s.hostSends
  restarts : s.takesRequest → u.outCount = 0 ∧ u.inCount = 0
  counts : ¬s.takesRequest → u.outCount = s.outCount ∧ u.inCount = s.inCount

section
variable {s u : State} {a : HostAction} {n : Nat} {rest : List Turn}

theorem hostTakes_of_ne_recv (hs : s.script = { action := a, lead := n } :: rest) (ha : a ≠ .recv) :
    s.hostTakes = [] := by
  unfold State.hostTakes
  rw [hs]
  cases a with
  | recv => exact absurd rfl ha
  | _ => rfl

theorem hostSends_of_ne_send (hs : s.script = { action := a, lead := n } :: rest)
    (ha : ∀ b last, a ≠ .send b last) : s.hostSends = [] := by
  unfold State.hostSends
  rw [hs]
  cases a with
  | send b last => exact absurd rfl (ha b last)
  | _ => rfl

theorem not_takesRequest (hs : s.script = { action := a, lead := n } :: rest)
    (ha : ∀ w, a ≠ .write (s.params.regBase + 0x04) 32 w) : ¬s.takesRequest := by
  rintro ⟨_, w, n', rest', hs'⟩
  rw [hs] at hs'
  cases hs'
  exact ha w rfl

theorem SameStreams.hostMoved (h : SameStreams s u) (htake : s.hostTakes = []) (hsend : s.hostSends = [])
    (hreq : ¬s.takesRequest) : HostMoved s u where
  received := by rw [h.received, htake, List.append_nil]
  outQ := by rw [h.outQ, htake, List.nil_append]
  inQ := by rw [h.inQ, hsend, List.append_nil]
  restarts := fun hr => absurd hr hreq
  counts := fun _ => ⟨h.outCount, h.inCount⟩

theorem addr_of_offset? {p : Params} {addr off : Nat} (h : p.offset? addr = some off) : addr = p.regBase + off := by
  unfold Params.offset? at h
  split at h
  · cases h
    omega
  · cases h

/-- R43, R90: a write in the window, by whether it is a request that is taken. -/
theorem busWrite_hostMoved {addr width off : Nat} {v : Word} (t : Turn)
    (hs : s.script = { action := .write addr width v, lead := n } :: rest) (ho : s.params.offset? addr = some off) :
    HostMoved s (busWrite off width v (beginTurn t rest s)) := by
  have htake := hostTakes_of_ne_recv hs nofun
  have hsend := hostSends_of_ne_send hs nofun
  obtain rfl := addr_of_offset? ho
  obtain ⟨rfl, rfl, hready, hrestart⟩ | ⟨hnot, hsame⟩ := busWrite_streams off width v (beginTurn t rest s)
  · have hreq : s.takesRequest := ⟨hready, v, n, rest, hs⟩
    exact
      { received := by rw [hrestart.received, htake, List.append_nil, beginTurn_received]
        outQ := by rw [hrestart.outQ, htake, List.nil_append, beginTurn_outQ]
        inQ := by rw [hrestart.inQ, hsend, List.append_nil, beginTurn_inQ]
        restarts := fun _ => ⟨hrestart.outCount, hrestart.inCount⟩
        counts := fun h => absurd hreq h }
  · have hsame' : SameStreams s (busWrite off width v (beginTurn t rest s)) :=
      ⟨hsame.received, hsame.outQ, hsame.inQ, hsame.outCount, hsame.inCount⟩
    refine hsame'.hostMoved htake hsend ?_
    rintro ⟨hready, w, n', rest', hs'⟩
    have hturn := hs.symm.trans hs'
    simp only [List.cons.injEq, Turn.mk.injEq, HostAction.write.injEq, Nat.add_left_cancel_iff] at hturn
    obtain ⟨⟨⟨hoff, hwidth, _⟩, _⟩, _⟩ := hturn
    exact hnot ⟨hoff, hwidth, hready⟩

/-- Every transition of the host but a reset. -/
theorem HostMove.hostMoved (h : HostMove s n u) (hrst : ∀ n rest, s.script ≠ { action := .rst, lead := n } :: rest) :
    HostMoved s u := by
  have hrefl : SameStreams s s := ⟨rfl, rfl, rfl, rfl, rfl⟩
  cases h with
  | noTurn hs =>
    refine hrefl.hostMoved (by rw [State.hostTakes, hs]) (by rw [State.hostSends, hs]) ?_
    rintro ⟨_, w, n', rest', hs'⟩
    rw [hs] at hs'
    cases hs'
  | writesOutside hs ho =>
    refine SameStreams.hostMoved ⟨rfl, rfl, rfl, rfl, rfl⟩ (hostTakes_of_ne_recv hs nofun)
      (hostSends_of_ne_send hs nofun) (not_takesRequest hs ?_)
    intro w hw
    cases hw
    rw [offset?_regBase_add s.params (by decide)] at ho
    cases ho
  | writes hs ho => exact busWrite_hostMoved _ hs ho
  | readsOutside hs | reads hs | pollsBusy hs | pollsIdle hs | pauses hs =>
    exact SameStreams.hostMoved ⟨rfl, rfl, rfl, rfl, rfl⟩ (hostTakes_of_ne_recv hs nofun)
      (hostSends_of_ne_send hs nofun) (not_takesRequest hs nofun)
  | sends hs room =>
    have htake := hostTakes_of_ne_recv hs nofun
    have hreq := not_takesRequest hs nofun
    exact
      { received := by rw [htake, List.append_nil]; rfl
        outQ := by rw [htake]; rfl
        inQ := by rw [State.hostSends, hs]; simp only [if_pos room]; rfl
        restarts := fun h => absurd h hreq
        counts := fun _ => ⟨rfl, rfl⟩ }
  | sendWaits hs full =>
    refine hrefl.hostMoved (hostTakes_of_ne_recv hs nofun) ?_ (not_takesRequest hs nofun)
    rw [State.hostSends, hs]
    exact if_neg full
  | receives hs hq =>
    have htake : s.hostTakes = s.outQ.take 1 := by rw [State.hostTakes, hs]
    have hsend := hostSends_of_ne_send hs nofun
    have hreq := not_takesRequest hs nofun
    rw [hq] at htake
    exact
      { received := by rw [htake]; rfl
        outQ := by rw [htake, hq]; rfl
        inQ := by rw [hsend, List.append_nil]; rfl
        restarts := fun h => absurd h hreq
        counts := fun _ => ⟨rfl, rfl⟩ }
  | recvWaits hs hq =>
    refine hrefl.hostMoved ?_ (hostSends_of_ne_send hs nofun) (not_takesRequest hs nofun)
    rw [State.hostTakes, hs, hq]
    rfl
  | resets hs => exact absurd hs (hrst _ _)

end

/-- Settles O31: the host's transition moves what its turn says, and the engine steps after it move `bs` and `es`. -/
theorem noByteIsLost : Obligations.NoByteIsLost := by
  unfold Obligations.NoByteIsLost
  intro s t h hrst
  obtain ⟨n, u, hmove, hstep⟩ := step_eq_runEngine s
  rw [hstep] at h
  have hhost := hmove.hostMoved hrst
  obtain ⟨bs, es, hrun⟩ := runEngine_moved h
  refine ⟨bs, es, ?_, ?_, ?_, fun hreq => ?_, fun hreq => ?_⟩
  · rw [hrun.received, hhost.received]
  · rw [hrun.outQ, ← List.append_assoc, hhost.outQ]
  · rw [← hhost.inQ, hrun.inQ]
  · obtain ⟨hout, hin⟩ := hhost.restarts hreq
    exact ⟨by rw [hrun.outCount, hout]; exact BitVec.zero_add _, by rw [hrun.inCount, hin]; exact BitVec.zero_add _⟩
  · obtain ⟨hout, hin⟩ := hhost.counts hreq
    exact ⟨by rw [hrun.outCount, hout], by rw [hrun.inCount, hin]⟩

end Sys2Proof.Machine

/-! What a running command reads from the registers: set when it is accepted, and constant until it ends (R44, R56,
R90). -/

namespace Sys2Proof.Machine

/-- R51, R52: a transfer changes no operand of a command. -/
theorem Transfer.operands {s u : State} (h : Transfer s u) :
    u.cfg = s.cfg ∧ u.symCount = s.symCount ∧ u.table = s.table ∧ u.arena = s.arena ∧ u.nodeCount = s.nodeCount := by
  cases h <;> subst u <;> exact ⟨rfl, rfl, rfl, rfl, rfl⟩

/-- R44, R90: while a command runs, a write to a register leaves the command and its operands alone: a write to an
idle-write register or to `CMD` is rejected, and no other register holds an operand. -/
theorem regWrite_of_busy {s : State} (hb : s.busy = true) (r : Reg) (v : Word) :
    SameCommand s (regWrite r v s) ∧ (regWrite r v s).symCount = s.symCount := by
  unfold regWrite
  rw [hb, Bool.and_true]
  split
  · exact ⟨⟨rfl, rfl, rfl, rfl, rfl, rfl⟩, rfl⟩
  · rename_i hidle
    cases r with
    | cmd =>
      have hnot : ¬s.ready := fun h => by cases hb.symm.trans h.1
      show SameCommand s (commandRequest v s) ∧ (commandRequest v s).symCount = s.symCount
      rw [commandRequest_dropped hnot]
      exact ⟨⟨rfl, rfl, rfl, rfl, rfl, rfl⟩, rfl⟩
    | status =>
      show SameCommand s (s.writeStatus v) ∧ (s.writeStatus v).symCount = s.symCount
      unfold State.writeStatus
      split <;> exact ⟨⟨rfl, rfl, rfl, rfl, rfl, rfl⟩, rfl⟩
    | cfg | symCountLo | symCountHi | nodeCount | nodeA | nodeB | ctLen | ctWord => exact absurd rfl hidle
    | _ => exact ⟨⟨rfl, rfl, rfl, rfl, rfl, rfl⟩, rfl⟩

theorem busWrite_of_busy {s : State} (hb : s.busy = true) (off width : Nat) (v : Word) :
    SameCommand s (busWrite off width v s) ∧ (busWrite off width v s).symCount = s.symCount := by
  unfold busWrite
  split
  · exact regWrite_of_busy hb _ v
  · exact ⟨⟨rfl, rfl, rfl, rfl, rfl, rfl⟩, rfl⟩

/-- Settles O24: no transfer, no change of another command and no host write reaches an operand of the running one. -/
theorem operandsConstantWhileRunning : Obligations.OperandsConstantWhileRunning := by
  unfold Obligations.OperandsConstantWhileRunning
  constructor
  · intro s t h
    obtain ⟨i, hopr, u, htr, hch⟩ := engineStep_effect h
    obtain ⟨hcfg, hsym, htab, harena, hcount⟩ := htr.operands
    rw [hopr, ← hcfg, ← hsym, ← htab, ← harena, ← hcount]
    refine ⟨hch.cfg, fun hi => hch.symCount (mt (congrArg some) hi), fun hi => hch.table (mt (congrArg some) hi),
      fun hi => ?_⟩
    cases hi
    exact ⟨hch.arena nofun nofun, hch.nodeCount nofun nofun⟩
  · intro s off width v hb
    obtain ⟨h, hsym⟩ := busWrite_of_busy hb off width v
    exact ⟨h.cfg, hsym, h.nodeCount, h.arena, h.table, h.engine⟩

/-- Settles O9: the accepted command is at its first position, and no engine step follows. -/
theorem acceptanceSetsBusy : Obligations.AcceptanceSetsBusy := by
  unfold Obligations.AcceptanceSetsBusy
  intro s i hready hcfg hlead
  refine ⟨startOf i, startOf_running i, startOf_opr i, ?_⟩
  have hexec : exec i s = .next (issue i s) := by rw [exec_eq_runEngine_issue, hlead, runEngine_zero]
  rw [hexec, issue_accepted hready hcfg, ← opcodeField_encode]
  rfl

end Sys2Proof.Machine

/-! The host's accesses: bad ones, and the words that good reads return (R42, R45, R47). -/

namespace Sys2Proof.Machine

/-! ### Bad accesses (R45) -/

theorem slotReg_of_le {k : Nat} (h : 21 ≤ k) : slotReg k = none := by
  obtain ⟨j, rfl⟩ := Nat.exists_eq_add_of_le' h
  rfl

/-- R45: an access that is narrow, misaligned or past the last register reaches none. -/
theorem accessReg_eq_none {off width : Nat} (h : width ≠ 32 ∨ off % 4 ≠ 0 ∨ 0x54 ≤ off) :
    accessReg off width = none := by
  unfold accessReg
  split
  · exact slotReg_of_le (by omega)
  · rfl

theorem bad_access_of_none {off width : Nat} (h : accessReg off width = none) (v : Word) (s : State) :
    busRead off width s = 0 ∧ busWrite off width v s = s.reject := by
  rw [busRead, busWrite, h]
  exact ⟨rfl, rfl⟩

/-- R25: with `NODE_SEL` = 511 neither window names an entry. -/
theorem nodeWindow_of_511 {s : State} (h : s.nodeSel = 511) {r : Reg} (hr : r = .nodeA ∨ r = .nodeB) (v : Word) :
    regRead r s = 0 ∧ regWrite r v s = s.reject := by
  have hnode : s.node? s.nodeSel = none := node?_eq_none.mpr h
  have hwin : ∀ f, writeNodeWindow f s = s.reject := fun f => by
    rw [writeNodeWindow, State.mapNode?, hnode]
  obtain rfl | rfl := hr <;> simp only [regRead, hnode, regWrite, regApply, hwin, ite_self, and_self]

/-- Settles O47: the access reaches no register, or a window on no entry. -/
theorem badAccessReadsZeroAndRejects : Obligations.BadAccessReadsZeroAndRejects := by
  unfold Obligations.BadAccessReadsZeroAndRejects
  rintro s off width v - (h | h | h | ⟨hoff, hsel⟩)
  · exact bad_access_of_none (accessReg_eq_none (.inl h)) v s
  · exact bad_access_of_none (accessReg_eq_none (.inr (.inl h))) v s
  · exact bad_access_of_none (accessReg_eq_none (.inr (.inr h))) v s
  · by_cases hw : width = 32
    · subst hw
      obtain rfl | rfl := hoff
      · exact nodeWindow_of_511 hsel (.inl rfl) v
      · exact nodeWindow_of_511 hsel (.inr rfl) v
    · exact bad_access_of_none (accessReg_eq_none (.inl hw)) v s

/-! ### Reads (R42) -/

/-- The step of a turn that reads in the window. -/
theorem step_of_read {s : State} {off width n : Nat} {rest : List Turn} (hoff : off < 0x100)
    (hs : s.script = { action := .read (s.params.regBase + off) width, lead := n } :: rest) :
    step s = runEngine n { s with script := rest, lead := n, reads := s.reads ++ [busRead off width s] } := by
  simp only [step, machineStep, hs, takeTurn, readTurn, beginTurn_params, offset?_regBase_add s.params hoff]
  rfl

/-! ### The words of the field layouts (R17, R18, R26, R27, R28, R47) -/

/-- R47: in a 32-bit word the lower part stands as it is and the upper part above it. -/
theorem setWidth_append_low_or_high {m n : Nat} (x : BitVec m) (y : BitVec n) :
    (x ++ y).setWidth 32 = y.setWidth 32 ||| x.setWidth 32 <<< n := by
  rw [BitVec.setWidth_append_eq_shiftLeft_setWidth_or, BitVec.or_comm]

theorem setWidth_reserved (m : Nat) : (0 : BitVec m).setWidth 32 = 0#32 := BitVec.setWidth_zero 32 m

theorem setWidth_ofBool (b : Bool) : (BitVec.ofBool b).setWidth 32 = ((if b then 1 else 0 : Nat) : Word) := by
  cases b <;> rfl

theorem irqEnWord_eq (e : IrqEn) : e.word = (if e.doneIe then 1 else 0) + (if e.errIe then 2 else 0) := by
  obtain ⟨d, r⟩ := e
  cases d <;> cases r <;> rfl

theorem cfgWord_eq (c : Cfg) : c.word = c.separator.setWidth 32 ||| c.internalMarker.setWidth 32 <<< 8 := by
  rw [← BitVec.setWidth_eq c.word, Cfg.word]
  simp only [setWidth_append_low_or_high, setWidth_reserved, BitVec.zero_shiftLeft, BitVec.or_zero]

theorem ctSelWord_eq (c : CtSel) : c.asWord = c.sym.setWidth 32 ||| c.word.setWidth 32 <<< 8 := by
  rw [← BitVec.setWidth_eq c.asWord, CtSel.asWord]
  simp only [setWidth_append_low_or_high, setWidth_reserved, BitVec.zero_shiftLeft, BitVec.or_zero]

theorem wordA_eq (n : Node) :
    n.wordA = (if n.leaf then 1 else 0) ||| n.edge.setWidth 32 <<< 8 ||| n.symbol.setWidth 32 <<< 16 := by
  rw [← BitVec.setWidth_eq n.wordA, Node.wordA]
  simp only [setWidth_append_low_or_high, setWidth_reserved, setWidth_ofBool, BitVec.zero_shiftLeft, BitVec.or_zero,
    BitVec.zero_or, BitVec.shiftLeft_or_distrib, ← BitVec.shiftLeft_add, BitVec.or_assoc]

theorem wordB_eq (n : Node) : n.wordB = n.left.setWidth 32 ||| n.right.setWidth 32 <<< 16 := by
  rw [← BitVec.setWidth_eq n.wordB, Node.wordB]
  simp only [setWidth_append_low_or_high, setWidth_reserved, BitVec.zero_shiftLeft, BitVec.or_zero, BitVec.zero_or,
    ← BitVec.shiftLeft_add]

/-- Settles O48: a read's turn only records the value, and each register reads as the word of its fields. -/
theorem readsHaveNoSideEffect : Obligations.ReadsHaveNoSideEffect := by
  unfold Obligations.ReadsHaveNoSideEffect
  refine ⟨fun s off width rest hoff hs => step_of_read hoff hs, fun s => ?_⟩
  refine ⟨irqEnWord_eq _, cfgWord_eq _, rfl, rfl, rfl, rfl, rfl, rfl, rfl, rfl, rfl, rfl, rfl, ctSelWord_eq _, rfl,
    fun n hn => ⟨?_, ?_⟩⟩
  · exact (busRead_offset .nodeA s).trans ((regRead_nodeA hn).trans (wordA_eq n))
  · exact (busRead_offset .nodeB s).trans ((regRead_nodeB hn).trans (wordB_eq n))

end Sys2Proof.Machine

/-! The command word (R61, R62, R90): the fields of a word make the word, the opcode table is one-to-one, and so the decoder
and the encoder are inverse to each other. -/

namespace Sys2Proof.Machine

/-! ### The fields of a word (R15, R47) -/

/-- R15: a word is its two fields. -/
theorem reservedField_append_opcodeField (w : Word) : reservedField w ++ opcodeField w = w := by
  unfold reservedField opcodeField
  rw [BitVec.extractLsb'_append_extractLsb'_eq_extractLsb' (by rfl)]
  exact BitVec.extractLsb'_eq_self

/-- R47: the four bytes of a word make the word. -/
theorem wordOfBytes_of_word (w : Word) :
    wordOfBytes (w.extractLsb' 0 8) (w.extractLsb' 8 8) (w.extractLsb' 16 8) (w.extractLsb' 24 8) = w := by
  unfold wordOfBytes
  rw [BitVec.extractLsb'_append_extractLsb'_eq_extractLsb' (by rfl),
    BitVec.extractLsb'_append_extractLsb'_eq_extractLsb' (by rfl),
    BitVec.extractLsb'_append_extractLsb'_eq_extractLsb' (by rfl)]
  exact BitVec.extractLsb'_eq_self

/-! ### The opcode table (R61, R62) -/

theorem opcodeInstr_opcode (i : Instr) : opcodeInstr i.opcode = some i := by
  cases i <;> rfl

theorem opcodeInstr_some {op : Byte} {i : Instr} (h : opcodeInstr op = some i) : op = i.opcode := by
  unfold opcodeInstr at h
  split at h
  case h_7 => cases h
  all_goals
    rename_i hop
    cases h
    exact BitVec.eq_of_toNat_eq hop

/-- R62: the opcodes from 0x06 on stand for no command. -/
theorem opcodeInstr_eq_none_iff {op : Byte} : opcodeInstr op = none ↔ 0x06 ≤ op.toNat := by
  unfold opcodeInstr
  split
  case h_7 =>
    simp only [imp_false] at *
    simp only [true_iff]
    omega
  all_goals
    simp only [reduceCtorEq, false_iff]
    omega

/-! ### The decoder, case by case (R90) -/

theorem decode_of_reserved {w : Word} (h : reservedField w ≠ 0) : decode w = .error .reservedBits := by
  rw [decode, if_pos h]

theorem decode_of_none {w : Word} (h : reservedField w = 0) (hop : opcodeInstr (opcodeField w) = none) :
    decode w = .error .badOpcode := by
  rw [decode, if_neg (not_not.mpr h), hop]

theorem decode_of_some {w : Word} {i : Instr} (h : reservedField w = 0) (hop : opcodeInstr (opcodeField w) = some i) :
    decode w = .ok i := by
  rw [decode, if_neg (not_not.mpr h), hop]

/-- R61: a word decodes to a command exactly when it is that command's word. -/
theorem decode_eq_ok_iff {w : Word} {i : Instr} : decode w = .ok i ↔ w = encode i := by
  refine ⟨fun h => ?_, fun h => h ▸ decode_encode i⟩
  have hres : reservedField w = 0 := by
    by_contra hne
    cases (decode_of_reserved hne).symm.trans h
  cases hop : opcodeInstr (opcodeField w) with
  | none => cases (decode_of_none hres hop).symm.trans h
  | some j =>
    cases (decode_of_some hres hop).symm.trans h
    rw [← reservedField_append_opcodeField w, hres, opcodeInstr_some hop, encode]

/-- R47, R61: the decoder over the word's bytes reads the command of the word. -/
theorem decodeTableWord_eq_some_iff {w : Word} {i : Instr} :
    decodeTableWord 32 w.toNat = some i ↔ decode w = .ok i := by
  rw [decodeTableWord, if_neg (by decide), tableWord_toNat]
  simp only [bytesOfWord, decodeBytes, wordOfBytes_of_word]
  cases decode w <;> simp

/-- Settles O2: the word of a command is the one word that decodes to it, and its bytes make that word. -/
theorem decodeAndEncodeAgree : Obligations.DecodeAndEncodeAgree := by
  unfold Obligations.DecodeAndEncodeAgree
  exact ⟨fun i _ => decode_encode i, fun _ _ => decode_eq_ok_iff,
    fun _ _ => decodeTableWord_eq_some_iff.trans decode_eq_ok_iff⟩

/-- Settles O1: the six words are the words of the six commands. -/
theorem tableWordsDecode : Obligations.TableWordsDecode := by
  unfold Obligations.TableWordsDecode
  exact ⟨decode_encode .nop, decode_encode .treeWrite, decode_encode .treeRead, decode_encode .encode,
    decode_encode .decode, decode_encode .ctClear⟩

/-- Settles O3: `RSV` is checked first, and then the opcode is in the table or from 0x06 on. -/
theorem illegalWordsRejectedByName : Obligations.IllegalWordsRejectedByName := by
  unfold Obligations.IllegalWordsRejectedByName
  intro w
  refine ⟨decode_of_reserved, fun hres hop => decode_of_none hres (opcodeInstr_eq_none_iff.mpr hop), fun hres hop => ?_⟩
  cases hi : opcodeInstr (opcodeField w) with
  | none => exact absurd (opcodeInstr_eq_none_iff.mp hi) (Nat.not_le_of_lt (Nat.lt_succ_of_le hop))
  | some i => exact ⟨i, decode_of_some hres hi, (opcodeInstr_some hi).symm⟩

/-! ### Requests of words that stand for no command -/

/-- R90, R96: such a request, when it is taken, ends in the error of its cause with the word in `ERR_INFO`. -/
theorem busWrite_cmd_of_error {s : State} {w : Word} {r : WordReject} (hs : s.ready) (h : decode w = .error r) :
    busWrite 0x04 32 w s = s.refusedWith (opcodeField w) (rejectCause r).code (rejectCause r).detail w := by
  show commandRequest w s = _
  simp only [commandRequest, h, issueIllegal, request_ready hs]
  rfl

/-- Settles O6: by O3 the decoder names the cause, and the request records it. -/
theorem illegalRequestRecordsItsCause : Obligations.IllegalRequestRecordsItsCause := by
  unfold Obligations.IllegalRequestRecordsItsCause
  intro s w hs
  obtain ⟨hreserved, hbad, hgood⟩ := illegalWordsRejectedByName w
  refine ⟨fun h => busWrite_cmd_of_error hs (hreserved h), fun h hop => busWrite_cmd_of_error hs (hbad h hop),
    fun h hop => ?_⟩
  obtain ⟨i, hdec, hi⟩ := hgood h hop
  exact ⟨i, hi, busWrite_cmd_of_decode hdec s⟩

end Sys2Proof.Machine

/-! The frame that all commands share (R44, R51, R52, R63): a request, a stream transfer and the engine's own changes each
keep what the host alone writes. -/

namespace Sys2Proof.Machine

/-- What no command changes: the host's registers, `REJ`, the code words, the parameters and the host's side (R63). -/
structure KeepsHost (s t : State) : Prop where
  cfg : t.cfg = s.cfg
  irqEn : t.irqEn = s.irqEn
  nodeSel : t.nodeSel = s.nodeSel
  ctSel : t.ctSel = s.ctSel
  rej : t.status.rej = s.status.rej
  params : t.params = s.params
  draws : t.draws = s.draws
  script : t.script = s.script
  lead : t.lead = s.lead
  reads : t.reads = s.reads
  words : ∀ x : Byte, (t.entry x).words = (s.entry x).words

theorem KeepsHost.trans {s t u : State} (h : KeepsHost s t) (h' : KeepsHost t u) : KeepsHost s u where
  cfg := h'.cfg.trans h.cfg
  irqEn := h'.irqEn.trans h.irqEn
  nodeSel := h'.nodeSel.trans h.nodeSel
  ctSel := h'.ctSel.trans h.ctSel
  rej := h'.rej.trans h.rej
  params := h'.params.trans h.params
  draws := h'.draws.trans h.draws
  script := h'.script.trans h.script
  lead := h'.lead.trans h.lead
  reads := h'.reads.trans h.reads
  words x := (h'.words x).trans (h.words x)

/-- R51, R52: a stream transfer. -/
theorem Transfer.keepsHost {s u : State} (h : Transfer s u) : KeepsHost s u := by
  cases h <;> subst u <;> constructor <;> intros <;> rfl

/-- R63: the changes of a running command. -/
theorem Changes.keepsHost {i : Instr} {s t : State} (h : Changes i s t) : KeepsHost s t where
  cfg := h.cfg
  irqEn := h.irqEn
  nodeSel := h.nodeSel
  ctSel := h.ctSel
  rej := h.rej
  params := h.params
  draws := h.draws
  script := h.script
  lead := h.lead
  reads := h.reads
  words := h.words

theorem engineStep_keepsHost {s t : State} (h : engineStep s = some (.next t)) : KeepsHost s t := by
  obtain ⟨i, _, u, htransfer, hchanges⟩ := engineStep_effect h
  exact htransfer.keepsHost.trans hchanges.keepsHost

/-- R90: a request that is taken, accepted or not. -/
theorem issue_keepsHost {s : State} (hs : s.ready) (i : Instr) : KeepsHost s (issue i s) := by
  rw [issue, request_ready hs]
  split <;> constructor <;> intros <;> rfl

/-- R90: a request that is taken moves no byte. -/
theorem issue_countsRestart {s : State} (hs : s.ready) (i : Instr) : CountsRestart s (issue i s) := by
  rw [← busWrite_cmd_of_decode (decode_encode i)]
  exact commandRequest_taken hs (encode i)

/-- Settles O18: the request keeps the frame, each engine step keeps it, and the run moves the streams one way. -/
theorem commandsKeepTheHostsRegisters : Obligations.CommandsKeepTheHostsRegisters := by
  unfold Obligations.CommandsKeepTheHostsRegisters
  intro i s t hs h
  rw [exec_eq_runEngine_issue] at h
  have hk : KeepsHost s t :=
    runEngine_keeps (P := KeepsHost s) (fun _ _ hu he => hu.trans (engineStep_keepsHost he)) s.lead
      (issue_keepsHost hs i) h
  have hi := issue_countsRestart hs i
  obtain ⟨bs, es, hm⟩ := runEngine_moved h
  exact ⟨hk.cfg, hk.irqEn, hk.nodeSel, hk.ctSel, hk.rej, hk.params, hk.draws, hk.script, hk.lead, hk.reads,
    hm.received.trans hi.received, hk.words, ⟨bs, hi.outQ ▸ hm.outQ⟩, es, hi.inQ ▸ hm.inQ⟩

end Sys2Proof.Machine

/-! The container format (R65 to R69): the length of a serialized tree, the decimal text of a count as the digits of
`Nat.digits`, and the bits of the packed bitstream. -/

namespace Sys2Proof.Machine

/-! ### The serialized tree (R66) -/

/-- R66: a binary tree has one leaf more than internal nodes. -/
theorem leaves_eq_internals_succ (t : Tree) : t.leaves = t.internals + 1 := by
  induction t with
  | leaf e s => rfl
  | internal e l r ihl ihr =>
    simp only [Tree.leaves, Tree.internals]
    omega

/-- R65: a leaf is three bytes, an internal node two before its subtrees. -/
theorem treeBytes_length (im : Byte) (t : Tree) : (treeBytes im t).length = 3 * t.leaves + 2 * t.internals := by
  induction t with
  | leaf e s => rfl
  | internal e l r ihl ihr =>
    simp only [treeBytes, Tree.leaves, Tree.internals, List.length_cons, List.length_append]
    omega

/-- Settles O58: by the two inductions over the tree. -/
theorem treeBytesLength : Obligations.TreeBytesLength := by
  unfold Obligations.TreeBytesLength
  intro im t
  have hlen := treeBytes_length im t
  have hleaves := leaves_eq_internals_succ t
  refine ⟨hlen, hleaves, ?_, fun h => ?_⟩ <;> omega

/-! ### The decimal count (R67) -/

theorem digitByte_toNat {d : Nat} (h : d < 10) : (digitByte d).toNat = 0x30 + d := by
  rw [digitByte, BitVec.toNat_ofNat, Nat.mod_eq_of_lt (by omega)]

theorem digitValue_digitByte {d : Nat} (h : d < 10) : digitValue (digitByte d) = d := by
  rw [digitValue, digitByte_toNat h, Nat.add_sub_cancel_left]

/-- R67: with fuel enough, the digits put before `tail` are those of `n`, most significant first. -/
theorem decDigits_eq_digits {fuel : Nat} : ∀ {n : Nat} (tail : List Byte), n ≠ 0 → n < 10 ^ fuel →
    decDigits fuel n tail = (Nat.digits 10 n).reverse.map digitByte ++ tail := by
  induction fuel with
  | zero => intro n tail hn hlt; omega
  | succ fuel ih =>
    intro n tail hn hlt
    have hdigits : Nat.digits 10 n = n % 10 :: Nat.digits 10 (n / 10) := Nat.digits_def' (by decide) (by omega)
    rw [hdigits, decDigits]
    by_cases hz : n / 10 = 0
    · simp [hz]
    · have hlt' : n / 10 < 10 ^ fuel := by omega
      simp [hz, ih _ hz hlt']

theorem dec_zero : dec 0 = [0x30] := by decide

theorem count_lt_pow (n : Count) : n.toNat < 10 ^ 20 := Nat.lt_trans n.isLt (by decide)

/-- R67: 20 digits are enough for a 64-bit count. -/
theorem dec_eq_digits {n : Count} (h : n.toNat ≠ 0) : dec n = (Nat.digits 10 n.toNat).reverse.map digitByte := by
  rw [dec, decDigits_eq_digits [] h (count_lt_pow n), List.append_nil]

theorem digit_lt_ten {n d : Nat} (h : d ∈ Nat.digits 10 n) : d < 10 := Nat.digits_lt_base (by decide) h

/-- R68: the value of a text of digits, its last digit the least significant. -/
theorem digitsValue_digitBytes {ds : List Nat} (h : ∀ d ∈ ds, d < 10) :
    digitsValue (ds.reverse.map digitByte) = Nat.ofDigits 10 ds := by
  induction ds with
  | nil => rfl
  | cons d ds ih =>
    obtain ⟨hd, hds⟩ := List.forall_mem_cons.mp h
    unfold digitsValue at ih ⊢
    rw [List.reverse_cons, List.map_append, List.foldl_append, ih hds, Nat.ofDigits_cons]
    simp [digitValue_digitByte hd, Nat.mul_comm, Nat.add_comm]

/-- R67: the text of a count that is not 0 begins with its most significant digit, which is not 0. -/
theorem dec_head?_ne {n : Count} (h : n.toNat ≠ 0) : (dec n).head? ≠ some 0x30 := by
  have hnil : Nat.digits 10 n.toNat ≠ [] := Nat.digits_ne_nil_iff_ne_zero.mpr h
  have hlast := Nat.getLast_digit_ne_zero 10 h
  have hlt := digit_lt_ten (List.getLast_mem hnil)
  rw [dec_eq_digits h, List.head?_map, List.head?_reverse, List.getLast?_eq_getLast_of_ne_nil hnil]
  intro heq
  have hval := congrArg BitVec.toNat (Option.some.inj heq)
  rw [digitByte_toNat hlt] at hval
  exact hlast (Nat.add_left_cancel hval)

/-- Settles O57: 0 is its own case, and every other count has the digits of `Nat.digits`. -/
theorem decIsTheShortestDecimalText : Obligations.DecIsTheShortestDecimalText := by
  unfold Obligations.DecIsTheShortestDecimalText
  intro n
  by_cases hn : n = 0
  · subst hn
    rw [dec_zero]
    decide
  have hz : n.toNat ≠ 0 := fun h => hn (BitVec.eq_of_toNat_eq h)
  have hlt : ∀ d ∈ Nat.digits 10 n.toNat, d < 10 := fun _ => digit_lt_ten
  refine ⟨?_, ?_, ?_, ?_, fun h => absurd h hn, fun _ => dec_head?_ne hz⟩
  · rw [dec_eq_digits hz, List.length_map, List.length_reverse]
    exact List.length_pos_iff.mpr (Nat.digits_ne_nil_iff_ne_zero.mpr hz)
  · rw [dec_eq_digits hz, List.length_map, List.length_reverse]
    exact (Nat.digits_length_le_iff (by decide) n.toNat).mpr (count_lt_pow n)
  · intro b hb
    rw [dec_eq_digits hz] at hb
    obtain ⟨d, hd, rfl⟩ := List.mem_map.mp hb
    have := hlt d (List.mem_reverse.mp hd)
    rw [digitByte_toNat this]
    omega
  · rw [dec_eq_digits hz, digitsValue_digitBytes hlt, Nat.ofDigits_digits]

/-! ### The packed bitstream (R69) -/

/-- R82: the new bit is bit 0, and the others move up. -/
theorem getLsbD_shiftIn (acc : Byte) (bit : Bool) {i : Nat} (h : i < 8) :
    (shiftIn acc bit).getLsbD i = if i = 0 then bit else acc.getLsbD (i - 1) := by
  cases i with
  | zero => simp [shiftIn]
  | succ i => simp [shiftIn, h, -BitVec.getLsbD_eq_getElem]

/-- R69: of `m` bits shifted in, the first stands highest. -/
theorem getLsbD_foldl_shiftIn (f : Nat → Bool) {m : Nat} (hm : m ≤ 8) :
    ∀ {j : Nat}, j < m → ((List.range m).foldl (fun acc i => shiftIn acc (f i)) 0).getLsbD (m - 1 - j) = f j := by
  induction m with
  | zero => intro j hj; omega
  | succ m ih =>
    intro j hj
    rw [List.range_succ, List.foldl_append, List.foldl_cons, List.foldl_nil, getLsbD_shiftIn _ _ (by omega)]
    by_cases hlast : j = m
    · simp [hlast]
    · have hne : m + 1 - 1 - j ≠ 0 := by omega
      have hpos : m + 1 - 1 - j - 1 = m - 1 - j := by omega
      rw [if_neg hne, hpos, ih (by omega) (by omega)]

/-- R69: byte `k` holds the bits from `8k` on. -/
theorem byteBits_packByte (bits : List Bool) (k : Nat) :
    byteBits (packByte bits k) = (List.range 8).map fun i => bits.getD (8 * k + i) false := by
  unfold byteBits
  refine List.map_congr_left fun i hi => ?_
  exact getLsbD_foldl_shiftIn (fun i => bits.getD (8 * k + i) false) (Nat.le_refl 8) (List.mem_range.mp hi)

/-- The bits of `m` bytes in a row are the bits of the places up to `8m`. -/
theorem flatMap_range_bytes (f : Nat → Bool) (m : Nat) :
    ((List.range m).flatMap fun k => (List.range 8).map fun i => f (8 * k + i)) = (List.range (8 * m)).map f := by
  induction m with
  | zero => rfl
  | succ m ih =>
    rw [List.range_succ (n := m), List.flatMap_append, ih, Nat.mul_succ, List.range_add, List.map_append, List.map_map,
      List.flatMap_singleton]
    rfl

/-- A bit string read past its end gives zeros. -/
theorem map_getD_range {bits : List Bool} {m : Nat} (h : bits.length ≤ m) :
    ((List.range m).map fun i => bits.getD i false) = bits ++ List.replicate (m - bits.length) false := by
  refine List.ext_getElem (by simp; omega) fun i hi _ => ?_
  by_cases hin : i < bits.length
  · simp [hin]
  · simp [hin, List.getElem_append_right (Nat.le_of_not_lt hin)]

/-- R69: the packed bytes hold the bits, then zeros. -/
theorem bytesBits_packBits (bits : List Bool) :
    bytesBits (packBits bits) = bits ++ List.replicate (8 * ((bits.length + 7) / 8) - bits.length) false := by
  have hlen : bits.length ≤ 8 * ((bits.length + 7) / 8) := by omega
  rw [← map_getD_range hlen, ← flatMap_range_bytes, bytesBits, packBits, List.flatMap_map]
  simp only [byteBits_packByte]

theorem packBits_length (bits : List Bool) : (packBits bits).length = (bits.length + 7) / 8 := by
  rw [packBits, List.length_map, List.length_range]

/-- R69: `code(s)` has `CT_LEN[s]` bits. -/
theorem code_length (e : CodeEntry) : e.code.length = e.len.toNat := by
  rw [CodeEntry.code, List.length_map, List.length_range]

/-- R69: bit `j` of `code(s)` is `CodeBit(s, j)`. -/
theorem code_getElem? {e : CodeEntry} {j : Byte} (h : j.toNat < e.len.toNat) : e.code[j.toNat]? = some (e.codeBit j) := by
  rw [CodeEntry.code, List.getElem?_map, List.getElem?_range h, Option.map_some, BitVec.ofNat_toNat, BitVec.setWidth_eq]

theorem codeBits_length (s : State) (syms : List Byte) :
    (s.codeBits syms).length = (syms.map fun x => (s.entry x).len.toNat).sum := by
  simp only [State.codeBits, List.length_flatMap, code_length]

/-- Settles O60: the bitstream packs the concatenated codes. -/
theorem packedBytesHoldTheBits : Obligations.PackedBytesHoldTheBits := by
  unfold Obligations.PackedBytesHoldTheBits
  rintro s syms n rfl
  rw [← codeBits_length]
  exact ⟨rfl, packBits_length _, bytesBits_packBits _, fun _ _ => code_getElem?⟩

end Sys2Proof.Machine

/-! The tree codec, TREE_WRITE (R78, R79): a run of engine steps that ends a command, bytes pushed one after another,
and the checks of a visit. -/

namespace Sys2Proof.Machine

/-! ### Runs that end -/

/-- R90, R91: a command that is accepted, and whose engine is idle after `n` steps, answers the state of that moment
whatever the number of further steps its turn allows. -/
theorem exec_of_run {i : Instr} {s t : State} {n : Nat} (hs : s.ready) (hc : usesCfg i = true → s.cfg.legal = true)
    (hrun : runEngine n (goto (startOf i) (requestHead (encode i) s)) = .next t) (hidle : t.engine = .idle)
    (hn : n ≤ s.lead) : exec i s = .next t := by
  obtain ⟨k, hk⟩ := Nat.exists_eq_add_of_le hn
  rw [exec_eq_runEngine_issue, issue_accepted hs hc, hk, runEngine_add k hrun, runEngine_idle hidle]

/-- A run of one step. -/
theorem runEngine_one {s t : State} (h : engineStep s = some (.next t)) : runEngine 1 s = .next t :=
  runEngine_of_next h 0

/-- Two runs, one after the other. -/
theorem runEngine_trans {m n : Nat} {s t u : State} (h : runEngine m s = .next t) (h' : runEngine n t = .next u) :
    runEngine (m + n) s = .next u :=
  (runEngine_add n h).trans h'

/-! ### Bytes pushed one after another (R52) -/

/-- R52: the state after `OutPush` of each of `bs`. -/
def pushedAll (bs : List Byte) (s : State) : State :=
  { s with outQ := s.outQ ++ bs, outCount := s.outCount + BitVec.ofNat 64 bs.length }

section
variable (bs : List Byte) (s : State)

@[simp] theorem pushedAll_outQ : (pushedAll bs s).outQ = s.outQ ++ bs := rfl
@[simp] theorem pushedAll_params : (pushedAll bs s).params = s.params := rfl
@[simp] theorem pushedAll_cfg : (pushedAll bs s).cfg = s.cfg := rfl

theorem pushedAll_pushedAll (bs' : List Byte) : pushedAll bs' (pushedAll bs s) = pushedAll (bs ++ bs') s := by
  simp only [pushedAll, List.append_assoc, List.length_append, BitVec.ofNat_add, BitVec.add_assoc]

end

/-- R52: the `OutPush` of an engine step that goes on at `e'`, with room for the byte. -/
theorem outPush_goto {s : State} {e e' : Engine} (h : s.outQ.length < s.params.outDepth) (b : Byte) :
    outPush b (goto e s) (fun u => some (.next (goto e' u))) = some (.next (goto e' (pushedAll [b] s))) :=
  outPush_room (s := goto e s) h b _

/-! ### The visit of a node (R78, R79) -/

/-- A child index is legal exactly if it is above its parent's and below `NODE_COUNT`. -/
theorem childOk_iff {i c : NodeIdx} {s : State} :
    childOk i c s = true ↔ i.toNat < c.toNat ∧ c.toNat < s.nodeCount.toNat := by
  simp [childOk]

section
variable {s : State} {i : NodeIdx} {visits : Nat} {stk : Stack} {n : Node}

theorem treeWriteVisit_overflow (h : visits = 511) :
    treeWriteVisit i visits stk s = .next (raiseError .arenaOverflow 511 s) := by
  rw [treeWriteVisit, if_pos h]

theorem treeWriteVisit_leaf (hv : visits ≠ 511) (hn : s.node? i = some n) (hl : n.leaf = true) :
    treeWriteVisit i visits stk s = .next (goto (.treeWrite (.marker n (visits + 1) stk)) s) := by
  rw [treeWriteVisit, if_neg hv]
  simp only [hn, hl, if_true]

/-- R79, R99: the children of an internal node are checked before the stack. -/
theorem treeWriteVisit_internal (hv : visits ≠ 511) (hn : s.node? i = some n) (hl : n.leaf = false) :
    treeWriteVisit i visits stk s =
      if (i.toNat < n.left.toNat ∧ n.left.toNat < s.nodeCount.toNat) ∧
          (i.toNat < n.right.toNat ∧ n.right.toNat < s.nodeCount.toNat) then
        if stk.length = 255 then .next (raiseError .stackOverflow (i.setWidth 32) s)
        else .next (goto (.treeWrite (.marker n (visits + 1) stk)) s)
      else .next (raiseError .badChild (i.setWidth 32) s) := by
  rw [treeWriteVisit, if_neg hv]
  simp only [hn, hl, Bool.false_eq_true, if_false, Bool.not_eq_true', ← Bool.not_eq_true, childOk_iff, ite_not,
    ite_and]

end

/-- Settles O33: the visit of a leaf, and of an internal node whose children are, or are not, both legal. -/
theorem treeWriteVisitChecks : Obligations.TreeWriteVisitChecks := by
  unfold Obligations.TreeWriteVisitChecks
  intro s i visits stk hE
  have hstep : engineStep s = some (treeWriteVisit i visits stk s) := by rw [engineStep, hE]; rfl
  rw [hstep]
  refine ⟨fun hv => by rw [treeWriteVisit_overflow hv]; rfl,
    fun n hn hv => ⟨fun hl => ?_, fun hl hbad => ?_, fun hl h1 h2 => ?_⟩⟩
  · rw [treeWriteVisit_leaf hv hn hl]
    rfl
  · rw [treeWriteVisit_internal hv hn hl, if_neg hbad]
    rfl
  · rw [treeWriteVisit_internal hv hn hl, if_pos ⟨h1, h2⟩]
    exact ⟨fun hd => by rw [if_pos hd]; rfl, fun hd => by rw [if_neg hd]; rfl⟩

/-- Settles O32: the first engine step finds `NODE_COUNT` 0. -/
theorem treeWriteOfEmptyArenaFails : Obligations.TreeWriteOfEmptyArenaFails := by
  unfold Obligations.TreeWriteOfEmptyArenaFails
  intro s hs hc h0 hlead
  have hstep : engineStep (goto (.treeWrite .start) (requestHead (encode .treeWrite) s)) =
      some (.next (s.refusedWith 0x01 2 9 0)) := by
    simp only [engineStep, goto_engine, treeWriteStep, goto_nodeCount, requestHead_nodeCount, h0, if_true]
    rfl
  exact exec_of_run hs (fun _ => hc) (runEngine_one hstep) rfl hlead

end Sys2Proof.Machine

/-! TREE_WRITE pushes exactly the bytes of the tree that the arena holds (R65, R78). -/

namespace Sys2Proof.Machine

/-! ### Writing a tree (R78) -/

/-- What the arena holds depends on the arena and `NODE_COUNT` alone. -/
theorem holds_congr {s u : State} {t : Tree} {i : NodeIdx} (h : s.holds t i) (ha : u.arena = s.arena)
    (hc : u.nodeCount = s.nodeCount) : u.holds t i := by
  induction t generalizing i with
  | leaf e x =>
    obtain ⟨n, hn, hleaf⟩ := h
    exact ⟨n, (node?_congr ha i).trans hn, hleaf⟩
  | internal e l r ihl ihr =>
    obtain ⟨n, hn, hl, he, hleft, hright, hholdsl, hholdsr⟩ := h
    exact ⟨n, (node?_congr ha i).trans hn, hl, he, by rwa [hc], by rwa [hc], ihl hholdsl, ihr hholdsr⟩

/-- R78: a visit that passes its checks, then the marker and the edge byte. -/
theorem runEngine_visit {s : State} {i : NodeIdx} {visits : Nat} {stk : Stack} {n : Node}
    (hvisit : treeWriteVisit i visits stk s = .next (goto (.treeWrite (.marker n (visits + 1) stk)) s))
    (hroom : s.outQ.length + 2 ≤ s.params.outDepth) :
    runEngine 3 (goto (.treeWrite (.visit i visits stk)) s) =
      .next (goto (.treeWrite (afterEdge n (visits + 1) stk)) (pushedAll [markerByte n s.cfg, n.edge] s)) := by
  have hchecks : engineStep (goto (.treeWrite (.visit i visits stk)) s) =
      some (.next (goto (.treeWrite (.marker n (visits + 1) stk)) s)) := by
    rw [← hvisit]
    rfl
  have hmarker : engineStep (goto (.treeWrite (.marker n (visits + 1) stk)) s) =
      some (.next (goto (.treeWrite (.edge n (visits + 1) stk)) (pushedAll [markerByte n s.cfg] s))) :=
    outPush_goto (by omega) _
  have hedge : engineStep (goto (.treeWrite (.edge n (visits + 1) stk)) (pushedAll [markerByte n s.cfg] s)) =
      some (.next (goto (.treeWrite (afterEdge n (visits + 1) stk))
        (pushedAll [n.edge] (pushedAll [markerByte n s.cfg] s)))) :=
    outPush_goto (by simp; omega) _
  rw [pushedAll_pushedAll] at hedge
  exact runEngine_trans (runEngine_one hchecks) (runEngine_trans (runEngine_one hmarker) (runEngine_one hedge))

/-- R78: from the visit of a subtree's root the engine pushes the subtree's bytes and goes on at the next pending
subtree. -/
theorem runEngine_writes_tree {im : Byte} {t : Tree} : ∀ {s : State} {i : NodeIdx} {visits : Nat} {stk : Stack},
    s.cfg.internalMarker = im → s.holds t i → visits + t.size ≤ 511 → stk.length + t.pending ≤ 255 →
    s.outQ.length + (treeBytes im t).length ≤ s.params.outDepth →
      runEngine (4 * t.leaves + 3 * t.internals) (goto (.treeWrite (.visit i visits stk)) s) =
        .next (goto (.treeWrite (afterSymbol (visits + t.size) stk)) (pushedAll (treeBytes im t) s)) := by
  induction t with
  | leaf e x =>
    rintro s i visits stk rfl ⟨n, hn, hl, rfl, rfl⟩ hsize - hroom
    simp only [Tree.size, treeBytes, List.length_cons, List.length_nil] at hsize hroom
    have hhead := runEngine_visit (treeWriteVisit_leaf (stk := stk) (by omega : visits ≠ 511) hn hl) (by omega)
    simp only [markerByte, afterEdge, hl, if_true] at hhead
    have hsymbol : engineStep (goto (.treeWrite (.symbol n (visits + 1) stk))
          (pushedAll [Config.leafMarker, n.edge] s)) =
        some (.next (goto (.treeWrite (afterSymbol (visits + 1) stk))
          (pushedAll [n.symbol] (pushedAll [Config.leafMarker, n.edge] s)))) :=
      outPush_goto (by simp; omega) _
    rw [pushedAll_pushedAll] at hsymbol
    have hrun := runEngine_trans hhead (runEngine_one hsymbol)
    exact hrun
  | internal e l r ihl ihr =>
    rintro s i visits stk rfl ⟨n, hn, hl, rfl, hleft, hright, hholdsl, hholdsr⟩ hsize hdepth hroom
    simp only [Tree.size, Tree.pending, treeBytes, List.length_cons, List.length_append] at hsize hdepth hroom
    have hvisit : treeWriteVisit i visits stk s = .next (goto (.treeWrite (.marker n (visits + 1) stk)) s) := by
      rw [treeWriteVisit_internal (by omega) hn hl, if_pos ⟨hleft, hright⟩, if_neg (by omega)]
    have hhead := runEngine_visit hvisit (by omega)
    simp only [markerByte, afterEdge, hl, Bool.false_eq_true, if_false] at hhead
    generalize him : s.cfg.internalMarker = im at *
    have hleftRun := ihl (s := pushedAll [im, n.edge] s) (i := n.left) (visits := visits + 1)
      (stk := { idx := n.right, side := .right } :: stk) him (holds_congr hholdsl rfl rfl) (by omega)
      (by simp only [List.length_cons]; omega) (by simp; omega)
    have hrightRun := ihr (s := pushedAll (treeBytes im l) (pushedAll [im, n.edge] s)) (i := n.right)
      (visits := visits + 1 + l.size) (stk := stk) him (holds_congr hholdsr rfl rfl) (by omega) (by omega)
      (by simp; omega)
    have hrun := runEngine_trans hhead (runEngine_trans hleftRun hrightRun)
    have hsteps : 3 + ((4 * l.leaves + 3 * l.internals) + (4 * r.leaves + 3 * r.internals)) =
        4 * (Tree.internal n.edge l r).leaves + 3 * (Tree.internal n.edge l r).internals := by
      simp only [Tree.leaves, Tree.internals]
      omega
    have hvisits : visits + 1 + l.size + r.size = visits + (Tree.internal n.edge l r).size := by
      simp only [Tree.size]
      omega
    rwa [pushedAll_pushedAll, pushedAll_pushedAll, hsteps, hvisits] at hrun

/-- R90, R91: the counts start at 0, so a command that pushed `bs` completes with `OUT_COUNT` their number. -/
theorem complete_pushedAll_requestHead (i : Instr) (s : State) (bs : List Byte) :
    complete (pushedAll bs (requestHead (encode i) s)) =
      { s.finished i.opcode false 0 bs.length with outQ := s.outQ ++ bs } := by
  have hcount : (0 : Count) + BitVec.ofNat 64 bs.length = BitVec.ofNat 64 bs.length := BitVec.zero_add _
  rw [← opcodeField_encode, State.finished, ← hcount]
  rfl

/-- Settles O12: the visit of the root with nothing pending writes the whole tree, and the command ends. -/
theorem treeWriteEmitsTheTree : Obligations.TreeWriteEmitsTheTree := by
  unfold Obligations.TreeWriteEmitsTheTree
  intro s t hs hc hne hholds hfits hroom hlead
  obtain ⟨hsize, hdepth⟩ := hfits
  let u := requestHead (encode .treeWrite) s
  have hstart : engineStep (goto (.treeWrite .start) u) = some (.next (goto (.treeWrite (.visit 0 0 [])) u)) :=
    if_neg hne
  have htree := runEngine_writes_tree (s := u) (visits := 0) (stk := []) rfl (holds_congr hholds rfl rfl)
    (by simpa using hsize) (by simpa using hdepth) hroom
  have hfinish : engineStep (goto (.treeWrite .finish) (pushedAll (treeBytes s.cfg.internalMarker t) u)) =
      some (.next (complete (pushedAll (treeBytes s.cfg.internalMarker t) u))) := rfl
  have hrun := runEngine_trans (runEngine_one hstart) (runEngine_trans htree (runEngine_one hfinish))
  rw [exec_of_run hs (fun _ => hc) hrun rfl (by omega)]
  exact congrArg _ (complete_pushedAll_requestHead .treeWrite s _)

end Sys2Proof.Machine

/-! `ParseTree` (R75) step by step, for TREE_READ and for DECODE: a new node and its parent's link, and the checks at a
node's marker and at the stack. -/

namespace Sys2Proof.Machine

/-! ### A new node (R75) -/

/-- R75: the stack after a node is attached to its parent, the top: a left child leaves the parent waiting for its right
one, a right child completes it. -/
def attachedStack : Stack → Stack
  | [] => []
  | top :: rest =>
    match top.side with
    | .left => { top with side := .right } :: rest
    | .right => rest

theorem attachedStack_left (i : NodeIdx) (rest : Stack) :
    attachedStack ({ idx := i, side := .left } :: rest) = { idx := i, side := .right } :: rest := rfl

theorem attachedStack_right (i : NodeIdx) (rest : Stack) :
    attachedStack ({ idx := i, side := .right } :: rest) = rest := rfl

/-- R75: what attaching the node `i` makes of the entry `n` at index `j`: if it is the parent, a link on the top's
side. -/
def linkParent (stk : Stack) (i : NodeIdx) (j : Nat) (n : Node) : Node :=
  match stk with
  | [] => n
  | top :: _ =>
    if top.idx.toNat = j then
      match top.side with
      | .left => { n with left := i }
      | .right => { n with right := i }
    else n

/-- Only the parent's entry is linked. -/
theorem linkParent_of_ne {stk : Stack} {j : Nat} (h : ∀ top ∈ stk.head?, top.idx.toNat ≠ j) (i : NodeIdx) :
    linkParent stk i j = id := by
  funext n
  cases stk with
  | nil => rfl
  | cons top rest => exact if_neg (h top rfl)

/-- An entry of the arena is changed by `f`, and no other. -/
theorem getElem?_set_map (a : Vector Node 511) {i : Nat} (h : i < 511) (f : Node → Node) (j : Nat) :
    (a.set i (f a[i]))[j]? = a[j]?.map fun n => if i = j then f n else n := by
  rw [Vector.getElem?_set]
  by_cases hij : i = j
  · subst hij
    simp [h]
  · simp [hij]

/-- R75: a parent that names an entry is linked to the node `i`. -/
theorem attach_links {stk : Stack} {s : State} (htop : ∀ top ∈ stk.head?, top.idx.toNat < 511) (i : NodeIdx) :
    ∃ a : Vector Node 511, attach i stk s = some ({ s with arena := a }, attachedStack stk) ∧
      ∀ j : Nat, a[j]? = s.arena[j]?.map (linkParent stk i j) := by
  cases stk with
  | nil => exact ⟨s.arena, rfl, fun j => Option.map_id'.symm⟩
  | cons top rest =>
    have hlt : top.idx.toNat < 511 := htop top rfl
    obtain ⟨idx, side⟩ := top
    cases side with
    | left =>
      refine ⟨_, ?_, getElem?_set_map s.arena hlt fun n => { n with left := i }⟩
      simp only [attach, mapNode?_of_lt s _ hlt, Option.map_some, attachedStack]
    | right =>
      refine ⟨_, ?_, getElem?_set_map s.arena hlt fun n => { n with right := i }⟩
      simp only [attach, mapNode?_of_lt s _ hlt, Option.map_some, attachedStack]

/-- R75: the new node takes the next index, its parent is linked to it, and no other entry changes. -/
theorem newNode_links {s : State} {stk : Stack} (hn : s.nodeCount ≠ 511)
    (htop : ∀ top ∈ stk.head?, top.idx.toNat < s.nodeCount.toNat) (n : Node) :
    ∃ a : Vector Node 511,
      (∀ k, newNode n stk s k =
        .next (k s.nodeCount (attachedStack stk) { s with arena := a, nodeCount := s.nodeCount + 1 })) ∧
      a[s.nodeCount.toNat]? = some n ∧
      ∀ j : Nat, j ≠ s.nodeCount.toNat → a[j]? = s.arena[j]?.map (linkParent stk s.nodeCount j) := by
  have hlt := toNat_lt_511 hn
  obtain ⟨a, hattach, ha⟩ := attach_links (stk := stk)
    (s := { s with arena := s.arena.set s.nodeCount.toNat n, nodeCount := s.nodeCount + 1 })
    (fun top ht => Nat.lt_trans (htop top ht) hlt) s.nodeCount
  refine ⟨a, fun k => ?_, ?_, fun j hj => ?_⟩
  · simp only [newNode, setNode?_of_lt s n hlt, hattach]
  · rw [ha, linkParent_of_ne (fun top ht => Nat.ne_of_lt (htop top ht)), Option.map_id_apply]
    exact Vector.getElem?_set_self hlt
  · rw [ha]
    exact congrArg _ (Vector.getElem?_set_ne hlt hj.symm)

/-! ### The checks (R75, R99) -/

/-- R75: a command whose positions `wrap p` are those of `ParseTree`, and which goes on at `after`. -/
def RunsParse (wrap : ParsePos → Engine) (after : Engine) : Prop :=
  ∀ (p : ParsePos) (s : State), s.engine = wrap p → engineStep s = parseStep wrap after p s

theorem runsParse_treeRead : RunsParse (fun q => .treeRead (.parse q)) (.treeRead .finish) := by
  intro p s h
  rw [engineStep, h]
  rfl

theorem runsParse_decode : RunsParse (fun q => .decode (.parse q)) (.decode (.header 0 0)) := by
  intro p s h
  rw [engineStep, h]
  rfl

section
variable {wrap : ParsePos → Engine} {after : Engine} {s : State} {stk : Stack} {e : InEntry} {q : List InEntry}

/-- R75, R99: a full arena is found before the marker is taken. -/
theorem RunsParse.marker_full (hp : RunsParse wrap after) (hE : s.engine = wrap (.marker stk))
    (hn : s.nodeCount = 511) :
    engineStep s = some (.next (raiseError .arenaOverflow 511 s)) := by
  rw [hp _ s hE, parseStep, parseMarker, if_pos hn]

/-- R75: a marker is taken and then checked. -/
theorem RunsParse.marker (hp : RunsParse wrap after) (hE : s.engine = wrap (.marker stk)) (hn : s.nodeCount ≠ 511)
    (hend : s.status.inEnded = false) (hq : s.inQ = e :: q) :
    engineStep s =
      if e.byte ≠ 0x4C ∧ e.byte ≠ s.cfg.internalMarker then
        some (.next (raiseError .badMarker (e.byte.setWidth 32) (taken e q s)))
      else some (.next (goto (wrap (.edge stk e.byte)) (taken e q s))) := by
  rw [hp _ s hE, parseStep, parseMarker, if_neg hn, inPop_cons hend hq]
  rfl

/-- R75: the edge byte of an internal node is taken, the node is attached, and it becomes the parent of what follows
unless the stack is full. -/
theorem RunsParse.edge_internal (hp : RunsParse wrap after) {m : Byte} (hE : s.engine = wrap (.edge stk m))
    (hm : m ≠ 0x4C) (hend : s.status.inEnded = false) (hq : s.inQ = e :: q) :
    engineStep s = some (newNode (parsedInternal e.byte) stk (taken e q s) (pushParent wrap)) := by
  rw [hp _ s hE, parseStep, parseEdge, inPop_cons hend hq, if_neg hm]

/-- R75: the edge byte of a leaf is taken. -/
theorem RunsParse.edge_leaf (hp : RunsParse wrap after) (hE : s.engine = wrap (.edge stk 0x4C))
    (hend : s.status.inEnded = false) (hq : s.inQ = e :: q) :
    engineStep s = some (.next (goto (wrap (.symbol stk e.byte)) (taken e q s))) := by
  rw [hp _ s hE, parseStep, parseEdge, inPop_cons hend hq, if_pos rfl]

/-- R75: the symbol of a leaf is taken and the leaf is attached. -/
theorem RunsParse.symbol (hp : RunsParse wrap after) {x : Byte} (hE : s.engine = wrap (.symbol stk x))
    (hend : s.status.inEnded = false) (hq : s.inQ = e :: q) :
    engineStep s =
      some (newNode (parsedLeaf x e.byte) stk (taken e q s) fun _ stk2 s2 => afterLeaf wrap after stk2 s2) := by
  rw [hp _ s hE, parseStep, parseSymbol, inPop_cons hend hq]

end

/-- Settles O34: the two steps of `ParseTree` at a marker, under each of the two commands. -/
theorem parseTreeMarkerChecks : Obligations.ParseTreeMarkerChecks := by
  unfold Obligations.ParseTreeMarkerChecks
  intro s stk hE
  have hfull : s.nodeCount = 511 → engineStep s = some (.next (raiseError .arenaOverflow 511 s)) :=
    hE.elim runsParse_treeRead.marker_full runsParse_decode.marker_full
  refine ⟨hfull, fun e q hn hend hq => ⟨fun hl hi => ?_, fun hm => ?_⟩⟩
  · have hbad : e.byte ≠ 0x4C ∧ e.byte ≠ s.cfg.internalMarker := ⟨hl, hi⟩
    rcases hE with hE | hE
    · exact (runsParse_treeRead.marker hE hn hend hq).trans (if_pos hbad)
    · exact (runsParse_decode.marker hE hn hend hq).trans (if_pos hbad)
  · have hgood : ¬(e.byte ≠ 0x4C ∧ e.byte ≠ s.cfg.internalMarker) := by tauto
    rcases hE with hE | hE
    · exact ⟨_, (runsParse_treeRead.marker hE hn hend hq).trans (if_neg hgood), fun _ => rfl,
        fun h => absurd (hE.symm.trans h) nofun⟩
    · exact ⟨_, (runsParse_decode.marker hE hn hend hq).trans (if_neg hgood),
        fun h => absurd (hE.symm.trans h) nofun, fun _ => rfl⟩

/-- R75, R94, R97: an internal node that makes the stack overflow stays in the arena, counted and linked. -/
theorem RunsParse.stackOverflow {wrap : ParsePos → Engine} {after : Engine} (hp : RunsParse wrap after) {s : State}
    {top : StackEntry} {below : Stack} {m : Byte} {e : InEntry} {q : List InEntry}
    (hE : s.engine = wrap (.edge (top :: below) m)) (hm : m ≠ 0x4C) (hend : s.status.inEnded = false)
    (hq : s.inQ = e :: q) (hn : s.nodeCount ≠ 511) (htop : top.idx.toNat < s.nodeCount.toNat)
    (hbelow : below.length = 254) (hside : top.side = .left) :
    ∃ (p : Node) (a : Vector Node 511), s.node? top.idx = some p ∧
      engineStep s = some (.next (raiseError .stackOverflow (s.nodeCount.setWidth 32)
        { taken e q s with arena := a, nodeCount := s.nodeCount + 1 })) ∧
      a[top.idx.toNat]? = some { p with left := s.nodeCount } ∧
      a[s.nodeCount.toNat]? = some (parsedInternal e.byte) := by
  obtain ⟨a, hnew, hself, hothers⟩ := newNode_links (s := taken e q s) (stk := top :: below) hn
    (fun x hx => by cases hx; exact htop) (parsedInternal e.byte)
  obtain ⟨p, hnode⟩ := node?_of_valid htop
  have hparent : a[top.idx.toNat]? = some { p with left := s.nodeCount } := by
    rw [hothers _ (Nat.ne_of_lt htop), show (taken e q s).arena[top.idx.toNat]? = some p from hnode]
    simp only [Option.map_some, linkParent, if_true, hside, taken_nodeCount]
  have hfull : (attachedStack (top :: below)).length = Config.maxDepth := by
    simp only [attachedStack, hside, List.length_cons, hbelow]
  refine ⟨p, a, hnode, ?_, hparent, hself⟩
  rw [hp.edge_internal hE hm hend hq, hnew, pushParent, if_pos hfull]
  rfl

/-- Settles O35: the stack that the attachment leaves is full, under each of the two commands. -/
theorem parseTreeStackOverflow : Obligations.ParseTreeStackOverflow := by
  unfold Obligations.ParseTreeStackOverflow
  intro s top below m e q hE hm hend hq hn hstk hbelow hside
  have htop : top.idx.toNat < s.nodeCount.toNat := hstk.2 top List.mem_cons_self
  obtain ⟨p, a, hnode, hstep, hparent, hself⟩ := hE.elim
    (fun h => runsParse_treeRead.stackOverflow h hm hend hq hn htop hbelow hside)
    (fun h => runsParse_decode.stackOverflow h hm hend hq hn htop hbelow hside)
  exact ⟨p, _, hnode, hstep, rfl, rfl, rfl, rfl, rfl, rfl, hparent, hself⟩

end Sys2Proof.Machine

/-! `ParseTree` takes exactly the bytes of a tree and builds it in pre-order (R65, R75, R76): an induction over the
tree, with what the parse of a subtree leaves of the arena around it. -/

namespace Sys2Proof.Machine

/-! ### The arena that the parse of a subtree leaves (R76) -/

/-- R25: an index below 511 is a 9-bit index. -/
theorem nodeIdx_toNat {c : Nat} (hc : c < 511) : (BitVec.ofNat 9 c).toNat = c := by
  rw [BitVec.toNat_ofNat, Nat.mod_eq_of_lt (by omega)]

/-- R25: an index below 511 names an entry. -/
theorem ofNat_ne_511 {c : Nat} (hc : c < 511) : BitVec.ofNat 9 c ≠ 511 := fun h =>
  Nat.ne_of_lt hc ((nodeIdx_toNat hc).symm.trans (congrArg BitVec.toNat h))

/-- The layout of a tree at `i` is a matter of the entries from `i` on, as many as the tree has nodes. -/
theorem layout_congr {a b : Vector Node 511} {t : Tree} {i : Nat} (h : layout a t i)
    (hab : ∀ j, i ≤ j → j < i + t.size → b[j]? = a[j]?) : layout b t i := by
  induction t generalizing i with
  | leaf e x => exact (hab i (Nat.le_refl i) (Nat.lt_succ_self i)).trans h
  | internal e l r ihl ihr =>
    obtain ⟨hroot, hl, hr⟩ := h
    simp only [Tree.size] at hab
    exact ⟨(hab i (Nat.le_refl i) (by omega)).trans hroot, ihl hl fun j h1 h2 => hab j (by omega) (by omega),
      ihr hr fun j h1 h2 => hab j (by omega) (by omega)⟩

/-- R75, R76: `b` is the arena `a` after the tree `t` was parsed from index `c` on, its root attached to the top of
`stk`. -/
structure Built (stk : Stack) (t : Tree) (c : Nat) (a b : Vector Node 511) : Prop where
  tree : layout b t c
  others : ∀ j, j < c ∨ c + t.size ≤ j → b[j]? = a[j]?.map (linkParent stk (BitVec.ofNat 9 c) j)

/-- While the children of the node at `c` are parsed, only that node's own links change below them. -/
theorem Built.below {stk : Stack} {t : Tree} {c i : Nat} {side : Side} {a b : Vector Node 511} (hc : c < 511)
    (h : Built ({ idx := BitVec.ofNat 9 c, side := side } :: stk) t i a b) {j : Nat} (hj : j < i ∨ i + t.size ≤ j)
    (hne : j ≠ c) : b[j]? = a[j]? := by
  have htop : ∀ top ∈ ({ idx := BitVec.ofNat 9 c, side := side } :: stk : Stack).head?, top.idx.toNat ≠ j := by
    intro top ht
    cases ht
    exact (nodeIdx_toNat hc).trans_ne hne.symm
  rw [h.others j hj, linkParent_of_ne htop, Option.map_id_apply]

/-- A node that was attached, and then its left and its right subtree, parsed one after the other. -/
theorem Built.internal {stk stk' : Stack} {e : Byte} {l r : Tree} {c : Nat} {a a1 a2 a3 : Vector Node 511}
    (hc : c < 511) (hself : a1[c]? = some (parsedInternal e))
    (hothers : ∀ j, j ≠ c → a1[j]? = a[j]?.map (linkParent stk (BitVec.ofNat 9 c) j))
    (hl : Built ({ idx := BitVec.ofNat 9 c, side := .left } :: stk') l (c + 1) a1 a2)
    (hr : Built ({ idx := BitVec.ofNat 9 c, side := .right } :: stk') r (c + 1 + l.size) a2 a3) :
    Built stk (.internal e l r) c a a3 where
  tree := by
    have hidx := nodeIdx_toNat hc
    have hroot : a3[c]? = some
        { parsedInternal e with left := BitVec.ofNat 9 (c + 1), right := BitVec.ofNat 9 (c + 1 + l.size) } := by
      rw [hr.others c (.inl (by omega)), hl.others c (.inl (by omega)), hself]
      simp only [linkParent, hidx, if_true, Option.map_some]
    exact ⟨hroot, layout_congr hl.tree fun j h1 h2 => hr.below hc (.inl (by omega)) (by omega), hr.tree⟩
  others := fun j hj => by
    simp only [Tree.size] at hj
    rw [hr.below hc (by omega) (by omega), hl.below hc (by omega) (by omega), hothers j (by omega)]

/-! ### The input (R49, R51) -/

theorem feed_cons (b : Byte) (bs : List Byte) (last : Bool) :
    feed (b :: bs) last = { byte := b, last := last && bs.isEmpty } :: feed bs last := by
  cases bs with
  | nil => simp only [feed, List.isEmpty_nil, Bool.and_true]
  | cons b' bs => simp only [feed, List.isEmpty_cons, Bool.and_false]

theorem treeBytes_isEmpty (im : Byte) (t : Tree) : (treeBytes im t).isEmpty = false := by
  cases t <;> rfl

/-- R51, R75: the state `s` after `ParseTree` took `k` bytes and made `c` nodes: the arena is `a`, the bytes `bs` are
still to come before `rest`, and the input has ended with the last of them if that one was marked. -/
def State.parsing (s : State) (c : Nat) (a : Vector Node 511) (k : Nat) (bs : List Byte) (last : Bool)
    (rest : List InEntry) : State :=
  { s with
    status := { s.status with inEnded := last && bs.isEmpty }
    inCount := s.inCount + BitVec.ofNat 64 k
    nodeCount := BitVec.ofNat 9 c
    arena := a
    inQ := feed bs last ++ rest }

theorem inQ_parsing (s : State) (c : Nat) (a : Vector Node 511) (k : Nat) (b : Byte) (bs : List Byte) (last : Bool)
    (rest : List InEntry) (e : Engine) :
    (goto e (s.parsing c a k (b :: bs) last rest)).inQ =
      { byte := b, last := last && bs.isEmpty } :: (feed bs last ++ rest) :=
  congrArg (· ++ rest) (feed_cons b bs last)

/-- R51: one byte of it is taken. -/
theorem taken_parsing (s : State) (c : Nat) (a : Vector Node 511) (k : Nat) (b : Byte) (bs : List Byte) (last : Bool)
    (rest : List InEntry) (e : Engine) :
    taken { byte := b, last := last && bs.isEmpty } (feed bs last ++ rest)
        (goto e (s.parsing c a k (b :: bs) last rest)) =
      goto e (s.parsing c a (k + 1) bs last rest) := by
  simp only [taken, goto, State.parsing, List.isEmpty_cons, Bool.and_false, Bool.false_or, BitVec.ofNat_add,
    BitVec.add_assoc]
  rfl

/-! ### The steps of a node -/

section
variable {wrap : ParsePos → Engine} {after : Engine} (hp : RunsParse wrap after) {s : State} {c k : Nat}
  {a : Vector Node 511} {stk : Stack} {bs : List Byte} {last : Bool} {rest : List InEntry}
include hp

theorem RunsParse.parsing_marker {m : Byte} (hc : c < 511) (hm : m = 0x4C ∨ m = s.cfg.internalMarker) :
    engineStep (goto (wrap (.marker stk)) (s.parsing c a k (m :: bs) last rest)) =
      some (.next (goto (wrap (.edge stk m)) (s.parsing c a (k + 1) bs last rest))) := by
  rw [hp.marker rfl (ofNat_ne_511 hc) (Bool.and_false last) (inQ_parsing s c a k m bs last rest _), taken_parsing]
  exact if_neg fun h => hm.elim h.1 h.2

theorem RunsParse.parsing_edge_leaf {e : Byte} :
    engineStep (goto (wrap (.edge stk 0x4C)) (s.parsing c a k (e :: bs) last rest)) =
      some (.next (goto (wrap (.symbol stk e)) (s.parsing c a (k + 1) bs last rest))) := by
  rw [hp.edge_leaf rfl (Bool.and_false last) (inQ_parsing s c a k e bs last rest _), taken_parsing]
  rfl

end

/-- R75: a new node of `ParseTree`. -/
theorem newNode_parsing {s : State} {c k : Nat} {a : Vector Node 511} {stk : Stack} {bs : List Byte} {last : Bool}
    {rest : List InEntry} (hc : c < 511) (htop : ∀ top ∈ stk.head?, top.idx.toNat < c) (n : Node) (e : Engine) :
    ∃ b : Vector Node 511,
      (∀ f, newNode n stk (goto e (s.parsing c a k bs last rest)) f =
        .next (f (BitVec.ofNat 9 c) (attachedStack stk) (goto e (s.parsing (c + 1) b k bs last rest)))) ∧
      b[c]? = some n ∧ ∀ j : Nat, j ≠ c → b[j]? = a[j]?.map (linkParent stk (BitVec.ofNat 9 c) j) := by
  have hidx := nodeIdx_toNat hc
  obtain ⟨b, hnew, hself, hothers⟩ := newNode_links (s := goto e (s.parsing c a k bs last rest)) (stk := stk)
    (ofNat_ne_511 hc) (fun top ht => (htop top ht).trans_eq hidx.symm) n
  simp only [goto_nodeCount, State.parsing, hidx] at hself hothers
  refine ⟨b, fun f => (hnew f).trans ?_, hself, hothers⟩
  simp only [goto, State.parsing, BitVec.ofNat_add]
  rfl

section
variable {wrap : ParsePos → Engine} {after : Engine} (hp : RunsParse wrap after) {s : State} {c k : Nat}
  {a : Vector Node 511} {stk : Stack} {bs : List Byte} {last : Bool} {rest : List InEntry}
include hp

/-- R75: a leaf: three bytes are taken, and the parse goes on where its place in the tree says. -/
theorem RunsParse.parsing_leaf (hc : c < 511) (htop : ∀ top ∈ stk.head?, top.idx.toNat < c) (e x : Byte) :
    ∃ b : Vector Node 511,
      runEngine 3 (goto (wrap (.marker stk)) (s.parsing c a k (0x4C :: e :: x :: bs) last rest)) =
        .next (afterLeaf wrap after (attachedStack stk) (s.parsing (c + 1) b (k + 3) bs last rest)) ∧
      Built stk (.leaf e x) c a b := by
  obtain ⟨b, hnew, hself, hothers⟩ := newNode_parsing (s := s) (k := k + 3) (a := a) (bs := bs) (last := last)
    (rest := rest) hc htop (parsedLeaf e x) (wrap (.symbol stk e))
  have hsymbol : engineStep (goto (wrap (.symbol stk e)) (s.parsing c a (k + 2) (x :: bs) last rest)) =
      some (.next (afterLeaf wrap after (attachedStack stk) (s.parsing (c + 1) b (k + 3) bs last rest))) := by
    rw [hp.symbol rfl (Bool.and_false last) (inQ_parsing s c a (k + 2) x bs last rest _), taken_parsing, hnew]
    cases attachedStack stk <;> rfl
  refine ⟨b, ?_, hself, fun j hj => hothers j ?_⟩
  · exact runEngine_trans (runEngine_one (hp.parsing_marker hc (.inl rfl)))
      (runEngine_trans (runEngine_one hp.parsing_edge_leaf) (runEngine_one hsymbol))
  · simp only [Tree.size] at hj
    omega

/-- R75: an internal node that leaves room on the stack: two bytes are taken, and the parse goes on at its left
child. -/
theorem RunsParse.parsing_internal (hc : c < 511) (htop : ∀ top ∈ stk.head?, top.idx.toNat < c)
    (hm : s.cfg.internalMarker ≠ 0x4C) (hdepth : (attachedStack stk).length ≠ 255) (e : Byte) :
    ∃ b : Vector Node 511,
      runEngine 2 (goto (wrap (.marker stk)) (s.parsing c a k (s.cfg.internalMarker :: e :: bs) last rest)) =
        .next (goto (wrap (.marker ({ idx := BitVec.ofNat 9 c, side := .left } :: attachedStack stk)))
          (s.parsing (c + 1) b (k + 2) bs last rest)) ∧
      b[c]? = some (parsedInternal e) ∧ ∀ j : Nat, j ≠ c → b[j]? = a[j]?.map (linkParent stk (BitVec.ofNat 9 c) j) := by
  obtain ⟨b, hnew, hnode⟩ := newNode_parsing (s := s) (k := k + 2) (a := a) (bs := bs) (last := last)
    (rest := rest) hc htop (parsedInternal e) (wrap (.edge stk s.cfg.internalMarker))
  have hedge : engineStep (goto (wrap (.edge stk s.cfg.internalMarker)) (s.parsing c a (k + 1) (e :: bs) last rest)) =
      some (.next (goto (wrap (.marker ({ idx := BitVec.ofNat 9 c, side := .left } :: attachedStack stk)))
        (s.parsing (c + 1) b (k + 2) bs last rest))) := by
    rw [hp.edge_internal rfl hm (Bool.and_false last) (inQ_parsing s c a (k + 1) e bs last rest _), taken_parsing, hnew,
      pushParent, if_neg hdepth]
    rfl
  exact ⟨b, runEngine_trans (runEngine_one (hp.parsing_marker hc (.inr rfl))) (runEngine_one hedge), hnode⟩

/-- R75, R76: from the marker of a subtree's root `ParseTree` takes the subtree's bytes, one a step, builds the subtree
in pre-order and goes on where its place in the tree says. -/
theorem RunsParse.parsing_tree (hm : s.cfg.internalMarker ≠ 0x4C) {t : Tree} (hsize : c + t.size ≤ 511)
    (hdepth : (attachedStack stk).length + t.pending ≤ 255) (htop : ∀ top ∈ stk.head?, top.idx.toNat < c) :
    ∃ b : Vector Node 511,
      runEngine (treeBytes s.cfg.internalMarker t).length
          (goto (wrap (.marker stk)) (s.parsing c a k (treeBytes s.cfg.internalMarker t ++ bs) last rest)) =
        .next (afterLeaf wrap after (attachedStack stk)
          (s.parsing (c + t.size) b (k + (treeBytes s.cfg.internalMarker t).length) bs last rest)) ∧
      Built stk t c a b := by
  induction t generalizing c k a stk bs with
  | leaf e x => exact hp.parsing_leaf (by simp only [Tree.size] at hsize; omega) htop e x
  | internal e l r ihl ihr =>
    simp only [Tree.size, Tree.pending] at hsize hdepth
    have hc : c < 511 := by omega
    have hidx := nodeIdx_toNat hc
    obtain ⟨a1, hhead, hself, hothers⟩ := hp.parsing_internal (s := s) (a := a) (k := k) (last := last) (rest := rest)
      (bs := treeBytes s.cfg.internalMarker l ++ (treeBytes s.cfg.internalMarker r ++ bs)) hc htop hm (by omega) e
    obtain ⟨a2, hleft, hbuiltl⟩ := ihl (c := c + 1) (k := k + 2) (a := a1)
      (stk := { idx := BitVec.ofNat 9 c, side := .left } :: attachedStack stk)
      (bs := treeBytes s.cfg.internalMarker r ++ bs) (by omega) (by rw [attachedStack_left, List.length_cons]; omega)
      (fun top ht => by cases ht; exact hidx.trans_lt (by omega))
    obtain ⟨a3, hright, hbuiltr⟩ := ihr (c := c + 1 + l.size) (k := k + 2 + (treeBytes s.cfg.internalMarker l).length)
      (a := a2) (stk := { idx := BitVec.ofNat 9 c, side := .right } :: attachedStack stk)
      (bs := bs) (by omega) (by rw [attachedStack_right]; omega)
      (fun top ht => by cases ht; exact hidx.trans_lt (by omega))
    have hbytes : treeBytes s.cfg.internalMarker (.internal e l r) ++ bs = s.cfg.internalMarker :: e ::
        (treeBytes s.cfg.internalMarker l ++ (treeBytes s.cfg.internalMarker r ++ bs)) := by
      simp only [treeBytes, List.cons_append, List.append_assoc]
    have hlength : (treeBytes s.cfg.internalMarker (.internal e l r)).length =
        2 + ((treeBytes s.cfg.internalMarker l).length + (treeBytes s.cfg.internalMarker r).length) := by
      simp only [treeBytes, List.length_cons, List.length_append]
      omega
    refine ⟨a3, ?_, hbuiltl.internal hc hself hothers hbuiltr⟩
    rw [hbytes, hlength, Tree.size, ← Nat.add_assoc k, ← Nat.add_assoc (k + 2), ← Nat.add_assoc c, ← Nat.add_assoc c]
    exact runEngine_trans hhead (runEngine_trans hleft hright)

end

end Sys2Proof.Machine

/-! TREE_READ builds the tree whose bytes it takes, and so inverts TREE_WRITE (R76, R80, R81). -/

namespace Sys2Proof.Machine

/-- R18: a legal configuration tells an internal node from a leaf. -/
theorem internalMarker_ne_of_legal {c : Cfg} (h : c.legal = true) : c.internalMarker ≠ 0x4C := by
  intro he
  rw [legal_eq_false (.inr he)] at h
  cases h

/-- R75: the start of `ParseTree` before an input that has not ended. -/
theorem parseStart_eq_parsing (wrap : ParsePos → Engine) {s : State} {bs : List Byte} {last : Bool}
    {rest : List InEntry} (hend : s.status.inEnded = false) (hne : bs.isEmpty = false)
    (hq : s.inQ = feed bs last ++ rest) (e : Engine) :
    parseStart wrap (goto e s) = goto (wrap (.marker [])) (s.parsing 0 s.arena 0 bs last rest) := by
  have hstatus : s.status = { s.status with inEnded := last && bs.isEmpty } := by rw [hne, Bool.and_false, ← hend]
  have hcount : s.inCount = s.inCount + BitVec.ofNat 64 0 := (BitVec.add_zero _).symm
  simp only [parseStart, goto, State.parsing, ← hq, ← hstatus, ← hcount]
  rfl

/-- R90, R91: TREE_READ completes after `k` bytes were taken since its acceptance. -/
theorem complete_parsing_requestHead (s : State) (c : Nat) (a : Vector Node 511) (k : Nat) (last : Bool)
    (rest : List InEntry) :
    complete ((requestHead (encode .treeRead) s).parsing c a k [] last rest) =
      { s.finished 0x02 last k 0 with inQ := rest, nodeCount := BitVec.ofNat 9 c, arena := a } := by
  have hcount : (0 : Count) + BitVec.ofNat 64 k = BitVec.ofNat 64 k := BitVec.zero_add _
  rw [State.finished, ← hcount]
  cases last <;> rfl

/-- Settles O13: `ParseTree` of the root with an empty stack, and then the command ends. -/
theorem treeReadBuildsTheTree : Obligations.TreeReadBuildsTheTree := by
  unfold Obligations.TreeReadBuildsTheTree
  intro s t last rest hs hc hfits hq hlead
  obtain ⟨hsize, hdepth⟩ := hfits
  let u := requestHead (encode .treeRead) s
  let bs := treeBytes s.cfg.internalMarker t
  have hne : bs.isEmpty = false := treeBytes_isEmpty _ t
  have hstart : engineStep (goto (.treeRead .start) u) =
      some (.next (goto (.treeRead (.parse (.marker []))) (u.parsing 0 u.arena 0 bs last rest))) := by
    rw [← parseStart_eq_parsing (s := u) (fun q => .treeRead (.parse q)) rfl hne hq (.treeRead .start)]
    rfl
  obtain ⟨a, htree, hbuilt⟩ := runsParse_treeRead.parsing_tree (s := u) (c := 0) (k := 0) (a := u.arena) (stk := [])
    (bs := []) (last := last) (rest := rest) (internalMarker_ne_of_legal hc)
    (by rwa [Nat.zero_add]) (by rwa [attachedStack, List.length_nil, Nat.zero_add]) nofun
  rw [List.append_nil, Nat.zero_add, Nat.zero_add] at htree
  have hrun := runEngine_trans (runEngine_one hstart) (runEngine_trans htree
    (runEngine_one (t := complete (u.parsing t.size a bs.length [] last rest)) rfl))
  have hlength : bs.length = 3 * t.leaves + 2 * t.internals := treeBytes_length _ t
  have hsteps : 1 + (bs.length + 1) ≤ s.lead := by omega
  refine ⟨a, ?_, hbuilt.tree, fun j hj => ?_⟩
  · rw [exec_of_run hs (fun _ => hc) hrun rfl hsteps, complete_parsing_requestHead, hlength]
  · exact (hbuilt.others j (.inr (by omega))).trans Option.map_id'

/-! ### The arena that TREE_READ builds (R81) -/

theorem size_pos (t : Tree) : 0 < t.size := by
  cases t <;> simp only [Tree.size] <;> omega

/-- R76, R79: a tree laid out in pre-order within `NODE_COUNT` is held at its first index. -/
theorem holds_of_layout {s : State} {t : Tree} {i : Nat} (h : layout s.arena t i)
    (hn : i + t.size ≤ s.nodeCount.toNat) : s.holds t (BitVec.ofNat 9 i) := by
  have hidx : ∀ j, j < s.nodeCount.toNat → (BitVec.ofNat 9 j).toNat = j := fun j hj => by
    rw [BitVec.toNat_ofNat, Nat.mod_eq_of_lt (by omega)]
  induction t generalizing i with
  | leaf e x =>
    simp only [Tree.size] at hn
    exact ⟨_, by rw [State.node?, hidx i (by omega)]; exact h, rfl, rfl, rfl⟩
  | internal e l r ihl ihr =>
    obtain ⟨hroot, hl, hr⟩ := h
    simp only [Tree.size] at hn
    have hlpos := size_pos l
    have hrpos := size_pos r
    have hi := hidx i (by omega)
    have hleft := hidx (i + 1) (by omega)
    have hright := hidx (i + 1 + l.size) (by omega)
    exact ⟨_, by rw [State.node?, hi]; exact hroot, rfl, rfl, by simp only [hi, hleft]; omega,
      by simp only [hi, hright]; omega, ihl hl (by omega), ihr hr (by omega)⟩

/-- Settles O16: O12 for the first write, O13 for the read, and O12 again for the arena that the read built. -/
theorem treeWriteThenReadGivesTheTree : Obligations.TreeWriteThenReadGivesTheTree := by
  unfold Obligations.TreeWriteThenReadGivesTheTree
  intro s t hs hc hne hholds hfits hroom hlead
  refine ⟨_, _, treeWriteEmitsTheTree s t hs hc hne hholds hfits hroom hlead, rfl, rfl, ?_⟩
  intro r last rest hr hrcfg hq hrlead
  rw [treeBytes_length] at hrlead
  obtain ⟨a, hread, hlayout, -⟩ :=
    treeReadBuildsTheTree r t last rest hr (by rwa [hrcfg]) hfits (by rwa [hrcfg]) hrlead
  refine ⟨_, hread, rfl, rfl, hlayout, ?_⟩
  intro u hu hucfg hua hun huroom hulead
  have hsize : t.size ≤ 511 := hfits.1
  have hcount : u.nodeCount.toNat = t.size := by
    rw [hun, BitVec.toNat_ofNat, Nat.mod_eq_of_lt (by omega)]
  have huholds : u.holds t 0 := holds_of_layout (i := 0) (hua.symm ▸ hlayout) (by omega)
  have hune : u.nodeCount ≠ 0 := fun h => Nat.ne_of_gt (size_pos t) (by rw [← hcount, h]; rfl)
  rw [← hucfg] at huroom ⊢
  exact ⟨_, treeWriteEmitsTheTree u t hu (by rwa [hucfg]) hune huholds hfits huroom hulead, rfl, rfl⟩

end Sys2Proof.Machine

/-! What TREE_WRITE and TREE_READ leave unchanged (R63, R78, R80). -/

namespace Sys2Proof.Machine

/-! ### The frame of one command -/

/-- The induction of a command's frame: what its request establishes and each of its engine steps keeps holds where the
command leaves the machine. -/
theorem exec_keeps {i : Instr} {P : State → Prop} {s t : State} (hs : s.ready) (h0 : P (issue i s))
    (hP : ∀ u v, u.engine.opr = some i → engineStep u = some (.next v) → Effect i u v → P u → P v)
    (h : exec i s = .next t) : P t := by
  rw [exec_eq_runEngine_issue] at h
  have hopr : (issue i s).engine = .idle ∨ (issue i s).engine.opr = some i := by
    rw [issue, request_ready hs]
    split
    · exact .inl rfl
    · exact .inr (startOf_opr i)
  refine (runEngine_keeps (P := fun u => (u.engine = .idle ∨ u.engine.opr = some i) ∧ P u) ?_ s.lead ⟨hopr, h0⟩ h).2
  rintro u v ⟨hrun, hu⟩ hstep
  obtain ⟨i', hi', heff⟩ := engineStep_effect hstep
  have hi : u.engine.opr = some i := hrun.resolve_left fun hidle => by rw [hidle] at hi'; cases hi'
  obtain rfl : i = i' := Option.some.inj (hi.symm.trans hi')
  obtain ⟨w, _, hch⟩ := id heff
  exact ⟨hch.opr, hP u v hi hstep heff hu⟩

/-- R78: TREE_WRITE takes no byte. -/
theorem needsInput_treeWrite {s : State} (h : s.engine.opr = some .treeWrite) : s.needsInput = none := by
  unfold State.needsInput
  cases hE : s.engine <;> rw [hE] at h <;> cases h

/-- R80: TREE_READ pushes no byte. -/
theorem nextOutput_treeRead {s : State} (h : s.engine.opr = some .treeRead) : s.nextOutput = none := by
  unfold State.nextOutput
  cases hE : s.engine <;> rw [hE] at h <;> cases h

/-! ### TREE_WRITE -/

/-- R63, R78: what TREE_WRITE leaves as it was, and what its request cleared for good. -/
structure WriteFrame (s t : State) : Prop where
  arena : t.arena = s.arena
  nodeCount : t.nodeCount = s.nodeCount
  symCount : t.symCount = s.symCount
  symsLeft : t.symsLeft = s.symsLeft
  table : t.table = s.table
  inQ : t.inQ = s.inQ
  inCount : t.inCount = 0
  inEnded : t.status.inEnded = false

/-- Settles O19: a step of TREE_WRITE transfers at most a byte out, and changes no operand. -/
theorem treeWriteFrame : Obligations.TreeWriteFrame := by
  unfold Obligations.TreeWriteFrame
  intro s t hs h
  have hframe : WriteFrame s t := by
    refine exec_keeps (P := WriteFrame s) hs ?_ ?_ h
    · rw [issue, request_ready hs]
      split <;> exact ⟨rfl, rfl, rfl, rfl, rfl, rfl, rfl, rfl⟩
    · rintro u v hopr - ⟨w, htr, hch⟩ hu
      have hw : WriteFrame s w := by
        cases htr with
        | none _ _ hw => exact hw ▸ hu
        | took _ _ hin => rw [needsInput_treeWrite hopr] at hin; cases hin
        | gave b _ _ _ hw => subst hw; exact ⟨hu.1, hu.2, hu.3, hu.4, hu.5, hu.6, hu.7, hu.8⟩
      exact
        { arena := (hch.arena nofun nofun).trans hw.arena
          nodeCount := (hch.nodeCount nofun nofun).trans hw.nodeCount
          symCount := (hch.symCount nofun).trans hw.symCount
          symsLeft := (hch.symsLeft nofun nofun).trans hw.symsLeft
          table := (hch.table nofun).trans hw.table
          inQ := hch.inQ.trans hw.inQ
          inCount := hch.inCount.trans hw.inCount
          inEnded := hch.inEnded.trans hw.inEnded }
  exact ⟨hframe.arena, hframe.nodeCount, hframe.symCount, hframe.symsLeft, hframe.table, hframe.inQ, hframe.inCount,
    hframe.inEnded⟩

/-! ### The arena beyond `NODE_COUNT` (R80) -/

/-- R75: a step of `ParseTree` never lowers `NODE_COUNT` and leaves the entries from `NODE_COUNT` on alone. -/
structure ParseMove (wrap : ParsePos → Engine) (after : Engine) (s t : State) : Prop where
  position : t.engine = .idle ∨ t.engine = after ∨ ∃ p, t.engine = wrap p
  count : s.nodeCount.toNat ≤ t.nodeCount.toNat
  beyond : ∀ j, t.nodeCount.toNat ≤ j → t.arena[j]? = s.arena[j]?

section
variable {wrap : ParsePos → Engine} {after : Engine} {s t : State}

theorem ParseMove.of_same (hp : t.engine = .idle ∨ t.engine = after ∨ ∃ p, t.engine = wrap p)
    (hc : t.nodeCount = s.nodeCount) (ha : t.arena = s.arena) : ParseMove wrap after s t where
  position := hp
  count := by rw [hc]
  beyond := fun j _ => by rw [ha]

theorem ParseMove.of_inPop {k : Byte → State → Option Result} (h : inPop .tree s k = some (.next t))
    (hk : ∀ b e q, k b (taken e q s) = some (.next t) → ParseMove wrap after s t) : ParseMove wrap after s t := by
  obtain ⟨_, hr⟩ | ⟨e, q, _, _, hr⟩ := inPop_some h
  · cases hr
    exact .of_same (.inl rfl) rfl rfl
  · exact hk _ e q hr

/-- R51: taking a byte reaches neither the arena nor `NODE_COUNT`. -/
theorem ParseMove.of_taken {e : InEntry} {q : List InEntry} (h : ParseMove wrap after (taken e q s) t) :
    ParseMove wrap after s t :=
  ⟨h.position, h.count, h.beyond⟩

/-- R75: a new node is written at `NODE_COUNT` and linked from an entry below it. -/
theorem ParseMove.of_newNode {n : Node} {stk : Stack} {k : NodeIdx → Stack → State → State}
    (h : newNode n stk s k = .next t) (hn : s.nodeCount ≠ 511) (hstk : stackOk s stk)
    (hk : ∀ i stk' u, ParseMove wrap after u (k i stk' u) ∧ (k i stk' u).nodeCount = u.nodeCount) :
    ParseMove wrap after s t := by
  have htop : ∀ top ∈ stk.head?, top.idx.toNat < s.nodeCount.toNat := fun top ht =>
    hstk.2 top (List.mem_of_mem_head? ht)
  obtain ⟨a, hnew, -, hothers⟩ := newNode_links hn htop n
  obtain ⟨u, hua, hun, hu⟩ : ∃ u : State, u.arena = a ∧ u.nodeCount = s.nodeCount + 1 ∧
      newNode n stk s k = .next (k s.nodeCount (attachedStack stk) u) := ⟨_, rfl, rfl, hnew k⟩
  rw [hu] at h
  cases h
  obtain ⟨hmove, hsame⟩ := hk s.nodeCount (attachedStack stk) u
  have hcount : (k s.nodeCount (attachedStack stk) u).nodeCount.toNat = s.nodeCount.toNat + 1 := by
    rw [hsame, hun, nodeCount_succ hn]
  refine ⟨hmove.position, by omega, fun j hj => (hmove.beyond j hj).trans ?_⟩
  have hlt : s.nodeCount.toNat < j := by omega
  rw [hua, hothers j (Nat.ne_of_gt hlt), linkParent_of_ne (fun top ht => Nat.ne_of_lt ((htop top ht).trans hlt)),
    Option.map_id_apply]

end

/-- Everything a step of `ParseTree` can do to the position, `NODE_COUNT` and the arena beyond it. -/
theorem parseStep_move {wrap : ParsePos → Engine} {after : Engine} {p : ParsePos} {s t : State} (hok : parseOk s p)
    (h : parseStep wrap after p s = some (.next t)) : ParseMove wrap after s t := by
  cases p with
  | marker stk =>
    simp only [parseStep, parseMarker] at h
    split at h
    · cases h
      exact .of_same (.inl rfl) rfl rfl
    · refine .of_inPop h fun b e q hk => ?_
      split at hk <;> cases hk
      · exact .of_same (.inl rfl) rfl rfl
      · exact .of_same (.inr (.inr ⟨_, rfl⟩)) rfl rfl
  | edge stk m =>
    obtain ⟨hstk, -, hn⟩ := hok
    simp only [parseStep, parseEdge] at h
    refine .of_inPop h fun b e q hk => ?_
    split at hk
    · cases hk
      exact .of_same (.inr (.inr ⟨_, rfl⟩)) rfl rfl
    · refine (ParseMove.of_newNode (Option.some.inj hk) hn hstk fun i stk' u => ?_).of_taken
      unfold pushParent
      split
      · exact ⟨.of_same (.inl rfl) rfl rfl, rfl⟩
      · exact ⟨.of_same (.inr (.inr ⟨_, rfl⟩)) rfl rfl, rfl⟩
  | symbol stk x =>
    obtain ⟨hstk, -, hn⟩ := hok
    simp only [parseStep, parseSymbol] at h
    refine .of_inPop h fun b e q hk => ?_
    refine (ParseMove.of_newNode (Option.some.inj hk) hn hstk fun i stk' u => ?_).of_taken
    cases stk' with
    | nil => exact ⟨.of_same (.inr (.inl rfl)) rfl rfl, rfl⟩
    | cons top rest => exact ⟨.of_same (.inr (.inr ⟨_, rfl⟩)) rfl rfl, rfl⟩

/-! ### TREE_READ -/

/-- R63, R80: what TREE_READ leaves as it was: the output stream, the counts of symbols and the code table; the arena
beyond `NODE_COUNT`, and all of it before the first step. -/
structure ReadFrame (s t : State) : Prop where
  outQ : t.outQ = s.outQ
  outCount : t.outCount = 0
  symCount : t.symCount = s.symCount
  symsLeft : t.symsLeft = s.symsLeft
  table : t.table = s.table
  bounds : engineOk t t.engine
  atStart : t.engine = .treeRead .start → t.arena = s.arena
  beyond : ∀ j, t.nodeCount.toNat ≤ j → t.arena[j]? = s.arena[j]?

/-- R80: a step of TREE_READ leaves the start behind and keeps the arena beyond `NODE_COUNT`. -/
theorem ReadFrame.arena_step {s u v : State} (hu : ReadFrame s u) {p : TreeReadPos} (hE : u.engine = .treeRead p)
    (h : engineStep u = some (.next v)) :
    (v.engine = .treeRead .start → v.arena = s.arena) ∧ ∀ j, v.nodeCount.toNat ≤ j → v.arena[j]? = s.arena[j]? := by
  have hbounds := hu.bounds
  rw [hE] at hbounds
  simp only [engineStep, hE] at h
  cases p with
  | start =>
    cases h
    have ha : u.arena = s.arena := hu.atStart hE
    exact ⟨fun _ => ha, fun j _ => congrArg (·[j]?) ha⟩
  | parse q =>
    have hmove := parseStep_move hbounds h
    refine ⟨fun hstart => ?_, fun j hj => (hmove.beyond j hj).trans (hu.beyond j (hmove.count.trans hj))⟩
    obtain h | h | ⟨q', h⟩ := hmove.position <;> cases hstart.symm.trans h
  | finish =>
    cases h
    exact ⟨nofun, hu.beyond⟩

/-- Settles O20: a step of TREE_READ transfers at most a byte in, and writes no entry from its `NODE_COUNT` on. -/
theorem treeReadFrame : Obligations.TreeReadFrame := by
  unfold Obligations.TreeReadFrame
  intro s t hs h
  have hframe : ReadFrame s t := by
    refine exec_keeps (P := ReadFrame s) hs ?_ ?_ h
    · rw [issue, request_ready hs]
      split <;> exact ⟨rfl, rfl, rfl, rfl, rfl, trivial, fun _ => rfl, fun _ _ => rfl⟩
    · rintro u v hopr hstep ⟨w, htr, hch⟩ hu
      obtain ⟨p, hE⟩ : ∃ p, u.engine = .treeRead p := by
        cases hE : u.engine <;> rw [hE] at hopr <;> cases hopr
        exact ⟨_, rfl⟩
      obtain ⟨hstart, hbeyond⟩ := hu.arena_step hE hstep
      obtain ⟨_, hv, hbounds⟩ := engineStep_ok hu.bounds hstep
      cases hv
      have hw : w.outQ = s.outQ ∧ w.outCount = 0 ∧ w.symCount = s.symCount ∧ w.symsLeft = s.symsLeft ∧
          w.table = s.table := by
        cases htr with
        | none _ _ hw => exact hw ▸ ⟨hu.outQ, hu.outCount, hu.symCount, hu.symsLeft, hu.table⟩
        | took _ _ _ _ _ _ hw => subst hw; exact ⟨hu.outQ, hu.outCount, hu.symCount, hu.symsLeft, hu.table⟩
        | gave b _ hout => rw [nextOutput_treeRead hopr] at hout; cases hout
      obtain ⟨houtQ, houtCount, hsymCount, hsymsLeft, htable⟩ := hw
      exact
        { outQ := hch.outQ.trans houtQ
          outCount := hch.outCount.trans houtCount
          symCount := (hch.symCount nofun).trans hsymCount
          symsLeft := (hch.symsLeft nofun nofun).trans hsymsLeft
          table := (hch.table nofun).trans htable
          bounds := hbounds
          atStart := hstart
          beyond := hbeyond }
  exact ⟨hframe.outQ, hframe.outCount, hframe.symCount, hframe.symsLeft, hframe.table, hframe.beyond⟩

end Sys2Proof.Machine

/-! The trees that fit (R77), and the host's construction of an arena entry (R72, R73). -/

namespace Sys2Proof.Machine

/-! ### Trees that fit (R77) -/

theorem size_eq_leaves_add_internals (t : Tree) : t.size = t.leaves + t.internals := by
  induction t with
  | leaf e x => rfl
  | internal e l r ihl ihr =>
    simp only [Tree.size, Tree.leaves, Tree.internals]
    omega

/-- R77: a pending subtree leaves at least one leaf for each stack entry above it. -/
theorem pending_lt_leaves (t : Tree) : t.pending < t.leaves := by
  induction t with
  | leaf e x => exact Nat.one_pos
  | internal e l r ihl ihr =>
    simp only [Tree.pending, Tree.leaves]
    omega

/-- Settles O59: a tree has two nodes a leaf less one, and fewer pending subtrees than leaves. -/
theorem treesOfTheSourceFit : Obligations.TreesOfTheSourceFit := by
  unfold Obligations.TreesOfTheSourceFit
  intro t ht
  have hsize := size_eq_leaves_add_internals t
  have hinternals := leaves_eq_internals_succ t
  have hpending := pending_lt_leaves t
  constructor
  · rw [maxNodes_eq]
    omega
  · rw [maxDepth_eq]
    omega

/-! ### The host's writes construct a node (R72, R73) -/

/-- R72: the `NODE_A` word of a node statement. -/
def wordAOf (leaf : Bool) (e x : Byte) : Word :=
  x.setWidth 32 <<< 16 ||| e.setWidth 32 <<< 8 ||| (BitVec.ofBool leaf).setWidth 32

/-- R26: its fields. -/
theorem withA_of_fields (n : Node) (leaf : Bool) (e x : Byte) :
    n.withA (wordAOf leaf e x) = { n with leaf := leaf, edge := e, symbol := x } := by
  have hedge : (wordAOf leaf e x).extractLsb' 8 8 = e := by
    refine BitVec.eq_of_getLsbD_eq fun i hi => ?_
    interval_cases i <;> simp [wordAOf]
  have hsymbol : (wordAOf leaf e x).extractLsb' 16 8 = x := by
    refine BitVec.eq_of_getLsbD_eq fun i hi => ?_
    interval_cases i <;> simp [wordAOf]
  have hleaf : (wordAOf leaf e x).getLsbD 0 = leaf := by simp [wordAOf]
  rw [Node.withA, hleaf, hedge, hsymbol]

/-- R72: the fields of a `NODE_B` word. -/
theorem withB_of_fields (n : Node) (l r : NodeIdx) :
    n.withB (r.setWidth 32 <<< 16 ||| l.setWidth 32) = { n with left := l, right := r } := by
  have hleft : (r.setWidth 32 <<< 16 ||| l.setWidth 32).extractLsb' 0 9 = l := by
    refine BitVec.eq_of_getLsbD_eq fun i hi => ?_
    interval_cases i <;> simp
  have hright : (r.setWidth 32 <<< 16 ||| l.setWidth 32).extractLsb' 16 9 = r := by
    refine BitVec.eq_of_getLsbD_eq fun i hi => ?_
    interval_cases i <;> simp
  rw [Node.withB, hleft, hright]

theorem extractLsb'_setWidth_9 (i : NodeIdx) : (i.setWidth 32).extractLsb' 0 9 = i := by
  refine BitVec.eq_of_getLsbD_eq fun k hk => ?_
  interval_cases k <;> simp

theorem getLsbD_wordA (n : Node) : n.wordA.getLsbD 0 = n.leaf := by
  simp only [Node.wordA, BitVec.getLsbD_append]
  simp

/-- R25: a write to a window changes the selected entry by `f` and no other, and the selection stays. -/
theorem writeNodeWindow_node? {s : State} (hsel : s.nodeSel ≠ 511) (f : Node → Node) :
    ∃ (n : Node) (t : State), writeNodeWindow f s = t ∧ t.nodeSel = s.nodeSel ∧ t.busy = s.busy ∧
      t.node? s.nodeSel = some (f n) ∧ s.node? s.nodeSel = some n ∧ ∀ j, j ≠ s.nodeSel → t.node? j = s.node? j := by
  obtain ⟨t, ht⟩ : ∃ t, s.mapNode? s.nodeSel f = some t := ⟨_, mapNode?_of_lt s f (toNat_lt_511 hsel)⟩
  obtain ⟨n, hn, hset⟩ := mapNode?_eq_some.mp ht
  have hnode := node?_of_setNode? hset
  have heq := mapNode?_eq ht
  exact ⟨n, t, by rw [writeNodeWindow, ht], by rw [heq], by rw [heq]; rfl, (hnode _).trans (if_pos rfl), hn,
    fun j hj => (hnode j).trans (if_neg hj.symm)⟩

/-- R72, R73: while no command runs, the three writes of a node statement give entry `i` the fields of their words and
leave every other entry alone. -/
theorem node?_of_writes {s t : State} {i : NodeIdx} {a b : Word} (hb : s.busy = false) (hi : i ≠ 511)
    (ht : t = busWrite 0x44 32 b (busWrite 0x40 32 a (busWrite 0x3C 32 (i.setWidth 32) s))) :
    ∃ n : Node, t.node? i = some ((n.withA a).withB b) ∧ (busRead 0x40 32 t).getLsbD 0 = ((n.withA a).withB b).leaf ∧
      ∀ j, j ≠ i → t.node? j = s.node? j := by
  have hsel : busWrite 0x3C 32 (i.setWidth 32) s = { s with nodeSel := i } := by
    rw [show busWrite 0x3C 32 (i.setWidth 32) s = _ from busWrite_idle hb .nodeSel (i.setWidth 32), regApply,
      extractLsb'_setWidth_9]
  obtain ⟨n, u, hu, husel, hubusy, hunode, -, huothers⟩ :=
    writeNodeWindow_node? (s := { s with nodeSel := i }) hi fun n => n.withA a
  have hA : busWrite 0x40 32 a { s with nodeSel := i } = u :=
    (busWrite_idle (s := { s with nodeSel := i }) hb .nodeA a).trans hu
  obtain ⟨n', v, hv, hvsel, -, hvnode, hn', hvothers⟩ := writeNodeWindow_node? (husel.trans_ne hi) fun n => n.withB b
  have hB : busWrite 0x44 32 b u = v := (busWrite_idle (hubusy.trans hb) .nodeB b).trans hv
  obtain rfl : t = v := by rw [ht, hsel, hA, hB]
  rw [husel] at hvsel hvnode hvothers hn'
  obtain rfl : n' = n.withA a := Option.some.inj (hn'.symm.trans hunode)
  refine ⟨n, hvnode, ?_, fun j hj => (hvothers j hj).trans (huothers j hj)⟩
  have hread : busRead 0x40 32 t = ((n.withA a).withB b).wordA :=
    (busRead_offset .nodeA t).trans (regRead_nodeA (by rwa [hvsel]))
  rw [hread, getLsbD_wordA]

/-- Settles O50: the words of `leaf` and `inode` hold the fields of R26 and R27. -/
theorem hostWritesConstructNodes : Obligations.HostWritesConstructNodes := by
  unfold Obligations.HostWritesConstructNodes
  intro s i e x l r hb hi
  constructor
  · intro t ht
    obtain ⟨n, hnode, hread, hothers⟩ := node?_of_writes hb hi ht
    have hn : (n.withA (x.setWidth 32 <<< 16 ||| e.setWidth 32 <<< 8 ||| 1)).withB 0 =
        { leaf := true, edge := e, symbol := x, left := 0, right := 0 } := by
      have hword : (x.setWidth 32 <<< 16 ||| e.setWidth 32 <<< 8 ||| 1 : Word) = wordAOf true e x := rfl
      rw [hword, withA_of_fields]
      rfl
    rw [hn] at hnode hread
    exact ⟨hnode, hread, hothers⟩
  · intro t ht
    obtain ⟨n, hnode, hread, hothers⟩ := node?_of_writes hb hi ht
    have hn : (n.withA (e.setWidth 32 <<< 8)).withB (r.setWidth 32 <<< 16 ||| l.setWidth 32) =
        { leaf := false, edge := e, symbol := 0, left := l, right := r } := by
      have hword : (e.setWidth 32 <<< 8 : Word) = wordAOf false e 0 := by simp [wordAOf]
      rw [withB_of_fields, hword, withA_of_fields]
    rw [hn] at hnode hread
    exact ⟨hnode, hread, hothers⟩

end Sys2Proof.Machine

/-! The accumulator of the bit encoder (R82): it holds the bits that no flushed byte holds yet, so the flushed bytes and
the padded final one are the packed bitstream (R69). -/

namespace Sys2Proof.Machine

/-! ### The accumulator (R82) -/

/-- R82: the bits that `ACC` holds when `ACC_N` is `n`, the first bit first. -/
def accBits (acc : Byte) (n : Nat) : List Bool := (List.range n).map fun i => acc.getLsbD (n - 1 - i)

theorem accBits_length (acc : Byte) (n : Nat) : (accBits acc n).length = n := by
  rw [accBits, List.length_map, List.length_range]

/-- R82: the bit shifted in comes last. -/
theorem accBits_shiftIn (acc : Byte) (b : Bool) {n : Nat} (hn : n < 8) :
    accBits (shiftIn acc b) (n + 1) = accBits acc n ++ [b] := by
  rw [accBits, List.range_succ, List.map_append, List.map_singleton, getLsbD_shiftIn _ _ (by omega), if_pos (by omega)]
  congr 1
  refine List.map_congr_left fun i hi => ?_
  have hi := List.mem_range.mp hi
  rw [getLsbD_shiftIn _ _ (by omega), if_neg (by omega)]
  congr 1
  omega

/-- R82: the padded final byte holds the bits of the accumulator, then zeros. -/
theorem byteBits_padByte (acc : Byte) {n : Nat} (hn : n ≤ 8) :
    byteBits (padByte acc n) = accBits acc n ++ List.replicate (8 - n) false := by
  refine List.ext_getElem (by simp [byteBits, accBits_length]; omega) fun i hi _ => ?_
  have hi : i < 8 := by simpa [byteBits] using hi
  by_cases hin : i < n
  · have hlow : ¬7 - i < 8 - n := by omega
    have hpos : 7 - i - (8 - n) = n - 1 - i := by omega
    have hlt : 7 - i < 8 := by omega
    simp [byteBits, padByte, accBits, List.getElem_append_left, hin, hlow, hpos, hlt, -BitVec.getLsbD_eq_getElem]
  · have hlow : 7 - i < 8 - n := by omega
    simp [byteBits, padByte, List.getElem_append_right, accBits_length, Nat.le_of_not_lt hin, hlow,
      -BitVec.getLsbD_eq_getElem]

theorem byteBits_injective {a b : Byte} (h : byteBits a = byteBits b) : a = b := by
  refine BitVec.eq_of_getLsbD_eq fun i hi => ?_
  have hbit := List.map_inj_left.mp h (7 - i) (List.mem_range.mpr (by omega))
  rwa [show 7 - (7 - i) = i by omega] at hbit

theorem bytesBits_append (as bs : List Byte) : bytesBits (as ++ bs) = bytesBits as ++ bytesBits bs :=
  List.flatMap_append

theorem bytesBits_length (bs : List Byte) : (bytesBits bs).length = 8 * bs.length := by
  induction bs with
  | nil => rfl
  | cons b bs ih =>
    have hcons : bytesBits (b :: bs) = byteBits b ++ bytesBits bs := rfl
    rw [hcons, List.length_append, ih, List.length_cons, Nat.mul_succ, Nat.add_comm]
    rfl

theorem bytesBits_injective {as bs : List Byte} (h : bytesBits as = bytesBits bs) : as = bs := by
  induction as generalizing bs with
  | nil =>
    have hlen := congrArg List.length h
    rw [bytesBits_length, bytesBits_length, List.length_nil] at hlen
    exact (List.length_eq_zero_iff.mp (by omega)).symm
  | cons a as ih =>
    cases bs with
    | nil => cases h
    | cons b bs =>
      obtain ⟨hbyte, hrest⟩ := List.append_inj (show byteBits a ++ bytesBits as = byteBits b ++ bytesBits bs from h) rfl
      rw [byteBits_injective hbyte, ih hrest]

/-- R82: shifting `bits` into the accumulator `(acc, n)` flushes the bytes `out` and leaves the accumulator
`(acc', n')`: no bit is lost, and the order stays. -/
structure Packs (acc : Byte) (n : Nat) (bits : List Bool) (out : List Byte) (acc' : Byte) (n' : Nat) : Prop where
  notFull : n' < 8
  holds : bytesBits out ++ accBits acc' n' = accBits acc n ++ bits

theorem Packs.length {acc acc' : Byte} {n n' : Nat} {bits : List Bool} {out : List Byte}
    (h : Packs acc n bits out acc' n') : 8 * out.length + n' = n + bits.length := by
  have hlen := congrArg List.length h.holds
  rwa [List.length_append, List.length_append, bytesBits_length, accBits_length, accBits_length] at hlen

theorem Packs.nil (acc : Byte) {n : Nat} (hn : n < 8) : Packs acc n [] [] acc n := ⟨hn, (List.append_nil _).symm⟩

theorem Packs.trans {acc acc' acc'' : Byte} {n n' n'' : Nat} {bits bits' : List Bool} {out out' : List Byte}
    (h : Packs acc n bits out acc' n') (h' : Packs acc' n' bits' out' acc'' n'') :
    Packs acc n (bits ++ bits') (out ++ out') acc'' n'' where
  notFull := h'.notFull
  holds := by rw [bytesBits_append, List.append_assoc, h'.holds, ← List.append_assoc, h.holds, List.append_assoc]

/-- R82: a bit that does not fill the accumulator. -/
theorem Packs.shift (acc : Byte) (b : Bool) {n : Nat} (hn : n + 1 < 8) : Packs acc n [b] [] (shiftIn acc b) (n + 1) :=
  ⟨hn, accBits_shiftIn acc b (by omega)⟩

/-- R82: a bit that fills the accumulator. -/
theorem Packs.flush (acc : Byte) (b : Bool) {n : Nat} (hn : n + 1 = 8) : Packs acc n [b] [shiftIn acc b] 0 0 := by
  refine ⟨by decide, ?_⟩
  rw [← accBits_shiftIn acc b (by omega), hn]
  rfl

/-- R82: what is pushed after the last symbol: the padded accumulator if it holds a bit. -/
def finalBytes (acc : Byte) (n : Nat) : List Byte := if n = 0 then [] else [padByte acc n]

/-- R69: the flushed bytes and the final one are the packed bitstream. -/
theorem Packs.eq_packBits {acc : Byte} {n : Nat} {bits : List Bool} {out : List Byte}
    (h : Packs 0 0 bits out acc n) : out ++ finalBytes acc n = packBits bits := by
  have hlt := h.notFull
  have hlen := h.length
  have hholds : bytesBits out ++ accBits acc n = bits := h.holds
  apply bytesBits_injective
  rw [bytesBits_packBits, bytesBits_append]
  by_cases hz : n = 0
  · subst hz
    rw [finalBytes, if_pos rfl, show 8 * ((bits.length + 7) / 8) - bits.length = 0 by omega, ← hholds]
    exact (List.append_nil _).symm
  · have hfinal : bytesBits (finalBytes acc n) = byteBits (padByte acc n) := by
      rw [finalBytes, if_neg hz]
      exact List.append_nil _
    rw [hfinal, byteBits_padByte acc (by omega), ← List.append_assoc, hholds]
    congr 2
    omega

end Sys2Proof.Machine

/-! ENCODE (R82, R83): the runs of its parts, which push the header, the full bytes of the codes and the final byte; and
what it leaves unchanged (R63). -/

namespace Sys2Proof.Machine

/-! ### The bits of a symbol (R82) -/

/-- R52: nothing is pushed. -/
theorem pushedAll_nil (s : State) : pushedAll [] s = s := by simp [pushedAll]

/-- R82: where the engine goes on after a bit does not depend on where it was. -/
theorem nextBit_goto (x len j acc : Byte) (accN : Nat) (e : Engine) (s : State) :
    nextBit x len j acc accN (goto e s) = nextBit x len j acc accN s := by
  unfold nextBit
  split <;> rfl

/-- R82: a flush with room for the byte. -/
theorem engineStep_flush {s : State} (x len j acc : Byte) (hroom : s.outQ.length < s.params.outDepth) :
    engineStep (goto (.encode (.flush x len j acc)) s) = some (.next (nextBit x len j 0 0 (pushedAll [acc] s))) := by
  rw [← nextBit_goto x len j 0 0 (.encode (.flush x len j acc)) (pushedAll [acc] s)]
  exact outPush_room (s := goto _ s) hroom acc fun u => some (.next (nextBit x len j 0 0 u))

/-- R82: one code bit, and the flush if it fills the accumulator. -/
theorem runEngine_bit {x len j acc : Byte} {accN : Nat} {s : State} (hn : accN < 8)
    (hroom : s.outQ.length + (accN + 1) / 8 ≤ s.params.outDepth) :
    ∃ out acc' n', Packs acc accN [(s.entry x).codeBit j] out acc' n' ∧
      runEngine (1 + out.length) (goto (.encode (.bit x len j acc accN)) s) =
        .next (nextBit x len j acc' n' (pushedAll out s)) := by
  have hbit : engineStep (goto (.encode (.bit x len j acc accN)) s) =
      some (.next (encodeBit x len j acc accN (goto (.encode (.bit x len j acc accN)) s))) := rfl
  by_cases hfull : accN + 1 = 8
  · rw [encodeBit, if_pos hfull] at hbit
    have hflush := engineStep_flush (s := s) x len j (shiftIn acc ((s.entry x).codeBit j)) (by omega)
    exact ⟨_, 0, 0, .flush acc _ hfull, runEngine_trans (runEngine_one hbit) (runEngine_one hflush)⟩
  · rw [encodeBit, if_neg hfull, nextBit_goto] at hbit
    exact ⟨[], _, _, .shift acc _ (by omega), (pushedAll_nil s).symm ▸ runEngine_one hbit⟩

/-- R69: the code bits from bit `j` on. -/
theorem code_drop {e : CodeEntry} {j : Byte} {b : Bool} {bits : List Bool} (h : e.code.drop j.toNat = b :: bits) :
    e.codeBit j = b ∧ j.toNat + 1 + bits.length = e.len.toNat ∧ e.code.drop (j + 1).toNat = bits := by
  have hlen := congrArg List.length h
  rw [List.length_drop, code_length, List.length_cons] at hlen
  have hj : j.toNat < e.len.toNat := by omega
  have hsucc : (j + 1).toNat = j.toNat + 1 := by
    have := byte_lt e.len
    rw [BitVec.toNat_add_of_lt (by simp; omega)]
    rfl
  have hhead : e.code[j.toNat]? = some b := by rw [← List.head?_drop, h]; rfl
  refine ⟨Option.some.inj ((code_getElem? hj).symm.trans hhead), by omega, ?_⟩
  rw [hsucc, ← List.drop_drop, h]
  rfl

/-- R23, R82: `SYMS_LEFT` after `n` more symbols are done. -/
def countDown (n : Nat) (s : State) : State := { s with symsLeft := s.symsLeft - BitVec.ofNat 64 n }

/-- R82: the bits of a symbol's code from bit `j` on, and then the symbol is done. -/
theorem runEngine_code {x : Byte} {bits : List Bool} : ∀ {b : Bool} {j acc : Byte} {accN : Nat} {s : State},
    (s.entry x).code.drop j.toNat = b :: bits → accN < 8 →
    s.outQ.length + (accN + (b :: bits).length) / 8 ≤ s.params.outDepth →
      ∃ out acc' n', Packs acc accN (b :: bits) out acc' n' ∧
        runEngine ((b :: bits).length + out.length) (goto (.encode (.bit x (s.entry x).len j acc accN)) s) =
          .next (goto (.encode (.symbol acc' n')) (countDown 1 (pushedAll out s))) := by
  induction bits with
  | nil =>
    intro b j acc accN s hdrop hn hroom
    obtain ⟨rfl, hlen, -⟩ := code_drop hdrop
    obtain ⟨out, acc', n', hpack, hrun⟩ := runEngine_bit (x := x) (len := (s.entry x).len) (j := j) (acc := acc) hn hroom
    rw [nextBit, if_neg (by rw [← hlen]; exact Nat.lt_irrefl _)] at hrun
    exact ⟨out, acc', n', hpack, hrun⟩
  | cons c bits ih =>
    intro b j acc accN s hdrop hn hroom
    obtain ⟨rfl, hlen, hrest⟩ := code_drop hdrop
    simp only [List.length_cons] at hlen hroom
    obtain ⟨out, acc', n', hpack, hrun⟩ := runEngine_bit (x := x) (len := (s.entry x).len) (j := j) (acc := acc)
      (s := s) hn (by omega)
    rw [nextBit, if_pos (by omega)] at hrun
    have hcount := hpack.length
    simp only [List.length_cons, List.length_nil] at hcount
    obtain ⟨out', acc'', n'', hpack', hrun'⟩ := ih (s := pushedAll out s) (acc := acc') hrest hpack.notFull
      (by simp; omega)
    refine ⟨out ++ out', acc'', n'', hpack.trans hpack', ?_⟩
    have hsteps : ((s.entry x).codeBit j :: c :: bits).length + (out ++ out').length =
        1 + out.length + ((c :: bits).length + out'.length) := by simp; omega
    rw [hsteps, ← pushedAll_pushedAll]
    exact runEngine_trans hrun hrun'

/-! ### A sequence of symbols (R82) -/

/-- R51: the state after `InPop` took each of `bs`, the last of them marked `last`, and left `rest` in `IN_Q`. -/
def takenAll (bs : List Byte) (last : Bool) (rest : List InEntry) (s : State) : State :=
  { s with
    inQ := rest
    inCount := s.inCount + BitVec.ofNat 64 bs.length
    status := { s.status with inEnded := s.status.inEnded || (last && !bs.isEmpty) } }

theorem takenAll_nil {s : State} {rest : List InEntry} (h : s.inQ = rest) (last : Bool) :
    takenAll [] last rest s = s := by
  subst h
  simp [takenAll]

/-- R51: the first byte is taken, and then the others. -/
theorem takenAll_taken (b : Byte) (bs : List Byte) (last : Bool) (q rest : List InEntry) (s : State) :
    takenAll bs last rest (taken { byte := b, last := last && bs.isEmpty } q s) = takenAll (b :: bs) last rest s := by
  have hcount : s.inCount + 1#64 + BitVec.ofNat 64 bs.length = s.inCount + BitVec.ofNat 64 (bs.length + 1) := by
    rw [BitVec.add_assoc, Nat.add_comm, BitVec.ofNat_add]
  have hended : ((last && bs.isEmpty) || (last && !bs.isEmpty)) = last := by cases last <;> cases bs.isEmpty <;> rfl
  simp [takenAll, taken, hcount, Bool.or_assoc, hended]

/-- R82: the state after the symbols `syms` were taken, their bits shifted in and the bytes `out` flushed. -/
def encodedAll (syms : List Byte) (last : Bool) (rest : List InEntry) (out : List Byte) (s : State) : State :=
  countDown syms.length (pushedAll out (takenAll syms last rest s))

theorem encodedAll_nil {s : State} {rest : List InEntry} (h : s.inQ = rest) (last : Bool) :
    encodedAll [] last rest [] s = s := by
  rw [encodedAll, takenAll_nil h, pushedAll_nil]
  simp [countDown]

/-- R82: one symbol is encoded, and then the others. -/
theorem encodedAll_cons (x : Byte) (syms : List Byte) (last : Bool) (q rest : List InEntry) (out out' : List Byte)
    (s : State) :
    encodedAll syms last rest out'
        (countDown 1 (pushedAll out (taken { byte := x, last := last && syms.isEmpty } q s))) =
      encodedAll (x :: syms) last rest (out ++ out') s := by
  have hleft : s.symsLeft - 1#64 - BitVec.ofNat 64 syms.length = s.symsLeft - BitVec.ofNat 64 (syms.length + 1) := by
    rw [BitVec.sub_sub, Nat.add_comm, BitVec.ofNat_add]
  rw [encodedAll, encodedAll, ← takenAll_taken x syms last q, ← pushedAll_pushedAll, List.length_cons]
  simp only [countDown, pushedAll, takenAll, taken, hleft]

/-- R82: the head of the symbol loop takes a symbol and looks up the length of its code. -/
theorem engineStep_symbol {s : State} {acc : Byte} {accN : Nat} {e : InEntry} {q : List InEntry}
    (hE : s.engine = .encode (.symbol acc accN)) (hleft : s.symsLeft ≠ 0) (hend : s.status.inEnded = false)
    (hq : s.inQ = e :: q) :
    engineStep s =
      if (s.entry e.byte).len = 0 then some (.next (raiseError .missingCode (e.byte.setWidth 32) (taken e q s)))
      else some (.next (goto (.encode (.bit e.byte (s.entry e.byte).len 0 acc accN)) (taken e q s))) := by
  rw [engineStep, hE]
  exact (if_neg hleft).trans (inPop_cons hend hq _ _)

/-- Settles O37: the length is looked up before any bit is shifted in. -/
theorem symbolWithoutCodeIsMissingCode : Obligations.SymbolWithoutCodeIsMissingCode := by
  unfold Obligations.SymbolWithoutCodeIsMissingCode
  intro s acc accN e q hE hleft hend hq hlen
  rw [engineStep_symbol hE hleft hend hq, if_pos hlen]
  rfl

/-- R82: one symbol that has a code. -/
theorem runEngine_symbol {s : State} {acc x : Byte} {accN : Nat} {last : Bool} {q : List InEntry}
    (hleft : s.symsLeft ≠ 0) (hend : s.status.inEnded = false) (hq : s.inQ = { byte := x, last := last } :: q)
    (hcode : (s.entry x).len ≠ 0) (hn : accN < 8)
    (hroom : s.outQ.length + (accN + (s.entry x).code.length) / 8 ≤ s.params.outDepth) :
    ∃ out acc' n', Packs acc accN (s.entry x).code out acc' n' ∧
      runEngine (1 + (s.entry x).code.length + out.length) (goto (.encode (.symbol acc accN)) s) =
        .next (goto (.encode (.symbol acc' n'))
          (countDown 1 (pushedAll out (taken { byte := x, last := last } q s)))) := by
  have htake := (engineStep_symbol (s := goto (.encode (.symbol acc accN)) s) rfl hleft hend hq).trans (if_neg hcode)
  obtain ⟨b, bits, hbits⟩ : ∃ b bits, (s.entry x).code = b :: bits := by
    refine List.exists_cons_of_ne_nil fun hnil => hcode (BitVec.eq_of_toNat_eq ?_)
    rw [← code_length, hnil]
    rfl
  rw [hbits] at hroom ⊢
  obtain ⟨out, acc', n', hpack, hrun⟩ := runEngine_code (s := taken { byte := x, last := last } q s) (j := 0)
    (acc := acc) hbits hn hroom
  refine ⟨out, acc', n', hpack, ?_⟩
  rw [Nat.add_assoc]
  exact runEngine_trans (runEngine_one htake) hrun

/-- R82: the symbol loop. The engine takes exactly the symbols and pushes every full byte of their codes. -/
theorem runEngine_symbols {syms : List Byte} {last : Bool} {rest : List InEntry} :
    ∀ {acc : Byte} {accN : Nat} {s : State}, s.inQ = feed syms last ++ rest →
    (syms ≠ [] → s.status.inEnded = false) → syms.length ≤ s.symsLeft.toNat →
    (∀ x ∈ syms, (s.entry x).len ≠ 0) → accN < 8 →
    s.outQ.length + (accN + (s.codeBits syms).length) / 8 ≤ s.params.outDepth →
      ∃ out acc' n', Packs acc accN (s.codeBits syms) out acc' n' ∧
        runEngine (syms.length + (s.codeBits syms).length + out.length) (goto (.encode (.symbol acc accN)) s) =
          .next (goto (.encode (.symbol acc' n')) (encodedAll syms last rest out s)) := by
  induction syms with
  | nil =>
    intro acc accN s hq _ _ _ hn _
    exact ⟨[], acc, accN, .nil acc hn, by rw [encodedAll_nil (rest := rest) hq]; rfl⟩
  | cons x syms ih =>
    intro acc accN s hq hend hleft hcode hn hroom
    obtain ⟨hx, hsyms⟩ := List.forall_mem_cons.mp hcode
    have hbits : s.codeBits (x :: syms) = (s.entry x).code ++ s.codeBits syms := rfl
    rw [feed_cons, List.cons_append] at hq
    rw [hbits, List.length_append] at hroom
    rw [List.length_cons] at hleft
    have hne := hend (List.cons_ne_nil _ _)
    have hpos : s.symsLeft ≠ 0 := fun h => by
      rw [h] at hleft
      exact Nat.not_succ_le_zero _ hleft
    obtain ⟨out, acc', n', hpack, hrun⟩ := runEngine_symbol (acc := acc) hpos hne hq hx hn (by omega)
    have hcount := hpack.length
    let u := countDown 1 (pushedAll out (taken { byte := x, last := last && syms.isEmpty } (feed syms last ++ rest) s))
    have huend : syms ≠ [] → u.status.inEnded = false := fun hsome => by
      have hended : u.status.inEnded = (s.status.inEnded || (last && syms.isEmpty)) := rfl
      rw [hended, hne, List.isEmpty_eq_false_iff.mpr hsome, Bool.and_false, Bool.or_false]
    have huleft : syms.length ≤ u.symsLeft.toNat := by
      have hsub : u.symsLeft.toNat = s.symsLeft.toNat - 1 :=
        BitVec.toNat_sub_of_le (Nat.le_trans (Nat.le_add_left _ _) hleft)
      omega
    have houtQ : u.outQ.length = s.outQ.length + out.length := List.length_append
    obtain ⟨out', acc'', n'', hpack', hrun'⟩ := ih (s := u) (acc := acc') rfl huend huleft hsyms hpack.notFull
      (show u.outQ.length + (n' + (s.codeBits syms).length) / 8 ≤ s.params.outDepth by omega)
    rw [encodedAll_cons] at hrun'
    refine ⟨out ++ out', acc'', n'', hpack.trans hpack', ?_⟩
    have hsteps : (x :: syms).length + (s.codeBits (x :: syms)).length + (out ++ out').length =
        1 + (s.entry x).code.length + out.length + (syms.length + (s.codeBits syms).length + out'.length) := by
      simp only [hbits, List.length_cons, List.length_append]
      omega
    rw [hsteps]
    exact runEngine_trans hrun hrun'

/-! ### The header and the final byte (R82) -/

/-- R82: step 1, the digits one after another and then the separator. -/
theorem runEngine_digits {ds : List Byte} : ∀ {s : State}, s.outQ.length + ds.length + 1 ≤ s.params.outDepth →
    runEngine (ds.length + 1) (goto (.encode (.digits ds)) s) =
      .next (goto (.encode (.symbol 0 0)) (pushedAll (ds ++ [s.cfg.separator]) s)) := by
  induction ds with
  | nil =>
    intro s hroom
    exact runEngine_one (outPush_goto hroom _)
  | cons d ds ih =>
    intro s hroom
    rw [List.length_cons] at hroom
    have hdigit : engineStep (goto (.encode (.digits (d :: ds))) s) =
        some (.next (goto (.encode (.digits ds)) (pushedAll [d] s))) := outPush_goto (by omega) _
    have hrest := ih (s := pushedAll [d] s) (by simp; omega)
    rw [pushedAll_pushedAll] at hrest
    rw [List.length_cons, Nat.add_comm ds.length 1, Nat.add_assoc]
    exact runEngine_trans (runEngine_one hdigit) hrest

/-- R82: step 4, once no symbol is left: the padded final byte if the accumulator holds a bit, and completion. -/
theorem runEngine_finalBytes {s : State} {acc : Byte} {accN : Nat} (hleft : s.symsLeft = 0)
    (hroom : s.outQ.length + (finalBytes acc accN).length ≤ s.params.outDepth) :
    runEngine ((finalBytes acc accN).length + 1) (goto (.encode (.symbol acc accN)) s) =
      .next (complete (pushedAll (finalBytes acc accN) s)) := by
  have hstep : engineStep (goto (.encode (.symbol acc accN)) s) = _ := if_pos hleft
  by_cases hz : accN = 0
  · rw [if_pos hz] at hstep
    rw [finalBytes, if_pos hz, pushedAll_nil]
    exact runEngine_one hstep
  · rw [finalBytes, if_neg hz] at hroom ⊢
    rw [if_neg hz] at hstep
    have hpad := hstep.trans (outPush_goto hroom _)
    exact runEngine_trans (runEngine_one hpad) (runEngine_one rfl)

/-! ### The whole command (R83) -/

/-- R90, R91: ENCODE completes after its header `hdr`, the symbols and the bytes `out` of their codes. -/
theorem complete_encodedAll {s : State} {syms : List Byte} (hcount : s.symCount.toNat = syms.length) (last : Bool)
    (rest : List InEntry) (hdr out fin : List Byte) :
    complete (pushedAll fin (encodedAll syms last rest out
        (pushedAll hdr { requestHead (encode .encode) s with symsLeft := s.symCount }))) =
      { s.finished 0x03 (last && !syms.isEmpty) syms.length (hdr ++ (out ++ fin)).length with
        inQ := rest
        outQ := s.outQ ++ (hdr ++ (out ++ fin))
        symsLeft := 0 } := by
  have hleft : s.symCount - BitVec.ofNat 64 syms.length = 0 := by
    rw [← hcount, BitVec.ofNat_toNat, BitVec.setWidth_eq]
    exact BitVec.sub_self _
  have hzero (n : Nat) : (0 : Count) + BitVec.ofNat 64 n = BitVec.ofNat 64 n := BitVec.zero_add _
  simp only [complete, pushedAll, encodedAll, countDown, takenAll, requestHead, opcodeField_encode, hleft, hzero,
    State.finished, List.append_assoc, List.length_append, BitVec.ofNat_add, BitVec.add_assoc, Bool.false_or]
  rfl

/-- Settles O14: the header, the symbol loop and the final byte, one after another. -/
theorem encodeEmitsHeaderAndBitstream : Obligations.EncodeEmitsHeaderAndBitstream := by
  unfold Obligations.EncodeEmitsHeaderAndBitstream
  intro s syms last rest hs hc hcount hq hcode hroom hlead
  refine ⟨?_, codeBits_length s syms, fun t => by simp only [State.container, List.append_assoc]⟩
  have hlength : (s.bitstream syms).length = ((s.codeBits syms).length + 7) / 8 := packBits_length _
  let u := requestHead (encode .encode) s
  let v : State := { u with symsLeft := s.symCount }
  let hdr := dec s.symCount ++ [s.cfg.separator]
  have hhdr : hdr.length = (dec s.symCount).length + 1 := List.length_append
  have hstart : engineStep (goto (.encode .start) u) = some (.next (goto (.encode (.digits (dec s.symCount))) v)) := rfl
  have hheader : runEngine ((dec s.symCount).length + 1) (goto (.encode (.digits (dec s.symCount))) v) =
      .next (goto (.encode (.symbol 0 0)) (pushedAll hdr v)) :=
    runEngine_digits (Nat.le_trans (Nat.le_add_right _ _) hroom)
  have houtQ : (pushedAll hdr v).outQ.length = s.outQ.length + hdr.length := List.length_append
  obtain ⟨out, acc, accN, hpack, hsymbols⟩ := runEngine_symbols (s := pushedAll hdr v) (acc := 0) (accN := 0) hq
    (fun _ => rfl) (Nat.le_of_eq hcount.symm) hcode (by decide)
    (show (pushedAll hdr v).outQ.length + (0 + (s.codeBits syms).length) / 8 ≤ s.params.outDepth by omega)
  have hbytes : out ++ finalBytes acc accN = s.bitstream syms := hpack.eq_packBits
  have hbytesLength := congrArg List.length hbytes
  rw [List.length_append] at hbytesLength
  have hcomplete := complete_encodedAll hcount last rest hdr out (finalBytes acc accN)
  let w := encodedAll syms last rest out (pushedAll hdr v)
  have houtQ' : w.outQ.length = (pushedAll hdr v).outQ.length + out.length := List.length_append
  have hfinal := runEngine_finalBytes (s := w) (acc := acc) (accN := accN) (congrArg State.symsLeft hcomplete)
    (show w.outQ.length + (finalBytes acc accN).length ≤ s.params.outDepth by omega)
  have hrun := runEngine_trans (runEngine_one hstart) (runEngine_trans hheader (runEngine_trans hsymbols hfinal))
  have hflushed : 8 * out.length + accN = 0 + (s.codeBits syms).length := hpack.length
  have hsteps : 1 + ((dec s.symCount).length + 1 +
      (syms.length + (s.codeBits syms).length + out.length + ((finalBytes acc accN).length + 1))) ≤ s.lead := by omega
  rw [exec_of_run hs (fun _ => hc) hrun rfl hsteps, hcomplete, hbytes, List.length_append, hhdr, hlength]

/-! ### The frame (R82) -/

/-- R63, R82: the operands that ENCODE reads and never writes. -/
structure EncodeKeeps (s t : State) : Prop where
  arena : t.arena = s.arena
  nodeCount : t.nodeCount = s.nodeCount
  symCount : t.symCount = s.symCount
  table : t.table = s.table

/-- Settles O21: a stream transfer writes no operand, and neither does the rest of a step of ENCODE. -/
theorem encodeFrame : Obligations.EncodeFrame := by
  unfold Obligations.EncodeFrame
  intro s t hs h
  have hframe : EncodeKeeps s t := by
    refine exec_keeps (P := EncodeKeeps s) hs ?_ ?_ h
    · rw [issue, request_ready hs]
      split <;> exact ⟨rfl, rfl, rfl, rfl⟩
    · rintro u v - - ⟨w, htr, hch⟩ hu
      obtain ⟨-, hsymCount, htable, harena, hnodeCount⟩ := htr.operands
      exact
        { arena := (hch.arena nofun nofun).trans (harena.trans hu.arena)
          nodeCount := (hch.nodeCount nofun nofun).trans (hnodeCount.trans hu.nodeCount)
          symCount := (hch.symCount nofun).trans (hsymCount.trans hu.symCount)
          table := (hch.table nofun).trans (htable.trans hu.table) }
  exact ⟨hframe.arena, hframe.nodeCount, hframe.symCount, hframe.table⟩

end Sys2Proof.Machine

/-! The steps of DECODE after its tree (R86, R87, R88): a byte of the header, and a bit of the walk. -/

namespace Sys2Proof.Machine

/-! ### A byte of the header (R86) -/

theorem isDigit_iff {b : Byte} : isDigit b = true ↔ 0x30 ≤ b.toNat ∧ b.toNat ≤ 0x39 := by simp [isDigit]

theorem isDigit_eq_false_iff {b : Byte} : isDigit b = false ↔ b.toNat < 0x30 ∨ 0x39 < b.toNat := by
  rw [← Bool.not_eq_true, isDigit_iff]
  omega

/-- R86: a digit is counted in, or takes the value too far. -/
theorem headerByte_digit {b : Byte} (h : isDigit b = true) (hv : Count) (hd : Nat) (s : State) :
    headerByte hv hd b s =
      if 2 ^ 64 - 1 < headerValue hv b then raiseError .countOverflow (b.setWidth 32) s
      else goto (.decode (.header (BitVec.ofNat 64 (headerValue hv b)) (hd + 1))) s :=
  if_pos h

/-- R86: a byte that is no digit ends the header, and must be the separator after a digit. -/
theorem headerByte_nonDigit {b : Byte} (h : isDigit b = false) (hv : Count) (hd : Nat) (s : State) :
    headerByte hv hd b s =
      if hd = 0 then raiseError .noDigits (b.setWidth 32) s
      else if b ≠ s.cfg.separator then raiseError .badSeparator (b.setWidth 32) s
      else goto (.decode (.body 0 .empty)) { s with symCount := hv, symsLeft := hv } :=
  if_neg (Bool.eq_false_iff.mp h)

/-- R86: a byte of the header is taken and looked at. -/
theorem engineStep_header {s t : State} {hv : Count} {hd : Nat} {e : InEntry} {q : List InEntry}
    (hE : s.engine = .decode (.header hv hd)) (hend : s.status.inEnded = false) (hq : s.inQ = e :: q)
    (ht : headerByte hv hd e.byte (taken e q s) = t) : engineStep s = some (.next t) := by
  rw [engineStep, hE, ← ht]
  exact inPop_cons hend hq .hdr fun b u => some (.next (headerByte hv hd b u))

/-- Settles O36: the byte is taken, and then it is a digit or not. -/
theorem headerByteRules : Obligations.HeaderByteRules := by
  unfold Obligations.HeaderByteRules
  intro s hv hd e q hE hend hq
  have hstep {t : State} := engineStep_header (t := t) hE hend hq
  have hdigit (h : 0x30 ≤ e.byte.toNat ∧ e.byte.toNat ≤ 0x39) := headerByte_digit (isDigit_iff.mpr h) hv hd (taken e q s)
  have hother (h : e.byte.toNat < 0x30 ∨ 0x39 < e.byte.toNat) :=
    headerByte_nonDigit (isDigit_eq_false_iff.mpr h) hv hd (taken e q s)
  refine ⟨fun hlo hhi hover => ?_, fun hlo hhi hfits => ?_,
    fun hnot => ⟨fun hz => ?_, fun hz hsep => ?_, fun hz hsep => ?_⟩⟩
  · exact hstep ((hdigit ⟨hlo, hhi⟩).trans (if_pos hover))
  · have hvalue : (BitVec.ofNat 64 (headerValue hv e.byte)).toNat = headerValue hv e.byte :=
      (BitVec.toNat_ofNat _ _).trans (Nat.mod_eq_of_lt (Nat.lt_of_le_pred (by decide) hfits))
    exact ⟨_, hvalue, hstep ((hdigit ⟨hlo, hhi⟩).trans (if_neg (Nat.not_lt.mpr hfits)))⟩
  · exact hstep ((hother hnot).trans (if_pos hz))
  · exact hstep ((hother hnot).trans ((if_neg hz).trans (if_pos hsep)))
  · exact hstep ((hother hnot).trans ((if_neg hz).trans (if_neg (not_not.mpr hsep))))

/-! ### A bit of the walk (R87, R88) -/

/-- R88: under a root that is a leaf, a bit of any value leads to its symbol. -/
theorem walkBit_rootLeaf {s : State} {root : Node} (hroot : s.node? 0 = some root) (hleaf : root.leaf = true)
    (ptr : NodeIdx) (bit : Bool) (cur : Cursor) :
    walkBit ptr bit cur s = .next (goto (.decode (.emit root.symbol ptr cur)) s) := by
  simp only [walkBit, hroot, hleaf, if_true]

/-- R87: under any other root, a bit leads to a child; if that is a leaf, its symbol comes next. -/
theorem walkBit_child {s : State} {root n child : Node} {ptr : NodeIdx} {bit : Bool} (hroot : s.node? 0 = some root)
    (hleaf : root.leaf = false) (hn : s.node? ptr = some n) (hchild : s.node? (childOf n bit) = some child)
    (cur : Cursor) :
    walkBit ptr bit cur s =
      .next (goto (.decode (if child.leaf then .emit child.symbol 0 cur else .body (childOf n bit) cur)) s) := by
  simp only [walkBit, hroot, hleaf, hn, hchild, Bool.false_eq_true, if_false]
  split <;> rfl

/-- R87: a bit of the byte held is used up, and the walk goes on with it. -/
theorem engineStep_walkBit {s : State} {ptr : NodeIdx} {cur : Byte} {k : Nat}
    (hE : s.engine = .decode (.body ptr (.bits cur (k + 1)))) (hleft : s.symsLeft ≠ 0) :
    engineStep s = some (walkBit ptr (cur.getLsbD k) (if k = 0 then .empty else .bits cur k) s) := by
  rw [engineStep, hE]
  exact if_neg hleft

/-- Settles O38: the child that the bit selects, a leaf or not. -/
theorem walkDescendsLeftOnOne : Obligations.WalkDescendsLeftOnOne := by
  unfold Obligations.WalkDescendsLeftOnOne
  intro s ptr cur k root n child hE hleft hroot hleaf hn hchild
  rw [engineStep_walkBit hE hleft, walkBit_child hroot hleaf hn hchild]
  rfl

/-- Settles O39: the root is a leaf. -/
theorem oneLeafTreeTakesOneBitASymbol : Obligations.OneLeafTreeTakesOneBitASymbol := by
  unfold Obligations.OneLeafTreeTakesOneBitASymbol
  intro s ptr cur k root hE hleft hroot hleaf
  rw [engineStep_walkBit hE hleft, walkBit_rootLeaf hroot hleaf]
  rfl

end Sys2Proof.Machine

/-! The header of a container as DECODE reads it (R68, R86): digits that are counted in, and the separator. -/

namespace Sys2Proof.Machine

/-- R68, R86: `HV` after the digits `ds`, from the value `v` on, on unbounded naturals. -/
def valueAfter (v : Nat) (ds : List Byte) : Nat := ds.foldl (fun v b => v * 10 + digitValue b) v

theorem valueAfter_zero (ds : List Byte) : valueAfter 0 ds = digitsValue ds := rfl

/-- R86: digits never lower the value. -/
theorem le_valueAfter (v : Nat) (ds : List Byte) : v ≤ valueAfter v ds := by
  induction ds generalizing v with
  | nil => exact Nat.le_refl v
  | cons d ds ih => exact Nat.le_trans (by omega) (ih (v * 10 + digitValue d))

/-- R86: what a byte of the header does is no matter of where the engine was. -/
theorem headerByte_goto (hv : Count) (hd : Nat) (b : Byte) (e : Engine) (s : State) :
    headerByte hv hd b (goto e s) = headerByte hv hd b s := rfl

section
variable {s : State} {c : Nat} {a : Vector Node 511} {bs : List Byte} {last : Bool} {rest : List InEntry}

theorem engineStep_header_parsing {t : State} {hv : Count} {hd k : Nat} {b : Byte}
    (ht : headerByte hv hd b (s.parsing c a (k + 1) bs last rest) = t) :
    engineStep (goto (.decode (.header hv hd)) (s.parsing c a k (b :: bs) last rest)) = some (.next t) :=
  engineStep_header rfl (Bool.and_false last) (inQ_parsing s c a k b bs last rest _)
    (by rw [taken_parsing, headerByte_goto, ht])

/-- R86: digits whose value fits 64 bits are taken and counted in. -/
theorem runEngine_headerDigits {ds : List Byte} : ∀ {hv : Count} {hd k : Nat}, (∀ d ∈ ds, isDigit d = true) →
    valueAfter hv.toNat ds < 2 ^ 64 →
      runEngine ds.length (goto (.decode (.header hv hd)) (s.parsing c a k (ds ++ bs) last rest)) =
        .next (goto (.decode (.header (BitVec.ofNat 64 (valueAfter hv.toNat ds)) (hd + ds.length)))
          (s.parsing c a (k + ds.length) bs last rest)) := by
  induction ds with
  | nil =>
    intro hv hd k _ _
    rw [valueAfter, List.foldl_nil, BitVec.ofNat_toNat, BitVec.setWidth_eq]
    rfl
  | cons d ds ih =>
    intro hv hd k hdigits hfits
    obtain ⟨hd1, hds⟩ := List.forall_mem_cons.mp hdigits
    have hle : headerValue hv d ≤ valueAfter hv.toNat (d :: ds) := le_valueAfter (headerValue hv d) ds
    have hvalue : (BitVec.ofNat 64 (headerValue hv d)).toNat = headerValue hv d :=
      (BitVec.toNat_ofNat _ _).trans (Nat.mod_eq_of_lt (Nat.lt_of_le_of_lt hle hfits))
    have hdigit := engineStep_header_parsing (s := s) (c := c) (a := a) (bs := ds ++ bs) (last := last) (rest := rest)
      (k := k) ((headerByte_digit hd1 hv hd _).trans (if_neg (by omega)))
    have hrest := ih (hv := BitVec.ofNat 64 (headerValue hv d)) (hd := hd + 1) (k := k + 1) hds (by rwa [hvalue])
    rw [hvalue, Nat.add_right_comm hd, Nat.add_right_comm k] at hrest
    have hrun := runEngine_trans (runEngine_one hdigit) hrest
    rwa [Nat.add_comm 1] at hrun

/-- R86: the whole header, one or more digits and the separator. -/
theorem runEngine_header {ds : List Byte} {k : Nat} (hne : ds ≠ []) (hdigits : ∀ d ∈ ds, isDigit d = true)
    (hsep : isDigit s.cfg.separator = false) (hfits : digitsValue ds < 2 ^ 64) :
    runEngine (ds.length + 1)
        (goto (.decode (.header 0 0)) (s.parsing c a k (ds ++ s.cfg.separator :: bs) last rest)) =
      .next (goto (.decode (.body 0 .empty))
        ({ s with symCount := BitVec.ofNat 64 (digitsValue ds), symsLeft := BitVec.ofNat 64 (digitsValue ds) }.parsing
          c a (k + ds.length + 1) bs last rest)) := by
  rw [← valueAfter_zero] at hfits ⊢
  have hrun := runEngine_headerDigits (s := s) (c := c) (a := a) (bs := s.cfg.separator :: bs) (last := last)
    (rest := rest) (hv := 0) (hd := 0) (k := k) hdigits hfits
  have hlen : 0 + ds.length ≠ 0 := by
    have := List.length_pos_iff.mpr hne
    omega
  exact runEngine_trans hrun (runEngine_one (engineStep_header_parsing
    ((headerByte_nonDigit hsep _ _ _).trans ((if_neg hlen).trans (if_neg (not_not.mpr rfl))))))

end

end Sys2Proof.Machine

/-! The body of a container as DECODE reads it (R87, R88): the bits not read yet, the walk of a code from the root to its
leaf, and the symbols one after another. -/

namespace Sys2Proof.Machine

/-! ### The bits not read yet (R47, R87) -/

/-- R37, R87: the bits of the byte held that are not read yet. -/
def Cursor.unread : Cursor → List Bool
  | .empty => []
  | .bits cur n => accBits cur n

/-- R47, R87: the bits still to be read are `bits`: first those of the byte held, then those of the bytes to come. -/
structure Unread (cur : Cursor) (payload : List Byte) (bits : List Bool) : Prop where
  ok : cur.ok
  bits : cur.unread ++ bytesBits payload = bits

/-- R47: bit 7 of a byte is read first. -/
theorem accBits_succ (b : Byte) (n : Nat) : accBits b (n + 1) = b.getLsbD n :: accBits b n := by
  rw [accBits, List.range_succ_eq_map, List.map_cons, List.map_map]
  refine congrArg (b.getLsbD n :: ·) (List.map_congr_left fun i _ => congrArg b.getLsbD ?_)
  omega

/-- R87: a bit is read from the byte held. -/
theorem Unread.read {cur : Byte} {n : Nat} {payload : List Byte} {b : Bool} {bits : List Bool}
    (h : Unread (.bits cur (n + 1)) payload (b :: bits)) :
    cur.getLsbD n = b ∧ Unread (if n = 0 then .empty else .bits cur n) payload bits := by
  have hbits := h.bits
  rw [Cursor.unread, accBits_succ, List.cons_append] at hbits
  obtain ⟨hb, hrest⟩ := List.cons.inj hbits
  refine ⟨hb, ?_⟩
  by_cases hz : n = 0
  · subst hz
    exact ⟨trivial, hrest⟩
  · rw [if_neg hz]
    exact ⟨⟨Nat.pos_of_ne_zero hz, Nat.le_of_succ_le h.ok.2⟩, hrest⟩

/-- R87: fewer than 8 bits that are not read leave no byte to come. -/
theorem Unread.payload_eq_nil {cur : Cursor} {payload : List Byte} {bits : List Bool} (h : Unread cur payload bits)
    (hbits : bits.length < 8) : payload = [] := by
  have hlen := congrArg List.length h.bits
  rw [List.length_append, bytesBits_length] at hlen
  exact List.length_eq_zero_iff.mp (by omega)

/-! ### Symbols emitted one after another (R87) -/

/-- R23, R87: the state after the symbols `syms` were emitted. -/
def emittedAll (syms : List Byte) (s : State) : State := countDown syms.length (pushedAll syms s)

theorem emittedAll_nil (s : State) : emittedAll [] s = s := by
  rw [emittedAll, pushedAll_nil]
  simp [countDown]

theorem emittedAll_cons (x : Byte) (syms : List Byte) (s : State) :
    emittedAll syms (emittedAll [x] s) = emittedAll (x :: syms) s := by
  have hleft : s.symsLeft - 1#64 - BitVec.ofNat 64 syms.length = s.symsLeft - BitVec.ofNat 64 (syms.length + 1) := by
    rw [BitVec.sub_sub, Nat.add_comm, BitVec.ofNat_add]
  have hpush : pushedAll (x :: syms) s = pushedAll syms (pushedAll [x] s) := (pushedAll_pushedAll [x] s syms).symm
  rw [emittedAll, emittedAll, emittedAll, hpush]
  simp only [countDown, pushedAll, List.length_cons, List.length_nil, Nat.zero_add, hleft]

/-! ### Runs of the body -/

section
variable (c : Nat) (a : Vector Node 511) (last : Bool) (rest : List InEntry)

/-- R87: in `n` steps, and one more for each byte it takes, the engine reads the bits `code` and goes from the position `p`
in `s` to the position `p'` in `s'`, whatever it has read before and whatever follows. The arena is `a`, with `c` nodes. -/
def Reads (n : Nat) (p : Cursor → DecodePos) (s : State) (code : List Bool) (p' : Cursor → DecodePos) (s' : State) :
    Prop :=
  ∀ (k : Nat) (cur : Cursor) (payload : List Byte) (bits : List Bool), Unread cur payload (code ++ bits) →
    ∃ m cur' payload', m + payload'.length = payload.length ∧ Unread cur' payload' bits ∧
      runEngine (m + n) (goto (.decode (p cur)) (s.parsing c a k payload last rest)) =
        .next (goto (.decode (p' cur')) (s'.parsing c a (k + m) payload' last rest))

end

section
variable {c : Nat} {a : Vector Node 511} {last : Bool} {rest : List InEntry} {s s' s'' : State} {n n' : Nat}
  {p p' p'' : Cursor → DecodePos} {code code' : List Bool}

theorem Reads.refl : Reads c a last rest 0 p s [] p s := fun _ cur payload _ h =>
  ⟨0, cur, payload, Nat.zero_add _, h, rfl⟩

theorem Reads.trans (h : Reads c a last rest n p s code p' s') (h' : Reads c a last rest n' p' s' code' p'' s'') :
    Reads c a last rest (n + n') p s (code ++ code') p'' s'' := by
  intro k cur payload bits hbits
  rw [List.append_assoc] at hbits
  obtain ⟨m, cur', payload', hm, hbits', hrun⟩ := h k cur payload _ hbits
  obtain ⟨m', cur'', payload'', hm', hbits'', hrun'⟩ := h' (k + m) cur' payload' bits hbits'
  refine ⟨m + m', cur'', payload'', by omega, hbits'', ?_⟩
  rw [Nat.add_add_add_comm, ← Nat.add_assoc k]
  exact runEngine_trans hrun hrun'

/-- R87: a byte is taken only when a bit is needed and none is held. -/
theorem runEngine_fetch {ptr : NodeIdx} {cur : Cursor} {payload : List Byte} {b : Bool} {bits : List Bool} (k : Nat)
    (hleft : s.symsLeft ≠ 0) (h : Unread cur payload (b :: bits)) :
    ∃ m held j payload', m + payload'.length = payload.length ∧ Unread (.bits held (j + 1)) payload' (b :: bits) ∧
      runEngine m (goto (.decode (.body ptr cur)) (s.parsing c a k payload last rest)) =
        .next (goto (.decode (.body ptr (.bits held (j + 1)))) (s.parsing c a (k + m) payload' last rest)) := by
  cases cur with
  | bits held j =>
    obtain ⟨j, rfl⟩ := Nat.exists_eq_succ_of_ne_zero (Nat.ne_of_gt h.ok.1)
    exact ⟨0, held, j, payload, Nat.zero_add _, h, rfl⟩
  | empty =>
    cases payload with
    | nil => cases h.bits
    | cons x payload =>
      have htake : engineStep (goto (.decode (.body ptr .empty)) (s.parsing c a k (x :: payload) last rest)) =
          some (.next (goto (.decode (.body ptr (.bits x 8))) (s.parsing c a (k + 1) payload last rest))) := by
        have hq := inQ_parsing s c a k x payload last rest (.decode (.body ptr .empty))
        refine (if_neg hleft).trans ((inPop_cons (Bool.and_false last) hq _ _).trans ?_)
        rw [taken_parsing]
        rfl
      exact ⟨1, x, 7, payload, Nat.add_comm _ _, ⟨⟨by decide, Nat.le_refl 8⟩, h.bits⟩, runEngine_one htake⟩

/-- R87: one bit of the walk, by what `walkBit` makes of it. -/
theorem Reads.bit {ptr : NodeIdx} {b : Bool} (hleft : s.symsLeft ≠ 0)
    (hwalk : ∀ u : State, u.arena = a → ∀ cur, walkBit ptr b cur u = .next (goto (.decode (p cur)) u)) :
    Reads c a last rest 1 (.body ptr) s [b] p s := by
  intro k cur payload bits h
  obtain ⟨m, held, j, payload', hm, hheld, hfetch⟩ := runEngine_fetch (c := c) (a := a) (last := last) (rest := rest)
    (ptr := ptr) k hleft h
  obtain ⟨rfl, hread⟩ := hheld.read
  refine ⟨m, _, payload', hm, hread, runEngine_trans hfetch (runEngine_one ?_)⟩
  exact (engineStep_walkBit (s := goto _ (s.parsing c a _ payload' last rest)) rfl hleft).trans
    (congrArg some (hwalk _ rfl _))

/-! ### The walk of a code (R87, R88) -/

/-- R87: where the walk is once it has reached the tree `t` at index `i`: a leaf is emitted next. -/
def Tree.reached : Tree → Nat → Cursor → DecodePos
  | .leaf _ x, _, cur => .emit x 0 cur
  | .internal _ _ _, i, cur => .body (BitVec.ofNat 9 i) cur

theorem reached_of_layout {t : Tree} {i : Nat} (h : layout a t i) :
    ∃ n, a[i]? = some n ∧
      ∀ cur, (if n.leaf then .emit n.symbol 0 cur else .body (BitVec.ofNat 9 i) cur) = t.reached i cur := by
  cases t with
  | leaf e x => exact ⟨_, h, fun _ => rfl⟩
  | internal e l r => exact ⟨_, h.1, fun _ => rfl⟩

theorem node?_of_getElem? {u : State} {i : Nat} {n : Node} (hi : i < 511) (h : u.arena[i]? = some n) :
    u.node? (BitVec.ofNat 9 i) = some n := by
  rw [State.node?, nodeIdx_toNat hi, h]

/-- R87: a bit that selects the root of the tree `t` reaches it. -/
theorem walkBit_reached {u : State} {root n : Node} {ptr : NodeIdx} {b : Bool} {t : Tree} {j : Nat}
    (hroot : u.node? 0 = some root) (hleaf : root.leaf = false) (hn : u.node? ptr = some n)
    (hchild : childOf n b = BitVec.ofNat 9 j) (hj : j < 511) (h : layout u.arena t j) (cur : Cursor) :
    walkBit ptr b cur u = .next (goto (.decode (t.reached j cur)) u) := by
  obtain ⟨child, hget, hreached⟩ := reached_of_layout h
  rw [walkBit_child hroot hleaf hn (hchild ▸ node?_of_getElem? hj hget), hchild, hreached]

/-- R87: a bit at an internal node, under a root that is no leaf. -/
theorem Reads.child {root : Node} {e : Byte} {l r : Tree} {i : Nat} (hleft : s.symsLeft ≠ 0)
    (hroot : a[0]? = some root) (hleaf : root.leaf = false) (h : layout a (.internal e l r) i)
    (hsize : i + (Tree.internal e l r).size ≤ 511) (b : Bool) :
    Reads c a last rest 1 (.body (BitVec.ofNat 9 i)) s [b]
      (if b then l.reached (i + 1) else r.reached (i + 1 + l.size)) s := by
  obtain ⟨hself, hl, hr⟩ := h
  simp only [Tree.size] at hsize
  have hlpos := size_pos l
  have hrpos := size_pos r
  refine .bit hleft fun u ha cur => ?_
  subst ha
  have hstep {t : Tree} {j : Nat} := walkBit_reached (b := b) (t := t) (j := j)
    (node?_of_getElem? (i := 0) (by decide) hroot) hleaf (node?_of_getElem? (by omega) hself)
  cases b with
  | true => exact hstep rfl (by omega) hl cur
  | false => exact hstep rfl (by omega) hr cur

/-- R87: from a subtree that the walk has reached, the bits that lead to one of its leaves lead to that leaf's symbol. -/
theorem Reads.walk {root : Node} (hleft : s.symsLeft ≠ 0) (hroot : a[0]? = some root) (hleaf : root.leaf = false)
    {t : Tree} {x : Byte} : ∀ {i : Nat} {code : List Bool}, layout a t i → i + t.size ≤ 511 → t.walk code = some x →
      Reads c a last rest code.length (t.reached i) s code (.emit x 0) s := by
  induction t with
  | leaf e y =>
    intro i code h _ hwalk
    cases code with
    | nil =>
      cases hwalk
      exact .refl
    | cons b code => cases hwalk
  | internal e l r ihl ihr =>
    intro i code h hsize hwalk
    cases code with
    | nil => cases hwalk
    | cons b code =>
      have hbit := Reads.child (c := c) (last := last) (rest := rest) hleft hroot hleaf h hsize b
      obtain ⟨-, hl, hr⟩ := h
      simp only [Tree.size] at hsize
      rw [List.length_cons, Nat.add_comm]
      cases b with
      | true => exact hbit.trans (ihl hl (by omega) hwalk)
      | false => exact hbit.trans (ihr hr (by omega) hwalk)

/-- R87, R88: a code of `x`, read from the root, leads to the symbol `x`. -/
theorem Reads.symbol {t : Tree} {x : Byte} (hleft : s.symsLeft ≠ 0) (h : layout a t 0) (hsize : t.size ≤ 511)
    (hcode : t.codes code x) : Reads c a last rest code.length (.body 0) s code (.emit x 0) s := by
  cases t with
  | leaf e y =>
    obtain ⟨hlen, rfl⟩ := hcode
    obtain ⟨b, rfl⟩ := List.length_eq_one_iff.mp hlen
    exact .bit hleft fun u ha cur => by
      subst ha
      exact walkBit_rootLeaf (node?_of_getElem? (i := 0) (by decide) h) rfl 0 b cur
  | internal e l r => exact .walk hleft h.1 rfl h (by omega) hcode

/-! ### The symbols (R85, R87) -/

/-- R87: the symbol is emitted, and one less is left. -/
theorem Reads.emit {x : Byte} (hroom : s.outQ.length < s.params.outDepth) :
    Reads c a last rest 1 (.emit x 0) s [] (.body 0) (emittedAll [x] s) := by
  intro k cur payload bits h
  have hpush := outPush_room (s := goto (.decode (.emit x 0 cur)) (s.parsing c a k payload last rest)) hroom x
    fun u => some (.next (goto (.decode (.body 0 cur)) { u with symsLeft := u.symsLeft - 1 }))
  exact ⟨0, cur, payload, Nat.zero_add _, h, runEngine_one hpush⟩

/-- R87: codes of symbols, one after another, lead to the symbols, one after another. -/
theorem Reads.symbols {t : Tree} (h : layout a t 0) (hsize : t.size ≤ 511) {coded : List (List Bool × Byte)} :
    ∀ {s : State}, (∀ q ∈ coded, t.codes q.1 q.2) → coded.length ≤ s.symsLeft.toNat →
      s.outQ.length + coded.length ≤ s.params.outDepth →
        Reads c a last rest ((coded.flatMap Prod.fst).length + coded.length) (.body 0) s (coded.flatMap Prod.fst)
          (.body 0) (emittedAll (coded.map Prod.snd) s) := by
  induction coded with
  | nil =>
    intro s _ _ _
    exact (emittedAll_nil s).symm ▸ .refl
  | cons q coded ih =>
    intro s hcodes hleft hroom
    obtain ⟨hq, hcoded⟩ := List.forall_mem_cons.mp hcodes
    rw [List.length_cons] at hleft hroom
    have hpos : s.symsLeft ≠ 0 := fun hz => by
      rw [hz] at hleft
      exact Nat.not_succ_le_zero _ hleft
    let u := emittedAll [q.2] s
    have hsub : u.symsLeft.toNat = s.symsLeft.toNat - 1 :=
      BitVec.toNat_sub_of_le (Nat.le_trans (Nat.le_add_left _ _) hleft)
    have houtQ : u.outQ.length = s.outQ.length + 1 := List.length_append
    have hfirst := (Reads.symbol (c := c) (last := last) (rest := rest) hpos h hsize hq).trans (.emit (by omega))
    have hrest := ih (s := u) hcoded (by omega) (show u.outQ.length + coded.length ≤ s.params.outDepth by omega)
    have hrun := hfirst.trans hrest
    have hsteps : q.1.length + 1 + ((coded.flatMap Prod.fst).length + coded.length) =
        ((q :: coded).flatMap Prod.fst).length + (q :: coded).length := by
      simp only [List.flatMap_cons, List.length_append, List.length_cons]
      omega
    rwa [List.append_nil, hsteps, emittedAll_cons] at hrun

/-- R85, R87, R91: the whole body. Fewer than 8 bits are left when no symbol is, so every byte of the payload is taken. -/
theorem runEngine_body {t : Tree} {coded : List (List Bool × Byte)} {payload : List Byte} {pad : List Bool} {k : Nat}
    (h : layout a t 0) (hsize : t.size ≤ 511) (hcodes : ∀ q ∈ coded, t.codes q.1 q.2)
    (hleft : s.symsLeft = BitVec.ofNat 64 coded.length) (hcount : coded.length < 2 ^ 64)
    (hroom : s.outQ.length + coded.length ≤ s.params.outDepth)
    (hbits : bytesBits payload = coded.flatMap Prod.fst ++ pad) (hpad : pad.length < 8) :
    runEngine (payload.length + ((coded.flatMap Prod.fst).length + coded.length) + 1)
        (goto (.decode (.body 0 .empty)) (s.parsing c a k payload last rest)) =
      .next (complete ((emittedAll (coded.map Prod.snd) s).parsing c a (k + payload.length) [] last rest)) := by
  have hle : coded.length ≤ s.symsLeft.toNat := by rw [hleft, BitVec.toNat_ofNat, Nat.mod_eq_of_lt hcount]
  obtain ⟨m, cur, payload', hm, hunread, hrun⟩ := Reads.symbols (c := c) (last := last) (rest := rest) h hsize hcodes hle
    hroom k .empty payload pad ⟨trivial, hbits⟩
  obtain rfl := hunread.payload_eq_nil hpad
  obtain rfl : m = payload.length := hm
  have hnone : (emittedAll (coded.map Prod.snd) s).symsLeft = 0 := by
    simp only [emittedAll, countDown, pushedAll, List.length_map, hleft]
    exact BitVec.sub_self _
  exact runEngine_trans hrun (runEngine_one (if_pos hnone))

end

end Sys2Proof.Machine

/-! DECODE of a container emits its symbols and builds its tree (R85 to R88). -/

namespace Sys2Proof.Machine

/-! ### The whole command (R85) -/

theorem isDigit_separator_of_legal {c : Cfg} (h : c.legal = true) : isDigit c.separator = false := by
  rw [Cfg.legal, Bool.and_eq_true, Bool.not_eq_true'] at h
  exact h.1

/-- R90, R91: DECODE completes after `k` bytes were taken since its acceptance and the symbols `syms` were emitted. -/
theorem complete_emittedAll {s : State} {n : Count} (syms : List Byte) (hn : n = BitVec.ofNat 64 syms.length) (c : Nat)
    (a : Vector Node 511) (k : Nat) (last : Bool) (rest : List InEntry) :
    complete ((emittedAll syms { requestHead (encode .decode) s with symCount := n, symsLeft := n }).parsing
        c a k [] last rest) =
      { s.finished 0x04 last k syms.length with
        inQ := rest
        outQ := s.outQ ++ syms
        nodeCount := BitVec.ofNat 9 c
        arena := a
        symCount := n
        symsLeft := 0 } := by
  have hleft : n - BitVec.ofNat 64 syms.length = 0 := hn ▸ BitVec.sub_self _
  have hzero (n : Nat) : (0 : Count) + BitVec.ofNat 64 n = BitVec.ofNat 64 n := BitVec.zero_add _
  simp only [complete, State.parsing, emittedAll, countDown, pushedAll, requestHead, opcodeField_encode, hleft, hzero,
    State.finished, List.isEmpty_nil, Bool.and_true]
  rfl

/-- R75, R85: DECODE starts with `ParseTree`, which builds the tree and goes on at the header. -/
theorem runEngine_decodeTree {s : State} {t : Tree} {bs : List Byte} {last : Bool} {rest : List InEntry}
    (hc : s.cfg.legal = true) (hfits : t.fits) (hq : s.inQ = feed (treeBytes s.cfg.internalMarker t ++ bs) last ++ rest) :
    ∃ a : Vector Node 511,
      runEngine (1 + (treeBytes s.cfg.internalMarker t).length)
          (goto (.decode .start) (requestHead (encode .decode) s)) =
        .next (goto (.decode (.header 0 0)) ((requestHead (encode .decode) s).parsing t.size a
          (treeBytes s.cfg.internalMarker t).length bs last rest)) ∧
      layout a t 0 ∧ ∀ j, t.size ≤ j → a[j]? = s.arena[j]? := by
  obtain ⟨hsize, hdepth⟩ := hfits
  let u := requestHead (encode .decode) s
  have hne : (treeBytes s.cfg.internalMarker t ++ bs).isEmpty = false :=
    List.isEmpty_eq_false_iff.mpr (List.append_ne_nil_of_left_ne_nil
      (List.isEmpty_eq_false_iff.mp (treeBytes_isEmpty _ t)) bs)
  have hstart : engineStep (goto (.decode .start) u) = some (.next (goto (.decode (.parse (.marker [])))
      (u.parsing 0 u.arena 0 (treeBytes s.cfg.internalMarker t ++ bs) last rest))) := by
    rw [← parseStart_eq_parsing (s := u) (fun q => .decode (.parse q)) rfl hne hq (.decode .start)]
    rfl
  obtain ⟨a, htree, hbuilt⟩ := runsParse_decode.parsing_tree (s := u) (c := 0) (k := 0) (a := u.arena) (stk := [])
    (bs := bs) (last := last) (rest := rest) (internalMarker_ne_of_legal hc) (by rwa [Nat.zero_add])
    (by rwa [attachedStack, List.length_nil, Nat.zero_add]) nofun
  rw [Nat.zero_add, Nat.zero_add] at htree
  exact ⟨a, runEngine_trans (runEngine_one hstart) htree, hbuilt.tree,
    fun j hj => (hbuilt.others j (.inr (by omega))).trans Option.map_id'⟩

/-- Settles O15: the tree, the header and the body, one after another. -/
theorem decodeEmitsTheSymbols : Obligations.DecodeEmitsTheSymbols := by
  unfold Obligations.DecodeEmitsTheSymbols
  intro s t digits payload coded pad last rest hs hc hfits hne hdigits hvalue hcount hcodes hbits hpad hq hroom hlead
  let bs := treeBytes s.cfg.internalMarker t
  have hlength : bs.length = 3 * t.leaves + 2 * t.internals := treeBytes_length _ t
  have hqueue : s.inQ = feed (bs ++ (digits ++ s.cfg.separator :: payload)) last ++ rest := by
    rw [hq, List.append_assoc, List.append_assoc]
    rfl
  obtain ⟨a, htree, hlayout, hbeyond⟩ := runEngine_decodeTree hc hfits hqueue
  have hheader := runEngine_header (s := requestHead (encode .decode) s) (c := t.size) (a := a) (bs := payload)
    (last := last) (rest := rest) (k := bs.length) hne (fun d hd => isDigit_iff.mpr (hdigits d hd))
    (isDigit_separator_of_legal hc) (hvalue ▸ hcount)
  rw [hvalue] at hheader
  have hbody := runEngine_body (s := { requestHead (encode .decode) s with
      symCount := BitVec.ofNat 64 coded.length, symsLeft := BitVec.ofNat 64 coded.length })
    (c := t.size) (last := last) (rest := rest) (k := bs.length + digits.length + 1) hlayout hfits.1 hcodes rfl hcount
    hroom hbits hpad
  rw [complete_emittedAll (coded.map Prod.snd) (by rw [List.length_map]), List.length_map] at hbody
  have hrun := runEngine_trans htree (runEngine_trans hheader hbody)
  have hsteps : 1 + bs.length + (digits.length + 1 +
      (payload.length + ((coded.flatMap Prod.fst).length + coded.length) + 1)) ≤ s.lead := by omega
  exact ⟨a, exec_of_run hs (fun _ => hc) hrun rfl hsteps, hlayout, hbeyond⟩

end Sys2Proof.Machine

/-! DECODE inverts ENCODE (R89). -/

namespace Sys2Proof.Machine

/-- R87, R88: every code of a tree has a bit. -/
theorem codes_ne_nil {t : Tree} {code : List Bool} {x : Byte} (h : t.codes code x) : code ≠ [] := by
  rintro rfl
  cases t with
  | leaf e y => cases h.1
  | internal e l r => cases h

/-- R69, R89: a symbol whose code is one of a tree's has a code. -/
theorem len_ne_zero_of_codes {t : Tree} {e : CodeEntry} {x : Byte} (h : t.codes e.code x) : e.len ≠ 0 := by
  intro hz
  refine codes_ne_nil h (List.length_eq_zero_iff.mp ?_)
  rw [code_length, hz]
  rfl

/-- R89: the symbols with their codes, as DECODE reads them. -/
def State.codedSyms (s : State) (syms : List Byte) : List (List Bool × Byte) := syms.map fun x => ((s.entry x).code, x)

theorem codedSyms_bits (s : State) (syms : List Byte) : (s.codedSyms syms).flatMap Prod.fst = s.codeBits syms :=
  List.flatMap_map ..

theorem codedSyms_syms (s : State) (syms : List Byte) : (s.codedSyms syms).map Prod.snd = syms := by
  rw [State.codedSyms, List.map_map]
  exact List.map_id syms

theorem codedSyms_length (s : State) (syms : List Byte) : (s.codedSyms syms).length = syms.length := List.length_map _

theorem codes_of_mem_codedSyms {s : State} {t : Tree} {syms : List Byte}
    (h : ∀ x ∈ syms, t.codes (s.entry x).code x) : ∀ q ∈ s.codedSyms syms, t.codes q.1 q.2 :=
  List.forall_mem_map.mpr h

/-- R64, R69: a payload with other padding bits makes a container of the same length. -/
theorem payload_length {s : State} {syms payload : List Byte} {pad : List Bool}
    (h : bytesBits payload = s.codeBits syms ++ pad) (hpad : pad.length < 8) :
    payload.length = (s.bitstream syms).length := by
  have hlen := congrArg List.length h
  rw [bytesBits_length, List.length_append] at hlen
  rw [State.bitstream, packBits_length]
  omega

/-- Settles O17: O14 for ENCODE and O15 for DECODE of what it completed. -/
theorem encodeThenDecodeGivesTheInput : Obligations.EncodeThenDecodeGivesTheInput := by
  unfold Obligations.EncodeThenDecodeGivesTheInput
  intro s t syms last rest hs hc hfits hcount hq hcodes hroom hlead
  obtain ⟨hencode, -, hcontainer⟩ := encodeEmitsHeaderAndBitstream s syms last rest hs hc hcount hq
    (fun x hx => len_ne_zero_of_codes (hcodes x hx)) hroom hlead
  refine ⟨_, _, hencode, rfl, rfl, hcontainer t, ⟨_, ?_, bytesBits_packBits _⟩, ?_⟩
  · rw [List.length_replicate]
    omega
  rintro r payload input pad more hr hcfg hbits hpad rfl hrq hrroom hrlead
  obtain ⟨hdec, -, hdigits, hvalue, -⟩ := decIsTheShortestDecimalText s.symCount
  have hlength : (treeBytes s.cfg.internalMarker t ++ dec s.symCount ++ [s.cfg.separator] ++ payload).length =
      (treeBytes s.cfg.internalMarker t).length + (dec s.symCount).length + 1 + payload.length := by
    simp only [List.length_append, List.length_singleton]
  have htree := treeBytes_length s.cfg.internalMarker t
  rw [← codedSyms_length s syms] at hcount hrroom hrlead
  rw [← codedSyms_bits] at hbits hrlead
  obtain ⟨a, hdecode, -⟩ := decodeEmitsTheSymbols r t (dec s.symCount) payload (s.codedSyms syms) pad true more hr
    (hcfg ▸ hc) hfits (List.length_pos_iff.mp hdec) hdigits (hvalue.trans hcount) (hcount ▸ s.symCount.isLt)
    (codes_of_mem_codedSyms hcodes) hbits hpad (hcfg ▸ hrq) hrroom (by omega)
  rw [codedSyms_syms, hcfg, ← hcount, BitVec.ofNat_toNat, BitVec.setWidth_eq, ← hlength] at hdecode
  refine ⟨_, hdecode, rfl, rfl, rfl, rfl, rfl, ?_⟩
  rw [codedSyms_bits] at hbits
  rw [hlength, payload_length hbits hpad]
  simp only [State.container, List.length_append, List.length_singleton]

end Sys2Proof.Machine

/-! What DECODE leaves unchanged (R31, R63, R85): the code table, and the arena from `NODE_COUNT` on. -/

namespace Sys2Proof.Machine

/-! ### The steps after the tree (R86, R87) -/

/-- R86, R87: what every step of DECODE after its tree does: it does not start again, and the arena stays as it is. -/
structure KeepsArena (s t : State) : Prop where
  position : t.engine ≠ .decode .start
  nodeCount : t.nodeCount = s.nodeCount
  arena : t.arena = s.arena

theorem headerByte_keepsArena (hv : Count) (hd : Nat) (b : Byte) (s : State) : KeepsArena s (headerByte hv hd b s) := by
  cases h : isDigit b with
  | true =>
    rw [headerByte_digit h]
    split <;> exact ⟨nofun, rfl, rfl⟩
  | false =>
    rw [headerByte_nonDigit h]
    repeat' split
    all_goals exact ⟨nofun, rfl, rfl⟩

theorem walkBit_keepsArena {ptr : NodeIdx} {bit : Bool} {cur : Cursor} {s t : State}
    (h : walkBit ptr bit cur s = .next t) : KeepsArena s t := by
  unfold walkBit at h
  repeat' split at h
  all_goals cases h
  all_goals exact ⟨nofun, rfl, rfl⟩

/-- R51: taking a byte reaches neither the arena nor `NODE_COUNT`. -/
theorem KeepsArena.of_inPop {p : Phase} {s t : State} {k : Byte → State → Option Result}
    (h : inPop p s k = some (.next t)) (hk : ∀ b u, k b u = some (.next t) → KeepsArena u t) : KeepsArena s t := by
  obtain ⟨-, hr⟩ | ⟨e, q, -, -, hr⟩ := inPop_some h
  · cases hr
    exact ⟨nofun, rfl, rfl⟩
  · have hkeeps := hk _ _ hr
    exact ⟨hkeeps.position, hkeeps.nodeCount, hkeeps.arena⟩

theorem decodeBody_keepsArena {ptr : NodeIdx} {cur : Cursor} {s t : State} (h : decodeBody ptr cur s = some (.next t)) :
    KeepsArena s t := by
  unfold decodeBody at h
  split at h
  · cases h
    exact ⟨nofun, rfl, rfl⟩
  · cases cur with
    | empty =>
      refine .of_inPop h fun b u hk => ?_
      cases hk
      exact ⟨nofun, rfl, rfl⟩
    | bits c n => exact walkBit_keepsArena (Option.some.inj h)

/-! ### The frame -/

/-- R85: the arena of `t`, where DECODE came from `s`: as it was before the first step, and from then on as it was beyond
`NODE_COUNT`. -/
structure ArenaFrame (s t : State) : Prop where
  atStart : t.engine = .decode .start → t.arena = s.arena
  beyond : ∀ j, t.nodeCount.toNat ≤ j → t.arena[j]? = s.arena[j]?

theorem ArenaFrame.of_keepsArena {s u v : State} (hu : ArenaFrame s u) (h : KeepsArena u v) : ArenaFrame s v where
  atStart := fun hstart => absurd hstart h.position
  beyond := by
    rw [h.nodeCount, h.arena]
    exact hu.beyond

/-- R85: every step of DECODE keeps the arena beyond `NODE_COUNT`: `ParseTree` writes below it, and no other step writes
the arena. -/
theorem ArenaFrame.step {s u v : State} (hu : ArenaFrame s u) (hok : engineOk u u.engine) {p : DecodePos}
    (hE : u.engine = .decode p) (h : engineStep u = some (.next v)) : ArenaFrame s v := by
  rw [hE] at hok
  simp only [engineStep, hE] at h
  cases p with
  | start =>
    cases h
    have ha : u.arena = s.arena := hu.atStart hE
    exact ⟨fun _ => ha, fun j _ => congrArg (·[j]?) ha⟩
  | parse q =>
    have hmove := parseStep_move hok h
    refine ⟨fun hstart => ?_, fun j hj => (hmove.beyond j hj).trans (hu.beyond j (hmove.count.trans hj))⟩
    obtain h | h | ⟨q', h⟩ := hmove.position <;> cases hstart.symm.trans h
  | header hv hd =>
    simp only [decodeStep] at h
    refine hu.of_keepsArena (.of_inPop h fun b w hk => ?_)
    cases hk
    exact headerByte_keepsArena hv hd b w
  | body ptr cur => exact hu.of_keepsArena (decodeBody_keepsArena h)
  | emit x ptr cur =>
    simp only [decodeStep] at h
    obtain ⟨-, hk⟩ := outPush_some h
    cases hk
    exact hu.of_keepsArena ⟨nofun, rfl, rfl⟩

/-- R63, R85: what DECODE leaves as it was, and the bounds of its position. -/
structure DecodeKeeps (s t : State) : Prop where
  table : t.table = s.table
  bounds : engineOk t t.engine
  arena : ArenaFrame s t

/-- Settles O22: a stream transfer writes neither operand, and DECODE writes no entry from its `NODE_COUNT` on. -/
theorem decodeFrame : Obligations.DecodeFrame := by
  unfold Obligations.DecodeFrame
  intro s t hs h
  have hframe : DecodeKeeps s t := by
    refine exec_keeps (P := DecodeKeeps s) hs ?_ ?_ h
    · rw [issue, request_ready hs]
      split <;> exact ⟨rfl, trivial, fun _ => rfl, fun _ _ => rfl⟩
    · rintro u v hopr hstep ⟨w, htr, hch⟩ hu
      obtain ⟨p, hE⟩ : ∃ p, u.engine = .decode p := by
        cases hE : u.engine <;> rw [hE] at hopr <;> cases hopr
        exact ⟨_, rfl⟩
      obtain ⟨_, hv, hbounds⟩ := engineStep_ok hu.bounds hstep
      cases hv
      obtain ⟨-, -, htable, -⟩ := htr.operands
      exact
        { table := (hch.table nofun).trans (htable.trans hu.table)
          bounds := hbounds
          arena := hu.arena.step hu.bounds hE hstep }
  exact ⟨hframe.table, hframe.arena.beyond⟩

end Sys2Proof.Machine

/-! The housekeeping commands, NOP (R92) and CT_CLEAR (R93), and the request that is dropped (R90, R99). -/

namespace Sys2Proof.Machine

/-! ### Requests that are dropped -/

theorem not_ready_of_busy_or_err {s : State} (h : s.busy = true ∨ s.status.err = true) : ¬s.ready := by
  rintro ⟨hbusy, herr⟩
  rw [hbusy, herr] at h
  exact h.elim nofun nofun

/-- R90: the dropped request of a command. -/
theorem issue_dropped {s : State} (h : ¬s.ready) (i : Instr) : issue i s = s.reject := request_dropped h _ _

/-- R90: the dropped request of whatever word, as the bus makes it. -/
theorem busWrite_cmd_dropped {s : State} (h : ¬s.ready) (w : Word) : busWrite 0x04 32 w s = s.reject :=
  (busWrite_offset .cmd w s).trans (commandRequest_dropped h w)

/-- Settles O7: the request, of a command or of any other word, is dropped, and the turn's engine steps follow. -/
theorem requestDroppedWhileBusyOrErr : Obligations.RequestDroppedWhileBusyOrErr := by
  unfold Obligations.RequestDroppedWhileBusyOrErr
  intro s hs
  have hnot : ¬s.ready := not_ready_of_busy_or_err hs
  refine ⟨fun i => ?_, fun w rest hscript => ?_⟩
  · rw [exec_eq_runEngine_issue, issue_dropped hnot]
    rfl
  · have hturn : ¬({ s with script := rest, lead := 0 } : State).ready := hnot
    rw [step_of_write (by decide) hscript, busWrite_cmd_dropped hturn, runEngine_zero]
    rfl

/-! ### The engine steps of the two commands -/

/-- R92: the one step of NOP. -/
theorem engineStep_nop {s : State} (h : s.engine.opr = some .nop) : engineStep s = some (.next (complete s)) := by
  cases hE : s.engine <;> rw [hE] at h <;> cases h
  simp only [engineStep, hE, nopStep]

/-- R93: the two steps of CT_CLEAR. -/
theorem engineStep_ctClear {s : State} (h : s.engine.opr = some .ctClear) :
    engineStep s = some (.next (goto (.ctClear .finish) (clearTable s))) ∨ engineStep s = some (.next (complete s)) := by
  cases hE : s.engine <;> rw [hE] at h <;> cases h
  next p =>
    rw [engineStep, hE]
    cases p with
    | start => exact .inl rfl
    | finish => exact .inr rfl

/-! ### Completion -/

/-- Settles O10: the engine's first step completes the command. -/
theorem nopCompletes : Obligations.NopCompletes := by
  unfold Obligations.NopCompletes
  intro s hs hlead
  exact exec_of_run hs nofun (runEngine_one (engineStep_nop rfl)) rfl hlead

/-- R93: each entry of the cleared table. -/
theorem getElem_clearTable (s : State) (k : Fin 256) : (clearTable s).table[k] = s.table[k].clear :=
  Vector.getElem_map CodeEntry.clear k.isLt

/-- Settles O11: the engine's first step clears the table, and its second completes the command. -/
theorem ctClearCompletes : Obligations.CtClearCompletes := by
  unfold Obligations.CtClearCompletes
  intro s hs hlead
  let u := requestHead (encode .ctClear) s
  have hclear : engineStep (goto (.ctClear .start) u) = some (.next (goto (.ctClear .finish) (clearTable u))) := rfl
  have hfinish : engineStep (goto (.ctClear .finish) (clearTable u)) = some (.next (complete (clearTable u))) := rfl
  have hrun := runEngine_trans (runEngine_one hclear) (runEngine_one hfinish)
  refine ⟨(clearTable s).table, exec_of_run hs nofun hrun rfl hlead, fun k => ?_⟩
  rw [getElem_clearTable]
  exact ⟨rfl, rfl⟩

/-! ### The frame -/

/-- R63, R92, R93: what the housekeeping command `i` leaves as it was, and what its request cleared for good. -/
structure HousekeepingKeeps (i : Instr) (s t : State) : Prop where
  arena : t.arena = s.arena
  nodeCount : t.nodeCount = s.nodeCount
  symCount : t.symCount = s.symCount
  symsLeft : t.symsLeft = s.symsLeft
  inQ : t.inQ = s.inQ
  outQ : t.outQ = s.outQ
  inCount : t.inCount = 0
  outCount : t.outCount = 0
  err : t.status.err = false
  errInfo : t.errInfo = s.errInfo
  table : i = .nop → t.table = s.table

/-- R90: the request, which checks no configuration. -/
theorem HousekeepingKeeps.issue {i : Instr} {s : State} (hs : s.ready) (hi : usesCfg i = false) :
    HousekeepingKeeps i s (issue i s) := by
  rw [issue_accepted hs (by rw [hi]; nofun)]
  exact ⟨rfl, rfl, rfl, rfl, rfl, rfl, rfl, rfl, hs.2, rfl, fun _ => rfl⟩

theorem HousekeepingKeeps.complete {i : Instr} {s t : State} (h : HousekeepingKeeps i s t) :
    HousekeepingKeeps i s (complete t) := { h with }

/-- R93: clearing the lengths, which only CT_CLEAR does. -/
theorem HousekeepingKeeps.clearTable {s t : State} (h : HousekeepingKeeps .ctClear s t) (e : Engine) :
    HousekeepingKeeps .ctClear s (goto e (clearTable t)) := { h with table := nofun }

/-- Settles O23: the request keeps the frame, and each step of the two commands completes or clears the table. -/
theorem housekeepingFrame : Obligations.HousekeepingFrame := by
  unfold Obligations.HousekeepingFrame
  intro i s t hi hs h
  have hframe : HousekeepingKeeps i s t := by
    obtain rfl | rfl := hi
    · refine exec_keeps (P := HousekeepingKeeps .nop s) hs (.issue hs rfl) (fun u v hopr hstep _ hu => ?_) h
      cases (engineStep_nop hopr).symm.trans hstep
      exact hu.complete
    · refine exec_keeps (P := HousekeepingKeeps .ctClear s) hs (.issue hs rfl) (fun u v hopr hstep _ hu => ?_) h
      obtain hclear | hcomplete := engineStep_ctClear hopr
      · cases hclear.symm.trans hstep
        exact hu.clearTable _
      · cases hcomplete.symm.trans hstep
        exact hu.complete
  exact ⟨hframe.arena, hframe.nodeCount, hframe.symCount, hframe.symsLeft, hframe.inQ, hframe.outQ, hframe.inCount,
    hframe.outCount, hframe.err, hframe.errInfo, hframe.table⟩

end Sys2Proof.Machine

/-! Errors, acknowledgement and the interrupt line (R96, R98, R101): how a running command ends, what leaves the
record of an error as it is, and what takes `irq` to 0. -/

namespace Sys2Proof.Machine

/-! ### The end of the running command (R91, R96, R99) -/

theorem busy_of_opr {s : State} {i : Instr} (h : s.engine.opr = some i) : s.busy = true := by
  cases hb : s.busy with
  | true => rfl
  | false =>
    rw [busy_eq_false_iff.mp hb] at h
    cases h

/-- R91, R96: an engine step that ends its command completes it or fails, from `DONE` and `ERR` both 0. -/
theorem engineStep_done_eq_not_err {s t : State} (hs : Inv s) (h : engineStep s = some (.next t))
    (ht : t.engine = .idle) : t.status.done = !t.status.err := by
  obtain ⟨i, hopr, u, htr, hch⟩ := engineStep_effect h
  obtain ⟨hdone, herr⟩ := hs.busyClean (busy_of_opr hopr)
  obtain ⟨hst, -, -⟩ := htr.flags
  have hu : u.status.done = false ∧ u.status.err = false := by
    rw [hst]
    exact ⟨hdone, herr⟩
  cases hch.ending with
  | runs hrun => exact absurd ht hrun
  | completes _ hd he => rw [hd, he, hu.2, Bool.not_false]
  | fails _ hd he => rw [hd, he, hu.1, Bool.not_true]

/-- R16, R99 item 5: the invariant, and that a command that was running and has ended left exactly one of `DONE` and
`ERR`. -/
structure RunsOrEnded (t : State) : Prop where
  inv : Inv t
  ended : t.engine = .idle → t.status.done = !t.status.err

theorem RunsOrEnded.of_busy {s : State} (hs : Inv s) (hb : s.busy = true) : RunsOrEnded s where
  inv := hs
  ended := fun he => by cases hb.symm.trans (busy_eq_false_iff.mpr he)

theorem RunsOrEnded.step {s t : State} (hs : RunsOrEnded s) (h : engineStep s = some (.next t)) : RunsOrEnded t where
  inv := engineStep_keeps_inv hs.inv h
  ended := engineStep_done_eq_not_err hs.inv h

/-- R44, R90: no transition of the host but a reset ends the running command. -/
theorem HostMove.keeps_busy {s u : State} {n : Nat} (h : HostMove s n u) (hb : s.busy = true)
    (hrst : ∀ n rest, s.script ≠ { action := .rst, lead := n } :: rest) : u.busy = true := by
  cases h with
  | @writes addr width v n rest off =>
    have hturn : (beginTurn { action := .write addr width v, lead := n } rest s).busy = true := hb
    rw [State.busy, (busWrite_of_busy hturn off width v).1.engine]
    exact hb
  | resets hs => exact absurd hs (hrst _ _)
  | _ => exact hb

/-- Settles O40: the host's transition leaves the command running, and the engine step that ends it sets one of the two
flags. -/
theorem runningCommandEndsInDoneOrErr : Obligations.RunningCommandEndsInDoneOrErr := by
  unfold Obligations.RunningCommandEndsInDoneOrErr
  intro s t hs hb hrst h ht
  obtain ⟨n, u, hmove, hstep⟩ := step_eq_runEngine s
  rw [hstep] at h
  have hu : RunsOrEnded u := .of_busy (hmove.keeps_inv hs) (hmove.keeps_busy hb hrst)
  exact (runEngine_keeps (fun _ _ => RunsOrEnded.step) n hu h).ended (busy_eq_false_iff.mp ht)

/-! ### What leaves an error standing (R101) -/

/-- The engine, and the record of an error: `ERR`, `ERR_CODE`, `ERR_DETAIL` and `ERR_INFO` (R16, R19). -/
structure SameError (s t : State) : Prop where
  engine : t.engine = s.engine
  err : t.status.err = s.status.err
  errCode : t.status.errCode = s.status.errCode
  errDetail : t.status.errDetail = s.status.errDetail
  errInfo : t.errInfo = s.errInfo

theorem sameError_reject (s : State) : SameError s s.reject := ⟨rfl, rfl, rfl, rfl, rfl⟩

theorem writeNodeWindow_sameError (f : Node → Node) (s : State) : SameError s (writeNodeWindow f s) := by
  unfold writeNodeWindow
  split
  · rename_i hset
    rw [mapNode?_eq hset]
    exact ⟨rfl, rfl, rfl, rfl, rfl⟩
  · exact sameError_reject s

/-- R43, R90, R101: of a host's writes only a request that is taken and an acknowledgement reach the engine or the
record of an error. -/
theorem regWrite_sameError {s : State} (hs : ¬s.ready) {r : Reg} {v : Word}
    (hack : r = .status → v.getLsbD 2 = false) : SameError s (regWrite r v s) := by
  unfold regWrite
  split
  · exact sameError_reject s
  · cases r with
    | cmd =>
      show SameError s (commandRequest v s)
      rw [commandRequest_dropped hs]
      exact sameError_reject s
    | status =>
      show SameError s (s.writeStatus v)
      rw [writeStatus_of_bit2_clear (hack rfl)]
      exact ⟨rfl, rfl, rfl, rfl, rfl⟩
    | nodeA | nodeB => exact writeNodeWindow_sameError _ s
    | _ => exact ⟨rfl, rfl, rfl, rfl, rfl⟩

theorem slotReg_eq_some {k : Nat} {r : Reg} (h : slotReg k = some r) : r.offset = 4 * k := by
  unfold slotReg at h
  split at h <;> cases h <;> rfl

/-- R13: an access reaches a register at its offset alone, and 32 bits wide. -/
theorem accessReg_eq_some {off width : Nat} {r : Reg} (h : accessReg off width = some r) :
    off = r.offset ∧ width = 32 := by
  unfold accessReg at h
  split at h
  · rename_i hword
    have hoff := slotReg_eq_some h
    exact ⟨by omega, hword.1⟩
  · cases h

/-- R101: a write in the window while no request is taken is an acknowledgement, or leaves an error standing. -/
theorem busWrite_sameError {s : State} (hs : ¬s.ready) (off width : Nat) (v : Word) :
    SameError s (busWrite off width v s) ∨ (off = 0x08 ∧ width = 32 ∧ v.getLsbD 2 = true) := by
  unfold busWrite
  split
  · rename_i r hr
    by_cases hack : r = .status ∧ v.getLsbD 2 = true
    · obtain ⟨rfl, hv⟩ := hack
      obtain ⟨hoff, hwidth⟩ := accessReg_eq_some hr
      exact .inr ⟨hoff, hwidth, hv⟩
    · exact .inl (regWrite_sameError hs fun hr => Bool.eq_false_iff.mpr fun hv => hack ⟨hr, hv⟩)
  · exact .inl (sameError_reject s)

/-- R101: the host's transition leaves an error standing, or it is a reset, or a 32-bit write to `STATUS` with bit 2
set. -/
theorem HostMove.sameError {s u : State} {n : Nat} (h : HostMove s n u) (herr : s.status.err = true) :
    SameError s u ∨ (∃ n rest, s.script = { action := .rst, lead := n } :: rest) ∨
      ∃ v n rest, s.script = { action := .write (s.params.regBase + 0x08) 32 v, lead := n } :: rest ∧
        v.getLsbD 2 = true := by
  cases h with
  | @writes addr width v n rest off hs ho =>
    have hturn : ¬(beginTurn { action := .write addr width v, lead := n } rest s).ready :=
      not_ready_of_busy_or_err (.inr herr)
    obtain hsame | ⟨rfl, rfl, hv⟩ := busWrite_sameError hturn off width v
    · exact .inl ⟨hsame.engine, hsame.err, hsame.errCode, hsame.errDetail, hsame.errInfo⟩
    · rw [addr_of_offset? ho] at hs
      exact .inr (.inr ⟨v, n, rest, hs, hv⟩)
  | resets hs => exact .inr (.inl ⟨_, _, hs⟩)
  | _ => exact .inl ⟨rfl, rfl, rfl, rfl, rfl⟩

/-- Settles O41: with `ERR` set no command runs, so a transition of the host that leaves the error standing is the whole
step. -/
theorem errorStandsUntilAcknowledged : Obligations.ErrorStandsUntilAcknowledged := by
  unfold Obligations.ErrorStandsUntilAcknowledged
  intro s t hs herr h
  obtain ⟨n, u, hmove, hstep⟩ := step_eq_runEngine s
  refine (hmove.sameError herr).imp_left fun hsame => ?_
  have hidle : u.engine = .idle := by
    rw [hsame.engine, ← busy_eq_false_iff]
    by_contra hbusy
    cases herr.symm.trans (hs.busyClean (Bool.eq_true_of_not_eq_false hbusy)).2
  rw [hstep, runEngine_idle hidle] at h
  cases h
  exact ⟨hsame.err.trans herr, hsame.errCode, hsame.errDetail, hsame.errInfo, busy_eq_false_iff.mpr hidle⟩

/-! ### The interrupt line (R98) -/

theorem done_busWrite_status (v : Word) (s : State) :
    (busWrite 0x08 32 v s).status.done = (s.status.done && !v.getLsbD 1) := (statusWriteIsWriteOneToClear s v).1

theorem err_busWrite_status (v : Word) (s : State) :
    (busWrite 0x08 32 v s).status.err = (s.status.err && !v.getLsbD 2) := by
  obtain ⟨-, -, hset, hclear⟩ := statusWriteIsWriteOneToClear s v
  cases hv : v.getLsbD 2 with
  | true => rw [hset hv, Bool.not_true, Bool.and_false]
  | false => rw [hclear hv, Bool.not_false, Bool.and_true]

/-- R17, R98: after a write to `IRQ_EN` its two bits enable the two terms. -/
theorem irq_busWrite_irqEn (v : Word) (s : State) :
    (busWrite 0x0C 32 v s).irq = ((s.status.done && v.getLsbD 0) || (s.status.err && v.getLsbD 1)) :=
  congrArg State.irq (busWrite_offset .irqEn v s)

/-- R90: a request that is taken clears `DONE`, accepted or not. -/
theorem issue_done_of_ready {s : State} (hs : s.ready) (i : Instr) : (issue i s).status.done = false := by
  rw [issue, request_ready hs]
  split <;> rfl

/-- Settles O51: each flag and each enable bit is a factor of its term. -/
theorem irqFollowsDoneAndErr : Obligations.IrqFollowsDoneAndErr := by
  unfold Obligations.IrqFollowsDoneAndErr
  intro s
  refine ⟨by simp only [State.irq, Bool.or_eq_true, Bool.and_eq_true],
    fun v hv => ⟨?_, err_busWrite_status v s⟩, fun v hv => ⟨?_, done_busWrite_status v s⟩,
    fun v hv => ?_, fun v hv => ?_, fun i hs => issue_done_of_ready hs i, rfl⟩
  · rw [done_busWrite_status, hv, Bool.not_true, Bool.and_false]
  · rw [err_busWrite_status, hv, Bool.not_true, Bool.and_false]
  · rw [irq_busWrite_irqEn, hv, Bool.and_false, Bool.false_or]
  · rw [irq_busWrite_irqEn, hv, Bool.and_false, Bool.or_false]

end Sys2Proof.Machine

/-! Writes to the registers while a command runs (R44, R111). -/

namespace Sys2Proof.Machine

/-- R44: a write to an idle-write register while a command runs is lost, and `REJ` tells it. -/
theorem busWrite_idleWrite_of_busy {s : State} {off : Nat} (hb : s.busy = true)
    (h : (accessReg off 32).any Reg.idleWrite = true) (v : Word) : busWrite off 32 v s = s.reject := by
  obtain ⟨r, hr, hidle⟩ := (Option.any_eq_true _ _).mp h
  rw [(accessReg_eq_some hr).1, busWrite_offset, regWrite, hidle, hb, Bool.and_self, if_pos rfl]

/-- R44: a write to a register that is no idle-write register is not rejected for a running command. -/
theorem busWrite_of_not_idleWrite {r : Reg} (hr : r.idleWrite = false) (v : Word) (s : State) :
    busWrite r.offset 32 v s = regApply r v s := by
  rw [busWrite_offset, regWrite, hr, Bool.false_and, if_neg Bool.false_ne_true]

/-- Settles O45: the eight registers are idle-write, `CMD` drops its request, and the other four are not idle-write. -/
theorem idleWriteRegistersRejectWhileBusy : Obligations.IdleWriteRegistersRejectWhileBusy := by
  unfold Obligations.IdleWriteRegistersRejectWhileBusy
  intro s v hb
  refine ⟨fun off hoff => busWrite_idleWrite_of_busy hb ?_ v, busWrite_cmd_dropped (not_ready_of_busy_or_err (.inl hb)) v,
    busWrite_of_not_idleWrite (r := .status) rfl v s, busWrite_of_not_idleWrite (r := .irqEn) rfl v s,
    busWrite_of_not_idleWrite (r := .nodeSel) rfl v s, busWrite_of_not_idleWrite (r := .ctSel) rfl v s⟩
  obtain rfl | rfl | rfl | rfl | rfl | rfl | rfl | rfl := hoff <;> rfl

end Sys2Proof.Machine

/-! Reset (R109): the state it leaves meets the invariant, and its registers read their reset values (R13). -/

namespace Sys2Proof.Machine

/-- R109: with the engine idle, the FIFOs empty and `STATUS` and `ERR_INFO` 0, the invariant asks for nothing more. -/
theorem atReset_inv (p : Params) (draw : Nat) : Inv (State.atReset p draw) :=
  .of_idle rfl ⟨Nat.zero_le _, Nat.zero_le _⟩ (.of_clean rfl rfl rfl rfl rfl)

/-- Settles O54: `State.reset` is a state that a reset leaves. -/
theorem resetMeetsTheInvariant : Obligations.ResetMeetsTheInvariant := atReset_inv _ 0

/-- The step of a reset turn: the engine is idle after it, so no engine step follows. -/
theorem step_of_rst {s : State} {n : Nat} {rest : List Turn}
    (hs : s.script = { action := .rst, lead := n } :: rest) :
    step s = .next (resetCore (beginTurn { action := .rst, lead := n } rest s)) := by
  simp only [step, machineStep, hs, takeTurn]
  exact runEngine_idle rfl n

/-- R13's column of reset values; the windows on the arena and on the code table have none. -/
def Reg.resetValue : Reg → Option Word
  | .id => some 0x48434331
  | .cfg => some 0x00004920
  | .nodeA | .nodeB | .ctLen | .ctWord => none
  | _ => some 0

/-- R16: with no command running and every stored field 0, `STATUS` reads 0. -/
theorem statusWord_of_clean {s : State} (hb : s.busy = false)
    (hs : s.status =
      { done := false, err := false, rej := false, inEnded := false, errCode := 0, errDetail := 0, op := 0 }) :
    s.statusWord = 0 := by
  rw [State.statusWord, hb, hs]
  decide

/-- R109 item 1: after a reset each register reads its reset value. -/
theorem regRead_resetCore {r : Reg} {v : Word} (h : r.resetValue = some v) (s : State) :
    regRead r (resetCore s) = v := by
  cases r <;> cases h
  case status => exact statusWord_of_clean rfl rfl
  case irqEn =>
    show ({ doneIe := false, errIe := false } : IrqEn).word = 0
    decide
  case cfg =>
    show ({ separator := 0x20, internalMarker := 0x49 } : Cfg).word = 0x00004920
    decide
  case ctSel =>
    show ({ sym := 0, word := 0 } : CtSel).asWord = 0
    decide
  case inCountHi | outCountHi | symCountHi | symsLeftHi =>
    show countHi 0 = 0
    decide
  all_goals rfl

/-- The same of the word that a host reads at the register's offset. -/
theorem busRead_resetCore {off : Nat} {v : Word} (h : (accessReg off 32).bind Reg.resetValue = some v) (s : State) :
    busRead off 32 (resetCore s) = v := by
  obtain ⟨r, hr, hv⟩ := Option.bind_eq_some_iff.mp h
  rw [(accessReg_eq_some hr).1, busRead_offset, regRead_resetCore hv]

/-- Settles O53: the state after the step is that of the reset transition, and each offset is that of a register with
its reset value. -/
theorem resetGivesTheResetValues : Obligations.ResetGivesTheResetValues := by
  unfold Obligations.ResetGivesTheResetValues
  intro s n rest hs
  refine ⟨_, step_of_rst hs, rfl, rfl, rfl, rfl, rfl, busRead_resetCore rfl _, busRead_resetCore rfl _,
    fun off hoff => busRead_resetCore ?_ _⟩
  obtain rfl | rfl | rfl | rfl | rfl | rfl | rfl | rfl | rfl | rfl | rfl | rfl | rfl | rfl | rfl := hoff <;> rfl

end Sys2Proof.Machine

/-! The two words of a 64-bit count (R47, R54, R112): what they make when read together, and how they tear. -/

namespace Sys2Proof.Machine

/-- R47: a count is its two halves. -/
theorem countOf_halves (c : Count) : countOf (countHi c) (countLo c) = c := by
  rw [countOf, countHi, countLo, BitVec.extractLsb'_append_extractLsb'_eq_extractLsb' (by rfl), BitVec.extractLsb'_eq_self]

/-- R21: the words of `OUT_COUNT`, each read in its own state. -/
theorem countOf_outCount_reads (s t : State) :
    countOf (busRead 0x24 32 t) (busRead 0x20 32 s) = countOf (countHi t.outCount) (countLo s.outCount) :=
  congrArg₂ countOf (busRead_offset .outCountHi t) (busRead_offset .outCountLo s)

/-- Read with no engine step between, the words of `OUT_COUNT` make it. -/
theorem countOf_outCount_reads_same (s : State) : countOf (busRead 0x24 32 s) (busRead 0x20 32 s) = s.outCount :=
  (countOf_outCount_reads s s).trans (countOf_halves s.outCount)

/-- An ENCODE that pushes its separator next, when one more byte carries into the high word of `OUT_COUNT`. -/
def aboutToCarry : State := goto (.encode (.digits [])) { State.reset with outCount := 0xFFFFFFFF }

theorem aboutToCarry_inv : Inv aboutToCarry where
  inFits := Nat.zero_le _
  outFits := Nat.zero_le _
  notBoth := nofun
  busyClean := fun _ => ⟨rfl, rfl⟩
  noErrZero := fun _ => ⟨rfl, rfl, rfl⟩
  errListed := nofun
  cfgLegal := fun _ _ _ => rfl
  engine := trivial

/-- R52, R82: its next engine step pushes the separator and counts it. -/
theorem engineStep_aboutToCarry : engineStep aboutToCarry =
    some (.next (goto (.encode (.symbol 0 0)) (pushedAll [Config.separatorReset] aboutToCarry))) :=
  outPush_goto (s := aboutToCarry) (by decide) _

/-- Settles O52: the step takes `OUT_COUNT` from 2^32 - 1 to 2^32, and the low word before it and the high word after it
make 2^33 - 1. -/
theorem countReadsCanTear : Obligations.CountReadsCanTear := by
  unfold Obligations.CountReadsCanTear
  refine ⟨_, _, aboutToCarry_inv, rfl, engineStep_aboutToCarry, countOf_outCount_reads_same _,
    countOf_outCount_reads_same _, ?_, ?_⟩ <;> rw [countOf_outCount_reads]
  · show countOf (countHi 0x100000000) (countLo 0xFFFFFFFF) ≠ (0xFFFFFFFF : Count)
    decide
  · show countOf (countHi 0x100000000) (countLo 0xFFFFFFFF) ≠ (0x100000000 : Count)
    decide

end Sys2Proof.Machine
